-- ==== Sys2Proof/Word.lean ====
section
/-! DEFINITION. The widths HCORE's registers and fields have (00_scope.md rule R8, 10_state.md), bit sequences
(rule R12) and the register file: a fixed number of equal registers. -/

namespace Sys2Proof

/-- A command word (rule R70). -/
abbrev Word := BitVec 32

/-- The OP field of a command word (rule R71), and ERRCMD (rule R24). -/
abbrev Opcode := BitVec 8

/-- The A field of a command word (rule R71): a symbol or a node index. -/
abbrev OperandA := BitVec 10

/-- The B field of a command word (rule R71): a code bit index. -/
abbrev OperandB := BitVec 8

/-- FREQ_W and LEN_W (rule R8). -/
abbrev Count := BitVec 32

/-- WEIGHT_W (rule R8). -/
abbrev Weight := BitVec 33

/-- SYM_W (rule R8). -/
abbrev Symbol := BitVec 9

/-- IDX_W (rule R8): ROOT, CURSOR, LEFT, RIGHT and NODE_COUNT. -/
abbrev Index := BitVec 10

/-- IPOS_W (rule R8). -/
abbrev Position := BitVec 48

/-- The width of CODE_LEN (rule R31). -/
abbrev CodeLength := BitVec 9

/-- The width of CODE_BITS (rule R31), MAX_CODE_LEN. -/
abbrev CodeBits := BitVec 256

/-- The STATUS field of a response (rule R73), and ERRCODE (rule R24). -/
abbrev Status := BitVec 4

/-- The VALUE field of a response (rule R73). -/
abbrev Value := BitVec 64

/-- A bit sequence, its first bit first (rule R12). -/
abbrev Bits := List Bool

/-- `n` equal registers. The registers stand in a list whose length is part of the type, so that two files are
compared, and one is written out, register by register. -/
structure RegFile (α : Type) (n : Nat) where
  cells : List α
  size : cells.length = n
deriving DecidableEq, Repr

/-- Every register of the file holds `a`. -/
def RegFile.fill {α : Type} (n : Nat) (a : α) : RegFile α n := ⟨List.replicate n a, by simp⟩

/-- Register `i`, or `d` where the file has no register `i`. -/
def RegFile.read {α : Type} {n : Nat} (f : RegFile α n) (d : α) (i : Nat) : α := f.cells.getD i d

/-- Write register `i`, where the file has one. -/
def RegFile.write {α : Type} {n : Nat} (f : RegFile α n) (i : Nat) (a : α) : RegFile α n :=
  ⟨f.cells.set i a, by simp [f.size]⟩

end Sys2Proof
end

