-- ==== Sys2Proof/Config.lean ====
section
/-! DEFINITION. The configuration of the model, which is not state (00_scope.md rule R19): the fixed parameters of
rule R8 and MAGIC (rule R9). -/

namespace Sys2Proof.Config

/-- NSYM: the symbols 0..256 (rule R8). -/
abbrev nsym : Nat := 257

/-- SENTINEL: the pseudo-end-of-stream symbol (rule R8). -/
abbrev sentinel : Nat := 256

/-- NODE_CAP: the entries of the node arena (rule R8). -/
abbrev nodeCap : Nat := 513

/-- MAX_CODE_LEN (rule R8). -/
abbrev maxCodeLen : Nat := 256

/-- MAX_LEN: the most bytes of one compression job (rule R8). -/
abbrev maxLen : Nat := 2 ^ 32 - 1

/-- IN_MAX_BITS: the most bits IN holds (rule R8). -/
abbrev inMaxBits : Nat := 2 ^ 48 - 1

/-- The most bits OUT holds, OUTLEN_W = 56 bits of length (rules R8, R35). -/
abbrev outMaxBits : Nat := 2 ^ 56 - 1

/-- The default of the parameter MAGIC (rule R9). PRESUMED, unsafe: the spec itself supplies the value from general
knowledge (log entry 1). The machine takes MAGIC as an argument: execWith, stepWith and coreWith of Machine/Magic.lean;
exec, step and core are the machine at this default. -/
def magic : BitVec 32 := 0xFACE8201#32

end Sys2Proof.Config
end

