-- ==== Sys2Proof/Syntax.lean ====
section
/-! DEFINITION. The commands of the HCORE command set, version 1: one constructor for each row of the opcode map
(30_encoding.md rule R76). A command word holds at most the operands A (10 bits) and B (8 bits), rule R71. -/

namespace Sys2Proof

inductive Instr where
  /-- NOP (rule R170). -/
  | nop
  /-- RESET (rule R171). -/
  | reset
  /-- FC_START: open a compression job (rule R100). -/
  | fcStart
  /-- FC_STEP: count one input byte (rule R101). -/
  | fcStep
  /-- FC_RUN: count every remaining input byte (rule R102). -/
  | fcRun
  /-- TB_BUILD: build the trie (rule R110). -/
  | tbBuild
  /-- CT_GEN: derive the code table (rule R120). -/
  | ctGen
  /-- HW_MAGIC: write the magic field (rule R160). -/
  | hwMagic
  /-- HW_HEADER: write the header region (rule R130). -/
  | hwHeader
  /-- ENC_START: rewind the input (rule R140). -/
  | encStart
  /-- ENC_STEP: encode one input byte (rule R141). -/
  | encStep
  /-- ENC_RUN: encode every remaining input byte (rule R142). -/
  | encRun
  /-- DM_START: open a decompression job (rule R161). -/
  | dmStart
  /-- HR_MAGIC: read and check the magic field (rule R162). -/
  | hrMagic
  /-- HR_HEADER: parse the header region (rule R133). -/
  | hrHeader
  /-- DEC_STEP: recover one symbol (rule R150). -/
  | decStep
  /-- DEC_RUN: recover symbols until the sentinel (rule R151). -/
  | decRun
  /-- RD_STATUS (rule R173). -/
  | rdStatus
  /-- RD_FREQ `a`: `a` is a symbol (rule R174). -/
  | rdFreq (a : OperandA)
  /-- RD_LEN (rule R175). -/
  | rdLen
  /-- RD_ROOT (rule R176). -/
  | rdRoot
  /-- RD_NCOUNT (rule R177). -/
  | rdNcount
  /-- RD_NODE `a`: `a` is a node index (rule R180). -/
  | rdNode (a : OperandA)
  /-- RD_CODELEN `a`: `a` is a symbol (rule R181). -/
  | rdCodelen (a : OperandA)
  /-- RD_CODEBIT `a`, `b`: `a` is a symbol, `b` a code bit index (rule R182). -/
  | rdCodebit (a : OperandA) (b : OperandB)
  /-- RD_IPOS (rule R183). -/
  | rdIpos
  /-- RD_OUTLEN (rule R184). -/
  | rdOutlen
  /-- RD_CURSOR (rule R185). -/
  | rdCursor
deriving DecidableEq, Repr

end Sys2Proof
end

