-- ==== Sys2Proof/WellFormed.lean ====
section
/-! DEFINITION. The part of a command's legality that its word alone decides (30_encoding.md rule R77 item 3): a
symbol operand is 0..256. What depends on the state (NODE_COUNT, the code table) is in Machine/Operands.lean. -/

namespace Sys2Proof

/-- An operand that names a symbol (rule R77: A ≤ 256). -/
def isSymbol (a : OperandA) : Bool := a.toNat ≤ Config.sentinel

/-- The operands satisfy what the columns of rule R76 ask of the word. -/
def Instr.wellFormed : Instr → Bool
  | .nop => true
  | .reset => true
  | .fcStart => true
  | .fcStep => true
  | .fcRun => true
  | .tbBuild => true
  | .ctGen => true
  | .hwMagic => true
  | .hwHeader => true
  | .encStart => true
  | .encStep => true
  | .encRun => true
  | .dmStart => true
  | .hrMagic => true
  | .hrHeader => true
  | .decStep => true
  | .decRun => true
  | .rdStatus => true
  | .rdFreq a => isSymbol a
  | .rdLen => true
  | .rdRoot => true
  | .rdNcount => true
  | .rdNode _ => true
  | .rdCodelen a => isSymbol a
  | .rdCodebit a _ => isSymbol a
  | .rdIpos => true
  | .rdOutlen => true
  | .rdCursor => true

end Sys2Proof
end

