-- ==== Sys2Proof/Decode.lean ====
section
/-! DEFINITION. The command word (30_encoding.md rules R70 to R72, R76, R77): its fields, the decoder, which is total and
rejects by name, and the encoder. A word is one 32-bit number on the command port; HCORE has no byte order and no
instruction memory (rules R61, R66). -/

namespace Sys2Proof

/-- OP = word[7:0] (rule R71). -/
def opField (w : Word) : Opcode := w.extractLsb' 0 8

/-- A = word[17:8] (rules R71, R72). -/
def aField (w : Word) : OperandA := w.extractLsb' 8 10

/-- B = word[25:18] (rules R71, R72). -/
def bField (w : Word) : OperandB := w.extractLsb' 18 8

/-- RSV = word[31:26] (rule R71). -/
def rsvField (w : Word) : BitVec 6 := w.extractLsb' 26 6

/-- Why a word is illegal whatever the state (rules R77, R78). The machine answers every one of them in the same way,
with IllegalCommand. -/
inductive DecodeError where
  /-- Rule R77 item 1: OP is not in the opcode map. -/
  | unassignedOpcode (op : Opcode)
  /-- Rule R77 item 2: RSV ≠ 0. -/
  | reservedBits (rsv : BitVec 6)
  /-- Rule R77 item 3: a column "0" requires 0, and A or B is not. -/
  | operandNotZero
  /-- Rule R77 item 3: A names no symbol. -/
  | symbolOutOfRange (a : OperandA)
deriving DecidableEq, Repr

/-- A row whose columns A and B are "0" (rule R76). -/
def plainRow (i : Instr) (a : OperandA) (b : OperandB) : Except DecodeError Instr :=
  if a = 0 ∧ b = 0 then .ok i else .error .operandNotZero

/-- A row whose column A is "symbol 0..256" and column B is "0" (rule R76). -/
def symbolRow (i : Instr) (a : OperandA) (b : OperandB) : Except DecodeError Instr :=
  if isSymbol a then (if b = 0 then .ok i else .error .operandNotZero) else .error (.symbolOutOfRange a)

/-- The row of RD_NODE: column A is a node index, which the state bounds, and column B is "0" (rule R76). -/
def nodeRow (i : Instr) (b : OperandB) : Except DecodeError Instr :=
  if b = 0 then .ok i else .error .operandNotZero

/-- The row of RD_CODEBIT: column A is a symbol, and column B a bit index that the state bounds (rule R76). -/
def codeBitRow (i : Instr) (a : OperandA) : Except DecodeError Instr :=
  if isSymbol a then .ok i else .error (.symbolOutOfRange a)

/-- The opcode map (rule R76). -/
def decodeOp (op : Opcode) (a : OperandA) (b : OperandB) : Except DecodeError Instr :=
  match op with
  | 0x00#8 => plainRow .nop a b
  | 0x01#8 => plainRow .reset a b
  | 0x10#8 => plainRow .fcStart a b
  | 0x11#8 => plainRow .fcStep a b
  | 0x12#8 => plainRow .fcRun a b
  | 0x20#8 => plainRow .tbBuild a b
  | 0x30#8 => plainRow .ctGen a b
  | 0x40#8 => plainRow .hwMagic a b
  | 0x41#8 => plainRow .hwHeader a b
  | 0x50#8 => plainRow .encStart a b
  | 0x51#8 => plainRow .encStep a b
  | 0x52#8 => plainRow .encRun a b
  | 0x60#8 => plainRow .dmStart a b
  | 0x61#8 => plainRow .hrMagic a b
  | 0x62#8 => plainRow .hrHeader a b
  | 0x70#8 => plainRow .decStep a b
  | 0x71#8 => plainRow .decRun a b
  | 0x80#8 => plainRow .rdStatus a b
  | 0x81#8 => symbolRow (.rdFreq a) a b
  | 0x82#8 => plainRow .rdLen a b
  | 0x83#8 => plainRow .rdRoot a b
  | 0x84#8 => plainRow .rdNcount a b
  | 0x85#8 => nodeRow (.rdNode a) b
  | 0x86#8 => symbolRow (.rdCodelen a) a b
  | 0x87#8 => codeBitRow (.rdCodebit a b) a
  | 0x88#8 => plainRow .rdIpos a b
  | 0x89#8 => plainRow .rdOutlen a b
  | 0x8A#8 => plainRow .rdCursor a b
  | _ => .error (.unassignedOpcode op)

/-- The command a word stands for, or why no state makes the word legal (rule R77). -/
def decode (w : Word) : Except DecodeError Instr :=
  if rsvField w ≠ 0 then .error (.reservedBits (rsvField w)) else decodeOp (opField w) (aField w) (bField w)

/-- The opcode of a command (rule R76). -/
def Instr.opcode : Instr → Opcode
  | .nop => 0x00#8
  | .reset => 0x01#8
  | .fcStart => 0x10#8
  | .fcStep => 0x11#8
  | .fcRun => 0x12#8
  | .tbBuild => 0x20#8
  | .ctGen => 0x30#8
  | .hwMagic => 0x40#8
  | .hwHeader => 0x41#8
  | .encStart => 0x50#8
  | .encStep => 0x51#8
  | .encRun => 0x52#8
  | .dmStart => 0x60#8
  | .hrMagic => 0x61#8
  | .hrHeader => 0x62#8
  | .decStep => 0x70#8
  | .decRun => 0x71#8
  | .rdStatus => 0x80#8
  | .rdFreq _ => 0x81#8
  | .rdLen => 0x82#8
  | .rdRoot => 0x83#8
  | .rdNcount => 0x84#8
  | .rdNode _ => 0x85#8
  | .rdCodelen _ => 0x86#8
  | .rdCodebit _ _ => 0x87#8
  | .rdIpos => 0x88#8
  | .rdOutlen => 0x89#8
  | .rdCursor => 0x8A#8

/-- The A field of a command's word: its first operand, or 0 (rule R72). -/
def Instr.operandA : Instr → OperandA
  | .nop => 0
  | .reset => 0
  | .fcStart => 0
  | .fcStep => 0
  | .fcRun => 0
  | .tbBuild => 0
  | .ctGen => 0
  | .hwMagic => 0
  | .hwHeader => 0
  | .encStart => 0
  | .encStep => 0
  | .encRun => 0
  | .dmStart => 0
  | .hrMagic => 0
  | .hrHeader => 0
  | .decStep => 0
  | .decRun => 0
  | .rdStatus => 0
  | .rdFreq a => a
  | .rdLen => 0
  | .rdRoot => 0
  | .rdNcount => 0
  | .rdNode a => a
  | .rdCodelen a => a
  | .rdCodebit a _ => a
  | .rdIpos => 0
  | .rdOutlen => 0
  | .rdCursor => 0

/-- The B field of a command's word: its second operand, or 0 (rule R72). -/
def Instr.operandB : Instr → OperandB
  | .nop => 0
  | .reset => 0
  | .fcStart => 0
  | .fcStep => 0
  | .fcRun => 0
  | .tbBuild => 0
  | .ctGen => 0
  | .hwMagic => 0
  | .hwHeader => 0
  | .encStart => 0
  | .encStep => 0
  | .encRun => 0
  | .dmStart => 0
  | .hrMagic => 0
  | .hrHeader => 0
  | .decStep => 0
  | .decRun => 0
  | .rdStatus => 0
  | .rdFreq _ => 0
  | .rdLen => 0
  | .rdRoot => 0
  | .rdNcount => 0
  | .rdNode _ => 0
  | .rdCodelen _ => 0
  | .rdCodebit _ b => b
  | .rdIpos => 0
  | .rdOutlen => 0
  | .rdCursor => 0

/-- The word of a command: RSV = 0, B, A and OP side by side (rule R71), that is OP + A·2^8 + B·2^18 (rule R72). -/
def encode (i : Instr) : Word := 0#6 ++ i.operandB ++ i.operandA ++ i.opcode

/-- The command that a row of spec/opcode_table.json gives, the row's `nbits` lowest bits being `w` and every bit
above them 0. -/
def decodeTableWord (nbits w : Nat) : Option Instr :=
  if nbits ≤ 32 then (decode (BitVec.ofNat 32 (w % 2 ^ nbits))).toOption else none

end Sys2Proof
end

