-- ==== Sys2Proof/Machine/State.lean ====
section
/-! DEFINITION. The state of HCORE as plain data (10_state.md), the three ports to the host (20_memory.md rule R50),
the reasons a step can stop, and the state after power-on (70_reset_and_hazards.md rules R230, R231). -/

namespace Sys2Proof.Machine

/-- PHASE (rule R22). The values 13 and 14, never taken, have no constructor (93_implementation_defined.md U17). -/
inductive Phase where
  | idle
  | counting
  | counted
  | built
  | coded
  | magicOut
  | headerOut
  | encoding
  | encDone
  | dmReady
  | dmMagicOk
  | decoding
  | decDone
  | error
deriving DecidableEq, Repr

/-- The errors a command can raise (rule R200, codes 1 to 7). -/
inductive Error where
  | invalidFormat
  | malformedHeader
  | malformedBody
  | capacityExceeded
  | noCode
  | sequence
  | illegalCommand
deriving DecidableEq, Repr

/-- One entry of the arena NODE (rule R27). -/
structure Node where
  leaf : Bool
  sym : Symbol
  left : Index
  right : Index
  weight : Weight
deriving DecidableEq, Repr

/-- The content of an unallocated entry: every field 0 (rules R27, R28). -/
def Node.zero : Node := ⟨false, 0, 0, 0, 0⟩

/-- What the host may do to HCORE (rule R234). -/
inductive HostMove where
  /-- Issue one command word on the command port (rule R52). -/
  | issue (word : BitVec 32)
  /-- Replace the whole content of IN (rule R68). -/
  | loadIn (bits : Bits)
  /-- Read OUT (rule R57). -/
  | readOut
  /-- Power-on, or the reset input asserted by the platform (rule R231). -/
  | powerOn
deriving DecidableEq, Repr

/-- What HCORE gave back for the host's latest move (rule R234). -/
inductive HostReply where
  /-- Nothing: no move yet, or a move that is given nothing back. -/
  | silent
  /-- The response to a command word (rule R73). -/
  | response (status : Status) (value : Value)
  /-- The bits of OUT (rule R57). -/
  | outBits (bits : Bits)
deriving DecidableEq, Repr

/-- HCORE between two commands. -/
structure State where
  /-- PHASE (rule R22). -/
  phase : Phase
  /-- ERRCODE (rule R24). -/
  errcode : Status
  /-- ERRCMD (rule R24). -/
  errcmd : Opcode
  /-- FREQ[0] .. FREQ[256] (rule R25). -/
  freq : RegFile Count Config.nsym
  /-- LEN (rule R26). -/
  len : Count
  /-- NODE[0] .. NODE[512] (rule R27). -/
  node : RegFile Node Config.nodeCap
  /-- NODE_COUNT (rule R28). -/
  nodeCount : Index
  /-- ROOT (rule R30). -/
  root : Index
  /-- ROOT_VALID (rule R30). -/
  rootValid : Bool
  /-- CODE_VALID[0] .. CODE_VALID[256] (rule R31). -/
  codeValid : RegFile Bool Config.nsym
  /-- CODE_LEN[0] .. CODE_LEN[256] (rule R31). -/
  codeLen : RegFile CodeLength Config.nsym
  /-- CODE_BITS[0] .. CODE_BITS[256] (rule R31). -/
  codeBits : RegFile CodeBits Config.nsym
  /-- CURSOR (rule R32). -/
  cursor : Index
  /-- IPOS (rule R33). -/
  ipos : Position
  /-- OUT (rule R35). -/
  out : Bits
  /-- IN (rule R36). -/
  input : Bits
  /-- The model's own: the moves the host has yet to make, the next one first (log entry 2). -/
  pending : List HostMove
  /-- The model's own: what the host's latest move got back (log entry 3). -/
  reply : HostReply
deriving DecidableEq, Repr

/-- The pseudocode of the command has no step to take or no end in this state. Every state from which this happens is
one no run reaches. All are stuck states and safe: the machine stops where the spec says nothing. -/
inductive Fault where
  /-- Raised by CT_GEN, HW_HEADER, HR_HEADER, DEC_STEP and DEC_RUN when they follow an index of 513 or more, which
  names no entry of NODE. Safe (log entry 4). -/
  | noSuchNode (i : Index)
  /-- Raised by CT_GEN and HW_HEADER when the links of the arena form a cycle, so that the descent has no end.
  Safe (log entry 4). -/
  | endlessDescent
  /-- Raised by FC_RUN, ENC_RUN, DEC_STEP and DEC_RUN past the bounds of rule R239, which only an IN longer than
  IN_MAX_BITS or a root leaf that is not the sentinel could pass. Safe (log entry 4). -/
  | endlessLoop
  /-- Raised by TB_BUILD when no symbol has a count, so that there is no node to be the root. Safe (log entry 4). -/
  | emptyQueue
deriving DecidableEq, Repr

/-- What HCORE gives no meaning to. -/
inductive Refusal where
  /-- Raised by exec for an instruction without a meaning; none is left. Safe. -/
  | notModelled (mnemonic : String)
  /-- Raised by the host's load of IN in a phase that is not between jobs, a move the host does not have (rule R68,
  93_implementation_defined.md U22). Unsafe (log entry 5): a host that breaks the duty has runs the model lacks. -/
  | loadDuringJob
  /-- Raised by the host's load of more than IN_MAX_BITS bits, a move the host does not have (rule R68). Unsafe
  (log entry 5). -/
  | loadTooLong
  /-- Raised by the host's read of OUT in a phase other than ENC_DONE and DEC_DONE, a move the host does not have (rule
  R57, 93_implementation_defined.md U21). Unsafe (log entry 5). -/
  | outNotReadable
deriving DecidableEq, Repr

/-- The state after power-on: every register at the value of rule R230, IN empty (rule R231). -/
def State.reset : State where
  phase := .idle
  errcode := 0
  errcmd := 0
  freq := .fill Config.nsym 0
  len := 0
  node := .fill Config.nodeCap Node.zero
  nodeCount := 0
  root := 0
  rootValid := false
  codeValid := .fill Config.nsym false
  codeLen := .fill Config.nsym 0
  codeBits := .fill Config.nsym 0
  cursor := 0
  ipos := 0
  out := []
  input := []
  pending := []
  reply := .silent

end Sys2Proof.Machine
end

