-- ==== Sys2Proof/Machine/Flags.lean ====
section
/-! DEFINITION. HCORE has no flags (10_state.md rule R37); what other designs put in flags is the status word (rule
R38) and the STATUS of a response (30_encoding.md rule R74). Here are their codes, the status word, and the table of the
phases in which each command is legal (rule R23). -/

namespace Sys2Proof.Machine

/-- The value of PHASE (rule R22). -/
def Phase.code : Phase → BitVec 4
  | .idle => 0
  | .counting => 1
  | .counted => 2
  | .built => 3
  | .coded => 4
  | .magicOut => 5
  | .headerOut => 6
  | .encoding => 7
  | .encDone => 8
  | .dmReady => 9
  | .dmMagicOk => 10
  | .decoding => 11
  | .decDone => 12
  | .error => 15

/-- The code of an error: the STATUS of the response and the value of ERRCODE (rule R200). -/
def Error.code : Error → Status
  | .invalidFormat => 1
  | .malformedHeader => 2
  | .malformedBody => 3
  | .capacityExceeded => 4
  | .noCode => 5
  | .sequence => 6
  | .illegalCommand => 7

/-- The STATUS of a command that ran to its end (rule R200, code 0). -/
def okStatus : Status := 0

/-- The STATUS of a command refused in phase ERROR, never written to ERRCODE (rule R200, code 8). -/
def haltedStatus : Status := 8

/-- The status word (rule R38): [3:0] PHASE, [7:4] ERRCODE, [15:8] ERRCMD, [16] ROOT_VALID, [63:17] 0. -/
def statusWord (s : State) : Value := 0#47 ++ BitVec.ofBool s.rootValid ++ s.errcmd ++ s.errcode ++ s.phase.code

/-- No job is in progress: the phases in which a job may be opened (rule R23, FC_START and DM_START). -/
def Phase.opensJob (p : Phase) : Bool := p = .idle ∨ p = .encDone ∨ p = .decDone

/-- NOP, RESET and the RD_* commands: the commands phase ERROR accepts (rule R203). -/
def runsInError : Instr → Bool
  | .nop => true
  | .reset => true
  | .fcStart => false
  | .fcStep => false
  | .fcRun => false
  | .tbBuild => false
  | .ctGen => false
  | .hwMagic => false
  | .hwHeader => false
  | .encStart => false
  | .encStep => false
  | .encRun => false
  | .dmStart => false
  | .hrMagic => false
  | .hrHeader => false
  | .decStep => false
  | .decRun => false
  | .rdStatus => true
  | .rdFreq _ => true
  | .rdLen => true
  | .rdRoot => true
  | .rdNcount => true
  | .rdNode _ => true
  | .rdCodelen _ => true
  | .rdCodebit _ _ => true
  | .rdIpos => true
  | .rdOutlen => true
  | .rdCursor => true

/-- The phases in which a command is legal (rule R23). -/
def legalIn : Instr → Phase → Bool
  | .nop, _ => true
  | .reset, _ => true
  | .fcStart, p => p.opensJob
  | .fcStep, p => p = .counting
  | .fcRun, p => p = .counting
  | .tbBuild, p => p = .counted
  | .ctGen, p => p = .built
  | .hwMagic, p => p = .coded
  | .hwHeader, p => p = .magicOut
  | .encStart, p => p = .headerOut
  | .encStep, p => p = .encoding
  | .encRun, p => p = .encoding
  | .dmStart, p => p.opensJob
  | .hrMagic, p => p = .dmReady
  | .hrHeader, p => p = .dmMagicOk
  | .decStep, p => p = .decoding
  | .decRun, p => p = .decoding
  | .rdStatus, _ => true
  | .rdFreq _, _ => true
  | .rdLen, _ => true
  | .rdRoot, _ => true
  | .rdNcount, _ => true
  | .rdNode _, _ => true
  | .rdCodelen _, _ => true
  | .rdCodebit _ _, _ => true
  | .rdIpos, _ => true
  | .rdOutlen, _ => true
  | .rdCursor, _ => true

end Sys2Proof.Machine
end

