-- ==== Sys2Proof/Machine/Operands.lean ====
section
/-! DEFINITION. The operands: the entries of the register files they name, and their legality in a state (30_encoding.md
rule R77 item 3). -/

namespace Sys2Proof.Machine

/-- FREQ[s] (rule R25). -/
def State.freqAt (s : State) (sym : Nat) : Count := s.freq.read 0 sym

/-- NODE[i] (rule R27). -/
def State.nodeAt (s : State) (i : Index) : Node := s.node.read Node.zero i.toNat

/-- CODE_VALID[s] (rule R31). -/
def State.codeValidAt (s : State) (sym : Nat) : Bool := s.codeValid.read false sym

/-- CODE_LEN[s] (rule R31). -/
def State.codeLenAt (s : State) (sym : Nat) : CodeLength := s.codeLen.read 0 sym

/-- CODE_BITS[s] (rule R31). -/
def State.codeBitsAt (s : State) (sym : Nat) : CodeBits := s.codeBits.read 0 sym

/-- The code of symbol `sym`: CODE_BITS[s][0], …, CODE_BITS[s][CODE_LEN[s] − 1] (rule R31). -/
def State.codeOf (s : State) (sym : Nat) : Bits :=
  (List.range (s.codeLenAt sym).toNat).map (s.codeBitsAt sym).getLsbD

/-- A and B satisfy the command's columns in rule R76 (rule R77 item 3). RD_NODE needs A < NODE_COUNT; RD_CODEBIT
needs A ≤ 256, CODE_VALID[A] = 1 and B < CODE_LEN[A]. -/
def operandsLegal : Instr → State → Bool
  | .nop, _ => true
  | .reset, _ => true
  | .fcStart, _ => true
  | .fcStep, _ => true
  | .fcRun, _ => true
  | .tbBuild, _ => true
  | .ctGen, _ => true
  | .hwMagic, _ => true
  | .hwHeader, _ => true
  | .encStart, _ => true
  | .encStep, _ => true
  | .encRun, _ => true
  | .dmStart, _ => true
  | .hrMagic, _ => true
  | .hrHeader, _ => true
  | .decStep, _ => true
  | .decRun, _ => true
  | .rdStatus, _ => true
  | .rdFreq a, _ => isSymbol a
  | .rdLen, _ => true
  | .rdRoot, _ => true
  | .rdNcount, _ => true
  | .rdNode a, s => a.toNat < s.nodeCount.toNat
  | .rdCodelen a, _ => isSymbol a
  | .rdCodebit a b, s => isSymbol a && s.codeValidAt a.toNat && b.toNat < (s.codeLenAt a.toNat).toNat
  | .rdIpos, _ => true
  | .rdOutlen, _ => true
  | .rdCursor, _ => true

end Sys2Proof.Machine
end

