-- ==== Sys2Proof/Machine/Ops.lean ====
section
/-! DEFINITION. The operations the commands share (00_scope.md rule R13): raise and the error entry (60_exceptions.md rules
R201 to R203), the port primitives (20_memory.md rules R53 to R56), the arena (10_state.md rules R29, R34), ResetState
(70_reset_and_hazards.md rule R230), and the frame every command runs in (rule R202). -/

namespace Sys2Proof.Machine

/-- Why a command's pseudocode ends before its last line. -/
inductive Stop where
  /-- `raise E` (rule R201). -/
  | raised (e : Error)
  /-- A stuck state. -/
  | stuck (f : Fault)
deriving DecidableEq, Repr

/-- A command's pseudocode: it runs to its end or to the first stop, and the writes it made before stand (rule R14). -/
abbrev Cmd (α : Type) := EStateM Stop State α

/-- `raise E`. -/
def raise {α : Type} (e : Error) : Cmd α := fun s => .error (.raised e) s

/-- The pseudocode has no next step or no end. -/
def stuck {α : Type} (f : Fault) : Cmd α := fun s => .error (.stuck f) s

/-- The state, to read registers of. -/
def getState : Cmd State := fun s => .ok s s

/-- `R <- v`. -/
def update (f : State → State) : Cmd Unit := fun s => .ok () (f s)

/-! ### Bits and numbers -/

/-- The low `n` bits of `v`, the most significant first (rule R54). -/
def bitsOfNat : Nat → Nat → Bits
  | 0, _ => []
  | n + 1, v => v.testBit n :: bitsOfNat n v

/-- The number whose bits, the most significant first, are `q` (rule R53). -/
def natOfBits : Bits → Nat
  | [] => 0
  | b :: q => b.toNat * 2 ^ q.length + natOfBits q

/-- The number whose bit `k` is `q[k]`: how CODE_BITS holds a code (rule R31). -/
def packCode : Bits → Nat
  | [] => 0
  | b :: q => b.toNat + 2 * packCode q

/-! ### The error entry -/

/-- The response (STATUS, VALUE) to the command (rule R73). -/
def respond (status : Status) (value : Value) (s : State) : State := { s with reply := .response status value }

/-- Taking an error (rule R201): the four register writes and the response. -/
def enterError (op : Opcode) (e : Error) (s : State) : State :=
  { s with phase := .error, errcode := e.code, errcmd := op, out := [], reply := .response e.code 0 }

/-- An illegal word (rules R78, R202): IllegalCommand, or in phase ERROR the refusal with STATUS 7. -/
def illegalWord (op : Opcode) (s : State) : State :=
  if s.phase = .error then respond Error.illegalCommand.code 0 s else enterError op .illegalCommand s

/-! ### Reset -/

/-- ClearArena() (rule R34). -/
def clearArena (s : State) : State :=
  { s with node := .fill Config.nodeCap Node.zero, nodeCount := 0, root := 0, rootValid := false }

/-- CODE_VALID, CODE_LEN and CODE_BITS, every entry 0 (rules R120, R230). -/
def clearCodes (s : State) : State :=
  { s with
    codeValid := .fill Config.nsym false
    codeLen := .fill Config.nsym 0
    codeBits := .fill Config.nsym 0 }

/-- ResetState() (rule R230): every register of 10_state.md, and not IN. -/
def resetState (s : State) : State :=
  let t := clearCodes (clearArena s)
  { t with
    phase := .idle
    errcode := 0
    errcmd := 0
    freq := .fill Config.nsym 0
    len := 0
    cursor := 0
    ipos := 0
    out := [] }

/-! ### The ports -/

/-- ReadBits(n) (rule R53); `none` is EOD. -/
def readBits (n : Nat) : Cmd (Option Nat) := fun s =>
  if s.ipos.toNat + n > s.input.length then
    .ok none { s with ipos := BitVec.ofNat 48 s.input.length }
  else
    .ok (some (natOfBits ((s.input.drop s.ipos.toNat).take n))) { s with ipos := s.ipos + BitVec.ofNat 48 n }

/-- Append bits to OUT. -/
def appendOut (q : Bits) : Cmd Unit := update fun s => { s with out := s.out ++ q }

/-- WriteBits(n, v) (rule R55). -/
def writeBits (n v : Nat) : Cmd Unit := appendOut (bitsOfNat n v)

/-- EmitCode(s) (rule R56). -/
def emitCode (sym : Nat) : Cmd Unit := update fun s => { s with out := s.out ++ s.codeOf sym }

/-! ### The arena -/

/-- A read of NODE[i] on the way down a trie. -/
def visitNode (i : Index) : Cmd Node := fun s =>
  if i.toNat < Config.nodeCap then .ok (s.nodeAt i) s else .error (.stuck (.noSuchNode i)) s

/-- Write NODE[i]. -/
def State.setNode (s : State) (i : Index) (n : Node) : State := { s with node := s.node.write i.toNat n }

/-- Write some fields of NODE[i] (the child-linking and leaf steps of HR_HEADER, rule R133). -/
def changeNode (i : Index) (f : Node → Node) : Cmd Unit := update fun s => s.setNode i (f (s.nodeAt i))

/-- Alloc(leaf, sym, left, right, weight) (rule R29). -/
def alloc (n : Node) : Cmd Index := fun s =>
  if s.nodeCount.toNat = Config.nodeCap then .error (.raised .capacityExceeded) s
  else .ok s.nodeCount { s.setNode s.nodeCount n with nodeCount := s.nodeCount + 1 }

/-! ### The loop of the run forms -/

/-- `while PHASE = p: s <- the VALUE of one step; if s ≠ 256: n <- n + 1` (rules R102, R142, R151), answering n. `fuel`
is the bound of rule R239 on the number of rounds. -/
def runWhile (p : Phase) (oneStep : Cmd Nat) : Nat → Nat → Cmd Nat
  | 0, n => do
    let s ← getState
    if s.phase = p then stuck .endlessLoop else pure n
  | fuel + 1, n => do
    let s ← getState
    if s.phase = p then
      let v ← oneStep
      runWhile p oneStep fuel (if v ≠ Config.sentinel then n + 1 else n)
    else pure n

/-- The bits of IN not read yet. -/
def State.unread (s : State) : Nat := s.input.length - s.ipos.toNat

/-! ### The frame of a command -/

/-- The end of a command whose pseudocode ran (rule R202 steps 4 and 5). -/
def conclude (op : Opcode) : EStateM.Result Stop State Value → Host.Outcome State Fault Refusal
  | .ok v s => .next (respond okStatus v s)
  | .error (.raised e) s => .next (enterError op e s)
  | .error (.stuck f) _ => .fault f

/-- A command from its legality checks to its response, in the order of rule R202; `body` is its pseudocode and answers
its VALUE. -/
def command (i : Instr) (body : Cmd Value) (s : State) : Host.Outcome State Fault Refusal :=
  if operandsLegal i s then
    if s.phase = .error then
      if runsInError i then conclude i.opcode (body s) else .next (respond haltedStatus 0 s)
    else
      if legalIn i s.phase then conclude i.opcode (body s) else .next (enterError i.opcode .sequence s)
  else .next (illegalWord i.opcode s)

end Sys2Proof.Machine
end

