-- ==== Sys2Proof/Machine/BodyDecoder.lean ====
section
/-! DEFINITION. The symbol-recovery decoder: DEC_STEP and DEC_RUN (45_body_decoder.md rules R150, R151). -/

namespace Sys2Proof.Machine

/-- `while NODE[CURSOR].LEAF = 0: …` (rule R150), answering the leaf reached. Every round reads one bit of IN or raises,
so the first argument, the unread bits and one more, never runs out. -/
def walk : Nat → Cmd Node
  | 0 => stuck .endlessLoop
  | fuel + 1 => do
    let s ← getState
    let nd ← visitNode s.cursor
    if nd.leaf then pure nd
    else
      match ← readBits 1 with
      | none => raise .malformedBody
      | some r =>
        update fun s => { s with cursor := if r = 0 then nd.left else nd.right }
        walk fuel

/-- The body of DEC_STEP (rule R150): the symbol reached. -/
def decStepBody : Cmd Nat := do
  let s ← getState
  let nd ← walk (s.unread + 1)
  if nd.sym.toNat = Config.sentinel then
    update fun s => { s with phase := .decDone }
    pure Config.sentinel
  else
    writeBits 8 nd.sym.toNat
    update fun s => { s with cursor := s.root }
    pure nd.sym.toNat

/-- DEC_RUN (rule R151). The bound has a round to spare over rule R151's, for a cursor that starts on a leaf. -/
def decRunBody : Cmd Value := do
  let s ← getState
  let n ← runWhile .decoding decStepBody (s.unread + 2) 0
  pure (BitVec.ofNat 64 n)

/-- DEC_STEP. -/
def execDecStep (s : State) : Host.Outcome State Fault Refusal :=
  command .decStep (do let v ← decStepBody; pure (BitVec.ofNat 64 v)) s

/-- DEC_RUN. -/
def execDecRun (s : State) : Host.Outcome State Fault Refusal := command .decRun decRunBody s

end Sys2Proof.Machine
end

