-- ==== Sys2Proof/Machine/BodyEncoder.lean ====
section
/-! DEFINITION. The symbol-to-bits encoder: ENC_START, ENC_STEP, ENC_RUN (44_body_encoder.md rules R140 to R142). -/

namespace Sys2Proof.Machine

/-- ENC_START (rule R140). -/
def encStartBody : Cmd Value := do
  update fun s => { s with ipos := 0, phase := .encoding }
  pure 0

/-- The body of ENC_STEP (rule R141): the byte encoded, or 256 when the terminator was written. -/
def encStepBody : Cmd Nat := do
  match ← readBits 8 with
  | none =>
    emitCode Config.sentinel
    update fun s => { s with phase := .encDone }
    pure Config.sentinel
  | some b =>
    let s ← getState
    if s.codeValidAt b then
      emitCode b
      pure b
    else raise .noCode

/-- ENC_RUN (rule R142). -/
def encRunBody : Cmd Value := do
  let s0 ← getState
  let _ ← runWhile .encoding encStepBody (s0.unread / 8 + 1) 0
  let s ← getState
  pure (BitVec.ofNat 64 (s.out.length - s0.out.length))

/-- ENC_START. -/
def execEncStart (s : State) : Host.Outcome State Fault Refusal := command .encStart encStartBody s

/-- ENC_STEP. -/
def execEncStep (s : State) : Host.Outcome State Fault Refusal :=
  command .encStep (do let v ← encStepBody; pure (BitVec.ofNat 64 v)) s

/-- ENC_RUN. -/
def execEncRun (s : State) : Host.Outcome State Fault Refusal := command .encRun encRunBody s

end Sys2Proof.Machine
end

