-- ==== Sys2Proof/Machine/CodeTable.lean ====
section
/-! DEFINITION. The code-table generator: CT_GEN (42_code_table.md rule R120). -/

namespace Sys2Proof.Machine

/-- CODE_VALID[s] <- 1, CODE_LEN[s] <- |q|, CODE_BITS[s] <- q (rule R120). -/
def State.setCode (s : State) (sym : Nat) (q : Bits) : State :=
  { s with
    codeValid := s.codeValid.write sym true
    codeLen := s.codeLen.write sym (BitVec.ofNat 9 q.length)
    codeBits := s.codeBits.write sym (BitVec.ofNat 256 (packCode q)) }

/-- Visit(i, q) (rule R120), answering n. The first argument bounds the depth: a descent of more than 513 nodes meets
one of them twice, and has no end. -/
def visit : Nat → Index → Bits → Nat → Cmd Nat
  | 0, _, _, _ => stuck .endlessDescent
  | depth + 1, i, q, n => do
    let nd ← visitNode i
    if nd.leaf then
      update fun s => s.setCode nd.sym.toNat q
      pure (n + 1)
    else
      let n ← visit depth nd.left (q ++ [false]) n
      visit depth nd.right (q ++ [true]) n

/-- CT_GEN (rule R120). -/
def ctGenBody : Cmd Value := do
  update clearCodes
  let s ← getState
  let n ← visit Config.nodeCap s.root [] 0
  update fun s => { s with phase := .coded }
  pure (BitVec.ofNat 64 n)

/-- CT_GEN. -/
def execCtGen (s : State) : Host.Outcome State Fault Refusal := command .ctGen ctGenBody s

end Sys2Proof.Machine
end

