-- ==== Sys2Proof/Machine/ControlReadback.lean ====
section
/-! DEFINITION. Control and readback: NOP, RESET and the RD_* commands (47_control_readback.md rules R170 to R185). -/

namespace Sys2Proof.Machine

/-- The common form of the RD_* commands (rule R172): VALUE is a register, and no state is written. -/
def readback (f : State → Value) : Cmd Value := do
  let s ← getState
  pure (f s)

/-- The value of RD_NODE (rule R180): [0] LEAF, [9:1] SYM, [19:10] LEFT, [29:20] RIGHT, [62:30] WEIGHT, [63] 0. -/
def nodeWord (n : Node) : Value := 0#1 ++ n.weight ++ n.right ++ n.left ++ n.sym ++ BitVec.ofBool n.leaf

/-- The value of RD_CODELEN (rule R181): CODE_LEN[s], and CODE_VALID[s] in bit 9. -/
def codeLenWord (len : CodeLength) (valid : Bool) : Value := 0#54 ++ BitVec.ofBool valid ++ len

/-- NOP (rule R170). -/
def execNop (s : State) : Host.Outcome State Fault Refusal := command .nop (pure 0) s

/-- RESET (rule R171). -/
def execReset (s : State) : Host.Outcome State Fault Refusal := command .reset (do update resetState; pure 0) s

/-- RD_STATUS (rule R173). -/
def execRdStatus (s : State) : Host.Outcome State Fault Refusal := command .rdStatus (readback statusWord) s

/-- RD_FREQ (rule R174). -/
def execRdFreq (a : OperandA) (s : State) : Host.Outcome State Fault Refusal :=
  command (.rdFreq a) (readback fun s => (s.freqAt a.toNat).setWidth 64) s

/-- RD_LEN (rule R175). -/
def execRdLen (s : State) : Host.Outcome State Fault Refusal := command .rdLen (readback fun s => s.len.setWidth 64) s

/-- RD_ROOT (rule R176). -/
def execRdRoot (s : State) : Host.Outcome State Fault Refusal :=
  command .rdRoot (readback fun s => s.root.setWidth 64) s

/-- RD_NCOUNT (rule R177). -/
def execRdNcount (s : State) : Host.Outcome State Fault Refusal :=
  command .rdNcount (readback fun s => s.nodeCount.setWidth 64) s

/-- RD_NODE (rule R180). -/
def execRdNode (a : OperandA) (s : State) : Host.Outcome State Fault Refusal :=
  command (.rdNode a) (readback fun s => nodeWord (s.nodeAt a)) s

/-- RD_CODELEN (rule R181). -/
def execRdCodelen (a : OperandA) (s : State) : Host.Outcome State Fault Refusal :=
  command (.rdCodelen a) (readback fun s => codeLenWord (s.codeLenAt a.toNat) (s.codeValidAt a.toNat)) s

/-- RD_CODEBIT (rule R182). -/
def execRdCodebit (a : OperandA) (b : OperandB) (s : State) : Host.Outcome State Fault Refusal :=
  command (.rdCodebit a b) (readback fun s => BitVec.ofNat 64 ((s.codeBitsAt a.toNat).getLsbD b.toNat).toNat) s

/-- RD_IPOS (rule R183). -/
def execRdIpos (s : State) : Host.Outcome State Fault Refusal :=
  command .rdIpos (readback fun s => s.ipos.setWidth 64) s

/-- RD_OUTLEN (rule R184). -/
def execRdOutlen (s : State) : Host.Outcome State Fault Refusal :=
  command .rdOutlen (readback fun s => BitVec.ofNat 64 s.out.length) s

/-- RD_CURSOR (rule R185). -/
def execRdCursor (s : State) : Host.Outcome State Fault Refusal :=
  command .rdCursor (readback fun s => s.cursor.setWidth 64) s

end Sys2Proof.Machine
end

