-- ==== Sys2Proof/Machine/FrequencyCounter.lean ====
section
/-! DEFINITION. The frequency counter: FC_START, FC_STEP, FC_RUN (40_frequency_counter.md rules R100 to R102). -/

namespace Sys2Proof.Machine

/-- FREQ[s] <- v. -/
def State.setFreq (s : State) (sym : Nat) (v : Count) : State := { s with freq := s.freq.write sym v }

/-- FC_START (rule R100). -/
def fcStartBody : Cmd Value := do
  update fun s => { resetState s with phase := .counting }
  pure 0

/-- The body of FC_STEP (rule R101): the byte counted, or 256 at the end of data. -/
def fcStepBody : Cmd Nat := do
  match ← readBits 8 with
  | none =>
    update fun s => { s.setFreq Config.sentinel 1 with phase := .counted }
    pure Config.sentinel
  | some b =>
    let s ← getState
    if s.len.toNat = Config.maxLen then raise .capacityExceeded
    else
      update fun s => { s.setFreq b (s.freqAt b + 1) with len := s.len + 1 }
      pure b

/-- FC_RUN (rule R102). -/
def fcRunBody : Cmd Value := do
  let s ← getState
  let n ← runWhile .counting fcStepBody (s.unread / 8 + 1) 0
  pure (BitVec.ofNat 64 n)

/-- FC_START. -/
def execFcStart (s : State) : Host.Outcome State Fault Refusal := command .fcStart fcStartBody s

/-- FC_STEP. -/
def execFcStep (s : State) : Host.Outcome State Fault Refusal :=
  command .fcStep (do let v ← fcStepBody; pure (BitVec.ofNat 64 v)) s

/-- FC_RUN. -/
def execFcRun (s : State) : Host.Outcome State Fault Refusal := command .fcRun fcRunBody s

end Sys2Proof.Machine
end

