-- ==== Sys2Proof/Machine/HeaderCodec.lean ====
section
/-! DEFINITION. The header codec: HW_HEADER and HR_HEADER (43_header_codec.md rules R130, R133). -/

namespace Sys2Proof.Machine

/-- Write(i) (rule R130). The first argument bounds the depth, as in Visit of Machine/CodeTable.lean. -/
def writeTrie : Nat → Index → Cmd Unit
  | 0, _ => stuck .endlessDescent
  | depth + 1, i => do
    let nd ← visitNode i
    if nd.leaf then
      writeBits 1 1
      writeBits 9 nd.sym.toNat
    else
      writeBits 1 0
      writeTrie depth nd.left
      writeTrie depth nd.right

/-- HW_HEADER (rule R130). -/
def hwHeaderBody : Cmd Value := do
  let s0 ← getState
  writeTrie Config.nodeCap s0.root
  update fun s => { s with phase := .headerOut }
  let s ← getState
  pure (BitVec.ofNat 64 (s.out.length - s0.out.length))

/-- Parse() (rule R133). Every level allocates a node before it goes deeper, so the level below NODE_CAP nodes ends in
CapacityExceeded; the first argument, NODE_CAP + 1 at the root, never runs out. -/
def parse : Nat → Cmd Index
  | 0 => stuck .endlessDescent
  | depth + 1 => do
    match ← readBits 1 with
    | none => raise .malformedHeader
    | some t =>
      let i ← alloc Node.zero
      if t = 1 then
        match ← readBits 9 with
        | none => raise .malformedHeader
        | some v =>
          if Config.sentinel < v then raise .malformedHeader
          else
            changeNode i fun n => { n with leaf := true, sym := BitVec.ofNat 9 v }
            pure i
      else
        let l ← parse depth
        changeNode i fun n => { n with left := l }
        let r ← parse depth
        changeNode i fun n => { n with right := r }
        pure i

/-- HR_HEADER (rule R133). -/
def hrHeaderBody : Cmd Value := do
  update clearArena
  let r ← parse (Config.nodeCap + 1)
  let nd ← visitNode r
  if nd.leaf ∧ nd.sym.toNat ≠ Config.sentinel then raise .malformedHeader
  else
    update fun s => { s with root := r, rootValid := true, cursor := r, phase := .decoding }
    let s ← getState
    pure (s.nodeCount.setWidth 64)

/-- HW_HEADER. -/
def execHwHeader (s : State) : Host.Outcome State Fault Refusal := command .hwHeader hwHeaderBody s

/-- HR_HEADER. -/
def execHrHeader (s : State) : Host.Outcome State Fault Refusal := command .hrHeader hrHeaderBody s

end Sys2Proof.Machine
end

