-- ==== Sys2Proof/Machine/Orchestration.lean ====
section
/-! DEFINITION. The magic field and the opening of a decompression job: HW_MAGIC, DM_START, HR_MAGIC
(46_orchestration.md rules R160 to R162), and the sequences COMPRESS and DECOMPRESS (rules R164, R165). -/

namespace Sys2Proof.Machine

/-- HW_MAGIC (rule R160), for the parameter MAGIC (rule R9). -/
def hwMagicBody (magic : BitVec 32) : Cmd Value := do
  writeBits 32 magic.toNat
  update fun s => { s with phase := .magicOut }
  pure (magic.setWidth 64)

/-- DM_START (rule R161). -/
def dmStartBody : Cmd Value := do
  update fun s => { resetState s with phase := .dmReady }
  pure 0

/-- HR_MAGIC (rule R162), for the parameter MAGIC (rule R9). -/
def hrMagicBody (magic : BitVec 32) : Cmd Value := do
  match ← readBits 32 with
  | none => raise .invalidFormat
  | some v =>
    if v ≠ magic.toNat then raise .invalidFormat
    else
      update fun s => { s with phase := .dmMagicOk }
      pure (BitVec.ofNat 64 v)

/-- HW_MAGIC, for the parameter MAGIC. -/
def execHwMagicWith (magic : BitVec 32) (s : State) : Host.Outcome State Fault Refusal :=
  command .hwMagic (hwMagicBody magic) s

/-- HW_MAGIC at the default of MAGIC. -/
def execHwMagic (s : State) : Host.Outcome State Fault Refusal := execHwMagicWith Config.magic s

/-- DM_START. -/
def execDmStart (s : State) : Host.Outcome State Fault Refusal := command .dmStart dmStartBody s

/-- HR_MAGIC, for the parameter MAGIC. -/
def execHrMagicWith (magic : BitVec 32) (s : State) : Host.Outcome State Fault Refusal :=
  command .hrMagic (hrMagicBody magic) s

/-- HR_MAGIC at the default of MAGIC. -/
def execHrMagic (s : State) : Host.Outcome State Fault Refusal := execHrMagicWith Config.magic s

/-- The commands of the pseudo-command COMPRESS (rule R164). -/
def compressCommands : List Instr :=
  [.fcStart, .fcRun, .tbBuild, .ctGen, .hwMagic, .hwHeader, .encStart, .encRun]

/-- The commands of the pseudo-command DECOMPRESS (rule R165). -/
def decompressCommands : List Instr := [.dmStart, .hrMagic, .hrHeader, .decRun]

end Sys2Proof.Machine
end

