-- ==== Sys2Proof/Machine/TrieBuilder.lean ====
section
/-! DEFINITION. The priority-queue trie builder: TB_BUILD (41_trie_builder.md rules R110, R111). -/

namespace Sys2Proof.Machine

/-- The pair (NODE[i].WEIGHT, i) is lexicographically less than the pair of `j` (rule R111). -/
def State.precedes (s : State) (i j : Index) : Bool :=
  (s.nodeAt i).weight.toNat < (s.nodeAt j).weight.toNat ∨
    (s.nodeAt i).weight.toNat = (s.nodeAt j).weight.toNat ∧ i.toNat < j.toNat

/-- The index of the least pair among `m` and the members of `q` (rule R111). -/
def State.leastOf (s : State) : Index → List Index → Index
  | m, [] => m
  | m, i :: q => s.leastOf (if s.precedes i m then i else m) q

/-- ExtractMin(Q) (rule R111): the index, and the queue without it. -/
def extractMin : List Index → Cmd (Index × List Index)
  | [] => stuck .emptyQueue
  | i :: q => do
    let s ← getState
    let m := s.leastOf i q
    pure (m, (i :: q).erase m)

/-- `for s in 0..256: if FREQ[s] > 0: Q <- Q ∪ {Alloc(1, s, 0, 0, FREQ[s])}` (rule R110), the counts of the symbols from
`sym` on being `counts`. -/
def allocLeaves : List Count → Nat → List Index → Cmd (List Index)
  | [], _, q => pure q
  | c :: counts, sym, q =>
    if 0 < c.toNat then do
      let i ← alloc ⟨true, BitVec.ofNat 9 sym, 0, 0, c.setWidth 33⟩
      allocLeaves counts (sym + 1) (q ++ [i])
    else allocLeaves counts (sym + 1) q

/-- `while |Q| > 1: …` and then the one element of Q (rule R110). The first argument is |Q|: a round takes two members
out and puts one in. -/
def mergeAll : Nat → List Index → Cmd Index
  | 0, _ => stuck .emptyQueue
  | _ + 1, [] => stuck .emptyQueue
  | _ + 1, [r] => pure r
  | k + 1, q => do
    let (x, q) ← extractMin q
    let (y, q) ← extractMin q
    let nx ← visitNode x
    let ny ← visitNode y
    let i ← alloc ⟨false, 0, x, y, nx.weight + ny.weight⟩
    mergeAll k (q ++ [i])

/-- TB_BUILD (rule R110). -/
def tbBuildBody : Cmd Value := do
  update clearArena
  let s ← getState
  let q ← allocLeaves s.freq.cells 0 []
  let r ← mergeAll q.length q
  update fun s => { s with root := r, rootValid := true, phase := .built }
  pure (r.setWidth 64)

/-- TB_BUILD. -/
def execTbBuild (s : State) : Host.Outcome State Fault Refusal := command .tbBuild tbBuildBody s

end Sys2Proof.Machine
end

