-- ==== Sys2Proof/Machine/Dispatch.lean ====
section
/-! DEFINITION. The meaning of each command: one arm per constructor of Instr, one direct call each. -/

namespace Sys2Proof.Machine

def exec (i : Instr) (s : State) : Host.Outcome State Fault Refusal :=
  match i with
  | .nop => Sys2Proof.Machine.execNop s
  | .reset => Sys2Proof.Machine.execReset s
  | .fcStart => Sys2Proof.Machine.execFcStart s
  | .fcStep => Sys2Proof.Machine.execFcStep s
  | .fcRun => Sys2Proof.Machine.execFcRun s
  | .tbBuild => Sys2Proof.Machine.execTbBuild s
  | .ctGen => Sys2Proof.Machine.execCtGen s
  | .hwMagic => Sys2Proof.Machine.execHwMagic s
  | .hwHeader => Sys2Proof.Machine.execHwHeader s
  | .encStart => Sys2Proof.Machine.execEncStart s
  | .encStep => Sys2Proof.Machine.execEncStep s
  | .encRun => Sys2Proof.Machine.execEncRun s
  | .dmStart => Sys2Proof.Machine.execDmStart s
  | .hrMagic => Sys2Proof.Machine.execHrMagic s
  | .hrHeader => Sys2Proof.Machine.execHrHeader s
  | .decStep => Sys2Proof.Machine.execDecStep s
  | .decRun => Sys2Proof.Machine.execDecRun s
  | .rdStatus => Sys2Proof.Machine.execRdStatus s
  | .rdFreq a => Sys2Proof.Machine.execRdFreq a s
  | .rdLen => Sys2Proof.Machine.execRdLen s
  | .rdRoot => Sys2Proof.Machine.execRdRoot s
  | .rdNcount => Sys2Proof.Machine.execRdNcount s
  | .rdNode a => Sys2Proof.Machine.execRdNode a s
  | .rdCodelen a => Sys2Proof.Machine.execRdCodelen a s
  | .rdCodebit a b => Sys2Proof.Machine.execRdCodebit a b s
  | .rdIpos => Sys2Proof.Machine.execRdIpos s
  | .rdOutlen => Sys2Proof.Machine.execRdOutlen s
  | .rdCursor => Sys2Proof.Machine.execRdCursor s

end Sys2Proof.Machine
end

