-- ==== Sys2Proof/Machine/HostPort.lean ====
section
/-! DEFINITION. What the host does beside issuing commands (70_reset_and_hazards.md rule R234): the load of IN
(20_memory.md rule R68), the read of OUT (rule R57), power-on (rule R231); and taking the host's next move and making it, for any execution of the commands. -/

namespace Sys2Proof.Machine

/-- The host's next move, and the state once it is taken; none while the host has none. -/
def takeMove (s : State) : Option (HostMove × State) :=
  match s.pending with
  | [] => none
  | m :: rest => some (m, { s with pending := rest })

/-- The phases between jobs, in which the host may load IN (rule R68). -/
def Phase.betweenJobs (p : Phase) : Bool := p = .idle ∨ p = .encDone ∨ p = .decDone ∨ p = .error

/-- The phases in which OUT holds a result (rule R57). -/
def Phase.resultReady (p : Phase) : Bool := p = .encDone ∨ p = .decDone

/-- The host replaces the content of IN; IPOS is not changed (rule R68). -/
def loadIn (q : Bits) (s : State) : Host.Outcome State Fault Refusal :=
  if s.phase.betweenJobs then
    if q.length ≤ Config.inMaxBits then .next { s with input := q, reply := .silent } else .refused .loadTooLong
  else .refused .loadDuringJob

/-- The host reads OUT, all of its bits (rules R57, R234). -/
def readOut (s : State) : Host.Outcome State Fault Refusal :=
  if s.phase.resultReady then .next { s with reply := .outBits s.out } else .refused .outNotReadable

/-- Power-on: ResetState() and IN emptied (rule R231). -/
def powerOn (s : State) : State := { resetState s with input := [], reply := .silent }

/-- Execute one command word (rules R52, R202), `run` executing the commands. -/
def executeWord (run : Instr → State → Host.Outcome State Fault Refusal) (w : BitVec 32) (s : State) :
    Host.Outcome State Fault Refusal :=
  match decode w with
  | .ok i => run i s
  | .error _ => .next (illegalWord (opField w) s)

/-- The effect of one move of the host (rule R234). -/
def makeMove (run : Instr → State → Host.Outcome State Fault Refusal) (m : HostMove) (s : State) :
    Host.Outcome State Fault Refusal :=
  match m with
  | .issue w => executeWord run w s
  | .loadIn q => loadIn q s
  | .readOut => readOut s
  | .powerOn => .next (powerOn s)

/-- Make the host's next move. While the host has none, HCORE is idle and keeps all its state (rule R213). -/
def stepBy (run : Instr → State → Host.Outcome State Fault Refusal) (s : State) : Host.Outcome State Fault Refusal :=
  match takeMove s with
  | none => .next s
  | some (m, s') => makeMove run m s'

/-- The host's next move is to issue the word `w` (rule R52). -/
def enqueueWord (w : BitVec 32) (s : State) : State := { s with pending := .issue w :: s.pending }

end Sys2Proof.Machine
end

