-- ==== Sys2Proof/Machine/Step.lean ====
section
/-! DEFINITION. One step: HCORE has no program counter and fetches nothing (10_state.md rule R21); the host makes its next
move, and a command word is executed whole (20_memory.md rule R52). -/

namespace Sys2Proof.Machine

/-- One step: the host's next move, at the default of MAGIC. -/
def step (s : State) : Host.Outcome State Fault Refusal := stepBy exec s

/-- The host issues next the word whose `nbits` lowest bits are `w` and whose other bits are 0. -/
def State.withFetchWord (s : State) (nbits w : Nat) : State := enqueueWord (BitVec.ofNat 32 (w % 2 ^ nbits)) s

end Sys2Proof.Machine
end

