-- ==== Sys2Proof/Machine/Magic.lean ====
section
/-! DEFINITION. The machine with the parameter MAGIC as an argument (00_scope.md rules R9, R19). Only HW_MAGIC and HR_MAGIC
look at MAGIC. exec, step and core, whose types the host fixes, are this machine at the default of MAGIC. -/

namespace Sys2Proof.Machine

/-- The meaning of each command of the HCORE whose magic constant is `magic`. -/
def execWith (magic : BitVec 32) (i : Instr) (s : State) : Host.Outcome State Fault Refusal :=
  match i with
  | .hwMagic => execHwMagicWith magic s
  | .hrMagic => execHrMagicWith magic s
  | .nop | .reset | .fcStart | .fcStep | .fcRun | .tbBuild | .ctGen | .hwHeader | .encStart | .encStep | .encRun
  | .dmStart | .hrHeader | .decStep | .decRun | .rdStatus | .rdFreq _ | .rdLen | .rdRoot | .rdNcount | .rdNode _
  | .rdCodelen _ | .rdCodebit _ _ | .rdIpos | .rdOutlen | .rdCursor => exec i s

/-- One step of the HCORE whose magic constant is `magic`. -/
def stepWith (magic : BitVec 32) (s : State) : Host.Outcome State Fault Refusal := stepBy (execWith magic) s

/-- The machine, which takes MAGIC as an argument with the default of rule R9. -/
def coreWith (magic : BitVec 32 := Config.magic) : Host.Core where
  State := State
  Fault := Fault
  Refusal := Refusal
  step := stepWith magic
  reset := State.reset

end Sys2Proof.Machine
end

