-- ==== Sys2Proof/Safety.lean ====
section
/-! DEFINITION. The terms claims use: what counts as a safe run and what is observed of a job (20_memory.md rule R69,
70_reset_and_hazards.md rule R240); the trie as a tree, its header and its codes (00_scope.md rule R16, 30_encoding.md rules
R81, R83); and what holds between commands (10_state.md rule R40). The machine does not use them. -/

namespace Sys2Proof.Machine

/-! ### Runs -/

/-- The outcome is a next state: no stuck state, and no move the host does not have. -/
def isNext : Host.Outcome State Fault Refusal → Bool
  | .next _ => true
  | .fault _ => false
  | .refused _ => false

/-- The next step is safe. -/
def State.stepSafe (s : State) : Bool := isNext (step s)

/-- The phases that end a job's run (rule R240). -/
def Phase.endsJob (p : Phase) : Bool := p = .encDone ∨ p = .decDone ∨ p = .error

/-- The observation of a job that has ended: its final phase and OUT (rule R69). -/
def State.observation (s : State) : Option (Phase × Bits) := if s.phase.endsJob then some (s.phase, s.out) else none

/-- The latest command was answered with STATUS 0. -/
def State.succeeded (s : State) : Bool :=
  match s.reply with
  | .response status _ => status = okStatus
  | .silent => false
  | .outBits _ => false

/-- The host issues the commands in order, `run` executing them, each after the previous response, and stops at the first
response with STATUS ≠ 0 (rules R164, R165). So the last response has STATUS 0 only if every one has. -/
def execAll (run : Instr → State → Host.Outcome State Fault Refusal) :
    List Instr → State → Host.Outcome State Fault Refusal
  | [], s => .next s
  | i :: rest, s =>
    match run i s with
    | .next t => if t.succeeded then execAll run rest t else .next t
    | .fault f => .fault f
    | .refused r => .refused r

/-- A step command again and again, at most `n` times, until PHASE leaves `p`. -/
def repeatStep (i : Instr) (p : Phase) : Nat → State → Host.Outcome State Fault Refusal
  | 0, s => .next s
  | n + 1, s =>
    match exec i s with
    | .next t => if t.phase = p then repeatStep i p n t else .next t
    | .fault f => .fault f
    | .refused r => .refused r

/-! ### Words -/

/-- Every word with opcode `op` whose bits above it, word[31:8], are `bad` is illegal: it raises IllegalCommand outside
phase ERROR, and in phase ERROR is refused with STATUS 7 and no state change (rules R78, R202). -/
def illegalWhen (op : Nat) (bad : State → Nat → Prop) : Prop :=
  ∀ (s : State) (w : Word) (rest : List HostMove), s.pending = .issue w :: rest → w.toNat % 2 ^ 8 = op →
    bad s (w.toNat / 2 ^ 8) →
    (s.phase ≠ .error →
      step s = .next { s with
        pending := rest, phase := .error, errcode := 7, errcmd := BitVec.ofNat 8 op, out := [],
        reply := .response 7 0 }) ∧
    (s.phase = .error → step s = .next { s with pending := rest, reply := .response 7 0 })

/-- What the rules of the commands without operands have in common: the word; that every other word with its opcode, one
with A, B or RSV ≠ 0, is illegal; and Sequence in every phase but the legal ones, ERROR apart (rule R202). -/
def plainCommand (i : Instr) (op : Nat) (legal : List Phase) : Prop :=
  (encode i).toNat = op ∧ illegalWhen op (fun _ fields => fields ≠ 0) ∧
  ∀ s : State, s.phase ≠ .error → s.phase ∉ legal →
    exec i s = .next { s with
      phase := .error, errcode := 6, errcmd := BitVec.ofNat 8 op, out := [], reply := .response 6 0 }

/-! ### Bits -/

/-- The bits of a value in the order they cross a port, v[n−1], …, v[0] (rule R54). -/
def msbFirst {n : Nat} (v : BitVec n) : Bits := (List.range n).map fun k => v.getLsbD (n - 1 - k)

/-! ### Tries -/

/-- A trie: "either a leaf (holds a symbol value) or an internal node (holds exactly two owned children, no symbol)"
(rule R16). -/
inductive Trie where
  | leaf (sym : Symbol)
  | node (left right : Trie)
deriving DecidableEq, Repr

namespace Trie

/-- The number of nodes. -/
def size : Trie → Nat
  | leaf _ => 1
  | node l r => 1 + l.size + r.size

/-- The number of edges on the longest path from the root. -/
def depth : Trie → Nat
  | leaf _ => 0
  | node l r => 1 + max l.depth r.depth

/-- The symbols of the leaves, from left to right. -/
def symbols : Trie → List Nat
  | leaf s => [s.toNat]
  | node l r => l.symbols ++ r.symbols

/-- Each leaf's symbol and its path from the root, 0 = left, 1 = right. -/
def codes : Trie → List (Nat × Bits)
  | leaf s => [(s.toNat, [])]
  | node l r => (l.codes.map fun c => (c.1, false :: c.2)) ++ (r.codes.map fun c => (c.1, true :: c.2))

/-- H(n) (rule R81). -/
def header : Trie → Bits
  | leaf s => true :: msbFirst s
  | node l r => false :: (l.header ++ r.header)

/-- A trie of one leaf has the sentinel as its symbol (rule R133, error 4). -/
def rootIsSentinelOrInternal : Trie → Bool
  | leaf s => s.toNat = Config.sentinel
  | node _ _ => true

/-- The entries of the arena that HR_HEADER allocates for the trie, in preorder from index `n` (rule R133). -/
def preorder : Nat → Trie → List Node
  | _, leaf s => [⟨true, s, 0, 0, 0⟩]
  | n, node l r =>
    ⟨false, 0, BitVec.ofNat 10 (n + 1), BitVec.ofNat 10 (n + 1 + l.size), 0⟩ ::
      (l.preorder (n + 1) ++ r.preorder (n + 1 + l.size))

end Trie

/-- The arena entry `i` is the root of the trie (rule R27). -/
def State.holds (s : State) : Trie → Index → Prop
  | .leaf sym, i => i.toNat < Config.nodeCap ∧ (s.nodeAt i).leaf = true ∧ (s.nodeAt i).sym = sym
  | .node l r, i =>
    i.toNat < Config.nodeCap ∧ (s.nodeAt i).leaf = false ∧
      s.holds l (s.nodeAt i).left ∧ s.holds r (s.nodeAt i).right

/-- The entry reached from entry `i` along a bit path, 0 = left, 1 = right (rule R121 item 3). -/
def State.follow (s : State) : Index → Bits → Index
  | i, [] => i
  | i, b :: q => s.follow (if b then (s.nodeAt i).right else (s.nodeAt i).left) q

/-- In the trie at entry `i` a leaf's WEIGHT is its symbol's count and an internal node's WEIGHT the sum of its
children's (rule R40 item 2). -/
def State.weighs (s : State) : Trie → Index → Prop
  | .leaf sym, i => (s.nodeAt i).weight.toNat = (s.freqAt sym.toNat).toNat
  | .node l r, i =>
    (s.nodeAt i).weight.toNat =
        (s.nodeAt (s.nodeAt i).left).weight.toNat + (s.nodeAt (s.nodeAt i).right).weight.toNat ∧
      s.weighs l (s.nodeAt i).left ∧ s.weighs r (s.nodeAt i).right

/-- Entry `i` is in the priority queue of TB_BUILD when entry `j` is allocated: it is allocated, and no merge before `j`
has taken it out (rules R110, R111). -/
def State.inQueueAt (s : State) (j i : Nat) : Prop :=
  i < j ∧ ∀ m < j, (s.node.read Node.zero m).leaf = false →
    (s.node.read Node.zero m).left.toNat ≠ i ∧ (s.node.read Node.zero m).right.toNat ≠ i

/-- The pair (NODE[i].WEIGHT, i) is lexicographically at most that of `k` (rule R111). -/
def State.atMost (s : State) (i k : Nat) : Prop :=
  (s.node.read Node.zero i).weight.toNat < (s.node.read Node.zero k).weight.toNat ∨
    (s.node.read Node.zero i).weight.toNat = (s.node.read Node.zero k).weight.toNat ∧ i ≤ k

/-- Entry `j` is the internal node of a merge of rule R110: LEFT is the least entry of the queue, RIGHT the least of the
others, WEIGHT the sum of their weights. -/
def State.mergesLeastTwo (s : State) (j : Nat) : Prop :=
  ∃ l r : Index,
    s.node.read Node.zero j = ⟨false, 0, l, r,
      (s.node.read Node.zero l.toNat).weight + (s.node.read Node.zero r.toNat).weight⟩ ∧
    s.inQueueAt j l.toNat ∧ (∀ i, s.inQueueAt j i → s.atMost l.toNat i) ∧
    s.inQueueAt j r.toNat ∧ l ≠ r ∧ ∀ i, s.inQueueAt j i → i ≠ l.toNat → s.atMost r.toNat i

/-! ### Counts -/

/-- The symbols with FREQ[s] > 0, ascending (rule R110). -/
def State.usedSymbols (s : State) : List Nat := (List.range Config.nsym).filter fun sym => 0 < (s.freqAt sym).toNat

/-- FREQ[0] + … + FREQ[255] (rule R40 item 1). -/
def State.byteTotal (s : State) : Nat := ((List.range 256).map fun b => (s.freqAt b).toNat).sum

/-! ### What holds between commands -/

/-- COUNTED to ENC_DONE. -/
def Phase.hasCounts (p : Phase) : Bool :=
  p = .counted ∨ p = .built ∨ p = .coded ∨ p = .magicOut ∨ p = .headerOut ∨ p = .encoding ∨ p = .encDone

/-- BUILT to ENC_DONE. -/
def Phase.hasBuiltTrie (p : Phase) : Bool :=
  p = .built ∨ p = .coded ∨ p = .magicOut ∨ p = .headerOut ∨ p = .encoding ∨ p = .encDone

/-- CODED to ENC_DONE. -/
def Phase.hasCodes (p : Phase) : Bool :=
  p = .coded ∨ p = .magicOut ∨ p = .headerOut ∨ p = .encoding ∨ p = .encDone

/-- DECODING and DEC_DONE. -/
def Phase.hasParsedTrie (p : Phase) : Bool := p = .decoding ∨ p = .decDone

/-- The phases in which a command may have written OUT since the last time it was emptied (rules R35, R201, R230). -/
def Phase.mayHaveOutput (p : Phase) : Bool :=
  p = .magicOut ∨ p = .headerOut ∨ p = .encoding ∨ p = .encDone ∨ p = .decoding ∨ p = .decDone

/-- The control registers agree with PHASE: ERRCODE is a code of rule R200, 0 exactly outside phase ERROR, with ERRCMD 0
there (rule R24); ROOT_VALID as rule R40 item 5 says; OUT is empty in the phases that have written nothing. -/
structure State.ControlInv (s : State) : Prop where
  errcode_le : s.errcode.toNat ≤ 7
  error_iff : s.phase = .error ↔ s.errcode ≠ 0
  errcmd_zero : s.phase ≠ .error → s.errcmd = 0
  rootValid_iff : s.phase ≠ .error → (s.rootValid = true ↔ s.phase.hasBuiltTrie = true ∨ s.phase.hasParsedTrie = true)
  out_empty : s.phase.mayHaveOutput = false → s.out = []

/-- The arena: NODE_COUNT is at most NODE_CAP, and an unallocated entry is 0 (rule R28). -/
structure State.ArenaInv (s : State) : Prop where
  count_le : s.nodeCount.toNat ≤ Config.nodeCap
  unallocated : ∀ i : Index, s.nodeCount.toNat ≤ i.toNat → s.nodeAt i = Node.zero

/-- The counts: rule R40 item 1, and what the counting pass keeps until it ends. -/
structure State.CountInv (s : State) : Prop where
  counting : s.phase = .counting → (s.freqAt 256).toNat = 0 ∧ s.byteTotal = s.len.toNat
  counted : s.phase.hasCounts = true → (s.freqAt 256).toNat = 1 ∧ s.byteTotal = s.len.toNat

/-- The tries: rule R40 items 2 and 4, and the root of a parsed trie (rule R133). -/
structure State.TrieInv (s : State) : Prop where
  input_le : s.input.length ≤ Config.inMaxBits
  built : s.phase.hasBuiltTrie = true → ∃ t : Trie, s.holds t s.root ∧ t.symbols.Perm s.usedSymbols ∧ s.weighs t s.root ∧
    (s.nodeAt s.root).weight.toNat = s.len.toNat + 1
  parsed : s.phase = .decoding → s.cursor = s.root ∧
    ∃ t : Trie, s.holds t s.root ∧ t.rootIsSentinelOrInternal = true ∧ ∀ sym ∈ t.symbols, sym ≤ Config.sentinel

/-- The code table: rule R40 item 3, and the bits above a code's length (rule R31). -/
structure State.CodeInv (s : State) : Prop where
  valid_iff : s.phase.hasCodes = true → ∀ sym ≤ Config.sentinel, (s.codeValidAt sym = true ↔ 0 < (s.freqAt sym).toNat)
  prefix_free : s.phase.hasCodes = true → ∀ a ≤ Config.sentinel, ∀ b ≤ Config.sentinel, a ≠ b →
    s.codeValidAt a = true → s.codeValidAt b = true → ¬ s.codeOf a <+: s.codeOf b
  bits_above : ∀ sym k, (s.codeLenAt sym).toNat ≤ k → (s.codeBitsAt sym).getLsbD k = false

/-- What holds between commands (rule R40, with rules R24, R28 and R31). -/
structure State.Inv (s : State) : Prop where
  control : s.ControlInv
  arena : s.ArenaInv
  count : s.CountInv
  trie : s.TrieInv
  code : s.CodeInv

end Sys2Proof.Machine
end

