-- ==== Sys2Proof/Certificates/Slice0/Obligations.lean ====
section
/-! DEFINITION. The statements for the provers. -/

open Sys2Proof Sys2Proof.Machine

/-! ### Words and steps -/

/-- Words written out from the fields of rule R71 and the opcode map of rule R76 decode to their commands, and words that
break an item of rule R77 do not. -/
def Obligations.WrittenWordsDecode : Prop :=
  decode 0b000000_00000000_0000000000_00000000#32 = .ok .nop ∧
  decode 0b000000_00000000_0000000000_00010010#32 = .ok .fcRun ∧
  decode 0b000000_00000000_0000000000_00100000#32 = .ok .tbBuild ∧
  decode 0b000000_00000000_0000000000_01100010#32 = .ok .hrHeader ∧
  decode 0b000000_00000000_0100000000_10000001#32 = .ok (.rdFreq 256) ∧
  decode 0b000000_00000000_0000000100_10000101#32 = .ok (.rdNode 4) ∧
  decode 0b000000_00000001_0001100001_10000111#32 = .ok (.rdCodebit 97 1) ∧
  decode 0b000000_00000000_0000000000_00010011#32 = .error (.unassignedOpcode 0x13) ∧
  decode 0b000001_00000000_0000000000_00000000#32 = .error (.reservedBits 1) ∧
  decode 0b000000_00000000_0000000001_00000000#32 = .error .operandNotZero ∧
  decode 0b000000_00000000_0100000001_10000001#32 = .error (.symbolOutOfRange 257)

/-- The word of a command is OP + A·2^8 + B·2^18 (rule R72). -/
def Obligations.WordsAreAssembledByRule72 : Prop :=
  (∀ (a : OperandA) (b : OperandB), (encode (.rdCodebit a b)).toNat = 0x87 + a.toNat * 2 ^ 8 + b.toNat * 2 ^ 18) ∧
  (∀ a : OperandA, (encode (.rdFreq a)).toNat = 0x81 + a.toNat * 2 ^ 8) ∧
  (∀ a : OperandA, (encode (.rdNode a)).toNat = 0x85 + a.toNat * 2 ^ 8) ∧
  (∀ a : OperandA, (encode (.rdCodelen a)).toNat = 0x86 + a.toNat * 2 ^ 8) ∧
  ([Instr.nop, .reset, .fcStart, .fcStep, .fcRun, .tbBuild, .ctGen, .hwMagic, .hwHeader, .encStart, .encStep, .encRun,
      .dmStart, .hrMagic, .hrHeader, .decStep, .decRun, .rdStatus, .rdLen, .rdRoot, .rdNcount, .rdIpos, .rdOutlen,
      .rdCursor].map fun i => (encode i).toNat) =
    [0x00, 0x01, 0x10, 0x11, 0x12, 0x20, 0x30, 0x40, 0x41, 0x50, 0x51, 0x52, 0x60, 0x61, 0x62, 0x70, 0x71, 0x80, 0x82,
      0x83, 0x84, 0x88, 0x89, 0x8A]

/-- A step in which the host issues a word that decodes to a command is that command's exec, the word taken from the
moves the host has yet to make (rule R52). -/
def Obligations.StepExecutesIssuedCommand : Prop :=
  ∀ (s : State) (w : Word) (rest : List HostMove) (i : Instr),
    s.pending = .issue w :: rest → decode w = .ok i → step s = exec i { s with pending := rest }

/-- Decoding and encoding agree: a well-formed command is read back from its word with every operand, and a word that
decodes at all is the word of its command, which is well-formed (rules R71, R72, R76). -/
def Obligations.DecodeEncodeAgree : Prop :=
  (∀ i : Instr, i.wellFormed = true → decode (encode i) = .ok i) ∧
  ∀ (w : Word) (i : Instr), decode w = .ok i → encode i = w ∧ i.wellFormed = true

/-- Rule R77, in numbers. -/
def legalWordOfRule77 (w : Word) (s : State) : Prop :=
  w.toNat % 2 ^ 8 ∈ [0x00, 0x01, 0x10, 0x11, 0x12, 0x20, 0x30, 0x40, 0x41, 0x50, 0x51, 0x52, 0x60, 0x61, 0x62, 0x70,
    0x71, 0x80, 0x81, 0x82, 0x83, 0x84, 0x85, 0x86, 0x87, 0x88, 0x89, 0x8A] ∧
  w.toNat / 2 ^ 26 = 0 ∧
  (if w.toNat % 2 ^ 8 = 0x81 ∨ w.toNat % 2 ^ 8 = 0x86 then
    w.toNat / 2 ^ 8 % 2 ^ 10 ≤ 256 ∧ w.toNat / 2 ^ 18 % 2 ^ 8 = 0
  else if w.toNat % 2 ^ 8 = 0x85 then
    w.toNat / 2 ^ 8 % 2 ^ 10 < s.nodeCount.toNat ∧ w.toNat / 2 ^ 18 % 2 ^ 8 = 0
  else if w.toNat % 2 ^ 8 = 0x87 then
    w.toNat / 2 ^ 8 % 2 ^ 10 ≤ 256 ∧ s.codeValidAt (w.toNat / 2 ^ 8 % 2 ^ 10) = true ∧
      w.toNat / 2 ^ 18 % 2 ^ 8 < (s.codeLenAt (w.toNat / 2 ^ 8 % 2 ^ 10)).toNat
  else w.toNat / 2 ^ 8 % 2 ^ 10 = 0 ∧ w.toNat / 2 ^ 18 % 2 ^ 8 = 0)

/-- A word that rule R77 finds illegal raises IllegalCommand outside phase ERROR, and in phase ERROR is refused with
STATUS 7 and no state change (rules R77, R78). A word that rule R77 finds legal is a command with legal operands. -/
def Obligations.IllegalWordsAreRefused : Prop :=
  ∀ (s : State) (w : Word) (rest : List HostMove), s.pending = .issue w :: rest →
    (¬ legalWordOfRule77 w s → s.phase ≠ .error →
      step s = .next { s with
        pending := rest, phase := .error, errcode := 7, errcmd := BitVec.ofNat 8 (w.toNat % 2 ^ 8), out := [],
        reply := .response 7 0 }) ∧
    (¬ legalWordOfRule77 w s → s.phase = .error →
      step s = .next { s with pending := rest, reply := .response 7 0 }) ∧
    (legalWordOfRule77 w s → ∃ i, decode w = .ok i ∧ operandsLegal i s = true)

/-! ### Errors -/

/-- The phases in which each command is legal: the second column of the table of rule R23. -/
def legalPhasesOfRule23 : Instr → List Phase
  | .fcStart => [.idle, .encDone, .decDone]
  | .fcStep => [.counting]
  | .fcRun => [.counting]
  | .tbBuild => [.counted]
  | .ctGen => [.built]
  | .hwMagic => [.coded]
  | .hwHeader => [.magicOut]
  | .encStart => [.headerOut]
  | .encStep => [.encoding]
  | .encRun => [.encoding]
  | .dmStart => [.idle, .encDone, .decDone]
  | .hrMagic => [.dmReady]
  | .hrHeader => [.dmMagicOk]
  | .decStep => [.decoding]
  | .decRun => [.decoding]
  | _ => [.idle, .counting, .counted, .built, .coded, .magicOut, .headerOut, .encoding, .encDone, .dmReady, .dmMagicOk,
      .decoding, .decDone, .error]

/-- The phases each command can leave on success, from phase `p`: the third column of the table of rule R23. -/
def successPhasesOfRule23 (p : Phase) : Instr → List Phase
  | .reset => [.idle]
  | .fcStart => [.counting]
  | .fcStep => [.counting, .counted]
  | .fcRun => [.counted]
  | .tbBuild => [.built]
  | .ctGen => [.coded]
  | .hwMagic => [.magicOut]
  | .hwHeader => [.headerOut]
  | .encStart => [.encoding]
  | .encStep => [.encoding, .encDone]
  | .encRun => [.encDone]
  | .dmStart => [.dmReady]
  | .hrMagic => [.dmMagicOk]
  | .hrHeader => [.decoding]
  | .decStep => [.decoding, .decDone]
  | .decRun => [.decDone]
  | _ => [p]

/-- A command issued outside its legal phases raises Sequence, with the error entry's four writes and nothing else
(rules R23, R200, R201, R202). -/
def Obligations.OutOfPhaseRaisesSequence : Prop :=
  ∀ (i : Instr) (s : State), operandsLegal i s = true → s.phase ≠ .error → s.phase ∉ legalPhasesOfRule23 i →
    exec i s = .next { s with
      phase := .error, errcode := 6, errcmd := i.opcode, out := [], reply := .response 6 0 }

/-- A command that answers STATUS 0 was in one of its legal phases and leaves a phase of its third column (rule R23). -/
def Obligations.SuccessFollowsThePhaseTable : Prop :=
  ∀ (i : Instr) (s t : State) (v : Value), exec i s = .next t → t.reply = .response 0 v →
    s.phase ∈ legalPhasesOfRule23 i ∧ t.phase ∈ successPhasesOfRule23 s.phase i

/-- While PHASE = ERROR, HCORE accepts only NOP, RESET and the RD_* commands: it answers every other legal word with
(8, 0) and every illegal word with (7, 0), and changes no state in either case (rule R203). -/
def Obligations.ErrorPhaseHaltsJobCommands : Prop :=
  (∀ (i : Instr) (s : State), s.phase = .error →
    i ∈ [.fcStart, .fcStep, .fcRun, .tbBuild, .ctGen, .hwMagic, .hwHeader, .encStart, .encStep, .encRun, .dmStart,
      .hrMagic, .hrHeader, .decStep, .decRun] →
    exec i s = .next { s with reply := .response 8 0 }) ∧
  ∀ (s : State) (w : Word) (rest : List HostMove), s.pending = .issue w :: rest → s.phase = .error →
    (¬ legalWordOfRule77 w s → step s = .next { s with pending := rest, reply := .response 7 0 }) ∧
    (legalWordOfRule77 w s → ¬ (w.toNat % 2 ^ 8 ≤ 1 ∨ 0x80 ≤ w.toNat % 2 ^ 8) →
      step s = .next { s with pending := rest, reply := .response 8 0 }) ∧
    (legalWordOfRule77 w s → (w.toNat % 2 ^ 8 ≤ 1 ∨ 0x80 ≤ w.toNat % 2 ^ 8) →
      ∃ t v, step s = .next t ∧ t.reply = .response 0 v)

/-- The error entry: a command that goes into phase ERROR leaves ERRCODE one of the codes 1 to 7, ERRCMD its own opcode
and OUT empty, and answers (ERRCODE, 0) (rules R200, R201). -/
def Obligations.ErrorEntryRecordsTheError : Prop :=
  ∀ (i : Instr) (s t : State), exec i s = .next t → s.phase ≠ .error → t.phase = .error →
    1 ≤ t.errcode.toNat ∧ t.errcode.toNat ≤ 7 ∧ t.errcmd = i.opcode ∧ t.out = [] ∧
      t.reply = .response t.errcode 0

/-- STATUS is the command's outcome (rule R74): outside phase ERROR it is 0 exactly when PHASE is not ERROR afterwards,
and otherwise ERRCODE; in phase ERROR it is 0, 7 or 8. VALUE is 0 with any STATUS but 0 (rule R73). -/
def Obligations.StatusIsTheOutcome : Prop :=
  ∀ (i : Instr) (s t : State), exec i s = .next t →
    ∃ (st : Status) (v : Value), t.reply = .response st v ∧ (st ≠ 0 → v = 0) ∧
      (s.phase ≠ .error → (st = 0 ↔ t.phase ≠ .error) ∧ (st ≠ 0 → st = t.errcode)) ∧
      (s.phase = .error → st = 0 ∨ st = 7 ∨ st = 8)

/-- The only way out of phase ERROR is the word of RESET, or the platform's power-on, and it returns to IDLE with
ERRCODE = 0 (rules R204, R231). -/
def Obligations.OnlyResetOrPowerOnLeavesError : Prop :=
  ∀ s t : State, s.phase = .error → step s = .next t → t.phase ≠ .error →
    t.phase = .idle ∧ t.errcode = 0 ∧ ∃ rest, s.pending = .issue 1 :: rest ∨ s.pending = .powerOn :: rest

/-- No command writes IN (rules R36, R51), or takes or adds a move of the host. -/
def Obligations.CommandsKeepInput : Prop :=
  ∀ (i : Instr) (s t : State), exec i s = .next t → t.input = s.input ∧ t.pending = s.pending

/-! ### Control and readback -/

/-- NOP answers (0, 0) in every state and changes nothing; its opcode with A, B or RSV ≠ 0 is illegal (rule R170). -/
def Obligations.NopChangesNothing : Prop :=
  encode .nop = 0x00000000 ∧ illegalWhen 0x00 (fun _ fields => fields ≠ 0) ∧
  ∀ s : State, exec .nop s = .next { s with reply := .response 0 0 }

/-- RESET, in every phase, sets every register to its power-on value and keeps IN; its opcode with A, B or RSV ≠ 0 is
illegal and does not reset (rules R171, R230). -/
def Obligations.ResetKeepsOnlyInput : Prop :=
  encode .reset = 0x00000001 ∧ illegalWhen 0x01 (fun _ fields => fields ≠ 0) ∧
  ∀ s : State, exec .reset s =
    .next { State.reset with input := s.input, pending := s.pending, reply := .response 0 0 }

/-- The register values after power-on, every entry of every register file among them; power-on answers nothing (rules
R230, R231). -/
def Obligations.PowerOnValues : Prop :=
  ∀ (s : State) (rest : List HostMove), s.pending = .powerOn :: rest →
    ∃ t, step s = .next t ∧ t.phase = .idle ∧ t.errcode = 0 ∧ t.errcmd = 0 ∧ (∀ sym, t.freqAt sym = 0) ∧ t.len = 0 ∧
      (∀ i, t.nodeAt i = ⟨false, 0, 0, 0, 0⟩) ∧ t.nodeCount = 0 ∧ t.root = 0 ∧ t.rootValid = false ∧
      (∀ sym, t.codeValidAt sym = false ∧ t.codeLenAt sym = 0 ∧ t.codeBitsAt sym = 0) ∧
      t.cursor = 0 ∧ t.ipos = 0 ∧ t.out = [] ∧ t.input = [] ∧ t.pending = rest ∧ t.reply = .silent ∧ statusWord t = 0

/-- RD_STATUS answers the status word, PHASE + ERRCODE·2^4 + ERRCMD·2^8 + ROOT_VALID·2^16 (rules R38, R173), in every
phase, and changes nothing. -/
def Obligations.RdStatusReadsTheStatusWord : Prop :=
  encode .rdStatus = 0x00000080 ∧ illegalWhen 0x80 (fun _ fields => fields ≠ 0) ∧
  ∀ s : State, ∃ v : Value, exec .rdStatus s = .next { s with reply := .response 0 v } ∧
    v.toNat =
      s.phase.code.toNat + s.errcode.toNat * 2 ^ 4 + s.errcmd.toNat * 2 ^ 8 + (if s.rootValid then 2 ^ 16 else 0)

/-- RD_LEN, RD_ROOT, RD_NCOUNT, RD_IPOS and RD_CURSOR answer their register, zero-extended, and RD_OUTLEN the length of
OUT, in every phase, and change nothing (rules R172, R175, R176, R177, R183, R184, R185). OUT holds fewer than 2^56 bits
(rule R35). -/
def Obligations.RegisterReadbacks : Prop :=
  encode .rdLen = 0x00000082 ∧ encode .rdRoot = 0x00000083 ∧ encode .rdNcount = 0x00000084 ∧
  encode .rdIpos = 0x00000088 ∧ encode .rdOutlen = 0x00000089 ∧ encode .rdCursor = 0x0000008A ∧
  (∀ op ∈ [0x82, 0x83, 0x84, 0x88, 0x89, 0x8A], illegalWhen op fun _ fields => fields ≠ 0) ∧
  ∀ s : State,
    (∃ v : Value, exec .rdLen s = .next { s with reply := .response 0 v } ∧ v.toNat = s.len.toNat) ∧
    (∃ v : Value, exec .rdRoot s = .next { s with reply := .response 0 v } ∧ v.toNat = s.root.toNat) ∧
    (∃ v : Value, exec .rdNcount s = .next { s with reply := .response 0 v } ∧ v.toNat = s.nodeCount.toNat) ∧
    (∃ v : Value, exec .rdIpos s = .next { s with reply := .response 0 v } ∧ v.toNat = s.ipos.toNat) ∧
    (∃ v : Value, exec .rdCursor s = .next { s with reply := .response 0 v } ∧ v.toNat = s.cursor.toNat) ∧
    (s.out.length ≤ Config.outMaxBits →
      ∃ v : Value, exec .rdOutlen s = .next { s with reply := .response 0 v } ∧ v.toNat = s.out.length)

/-- The answer to a word with an operand out of range: the error entry with IllegalCommand, or in phase ERROR STATUS 7 and
no state change (rules R77, R172). -/
def answersIllegal (i : Instr) (s : State) : Prop :=
  (s.phase ≠ .error → exec i s = .next { s with
    phase := .error, errcode := 7, errcmd := i.opcode, out := [], reply := .response 7 0 }) ∧
  (s.phase = .error → exec i s = .next { s with reply := .response 7 0 })

/-- RD_FREQ answers FREQ[s] for a symbol 0..256 in every phase, and is illegal for any other operand and with B or
RSV ≠ 0 (rules R172, R174). -/
def Obligations.RdFreqReadsOneSlot : Prop :=
  (∀ a : OperandA, (encode (.rdFreq a)).toNat = 0x81 + a.toNat * 2 ^ 8) ∧
  illegalWhen 0x81 (fun _ fields => 256 < fields % 2 ^ 10 ∨ fields / 2 ^ 10 ≠ 0) ∧
  ∀ (s : State) (a : OperandA),
    (a.toNat ≤ 256 → ∃ v : Value, exec (.rdFreq a) s = .next { s with reply := .response 0 v } ∧
      v.toNat = (s.freqAt a.toNat).toNat) ∧
    (256 < a.toNat → answersIllegal (.rdFreq a) s)

/-- RD_NODE answers LEAF + SYM·2^1 + LEFT·2^10 + RIGHT·2^20 + WEIGHT·2^30 of an allocated entry in every phase, and is
illegal for an unallocated one and with B or RSV ≠ 0 (rules R28, R172, R180). -/
def Obligations.RdNodeReadsAllocatedEntries : Prop :=
  (∀ a : OperandA, (encode (.rdNode a)).toNat = 0x85 + a.toNat * 2 ^ 8) ∧
  illegalWhen 0x85 (fun s fields => s.nodeCount.toNat ≤ fields % 2 ^ 10 ∨ fields / 2 ^ 10 ≠ 0) ∧
  ∀ (s : State) (a : OperandA),
    (a.toNat < s.nodeCount.toNat → ∃ v : Value, exec (.rdNode a) s = .next { s with reply := .response 0 v } ∧
      v.toNat = (if (s.nodeAt a).leaf then 1 else 0) + (s.nodeAt a).sym.toNat * 2 ^ 1 +
        (s.nodeAt a).left.toNat * 2 ^ 10 + (s.nodeAt a).right.toNat * 2 ^ 20 + (s.nodeAt a).weight.toNat * 2 ^ 30) ∧
    (s.nodeCount.toNat ≤ a.toNat → answersIllegal (.rdNode a) s)

/-- RD_CODELEN answers CODE_LEN[s] + CODE_VALID[s]·2^9 for a symbol 0..256 in every phase, and is illegal for any other
operand and with B or RSV ≠ 0 (rules R172, R181). -/
def Obligations.RdCodelenReadsLengthAndValidity : Prop :=
  (∀ a : OperandA, (encode (.rdCodelen a)).toNat = 0x86 + a.toNat * 2 ^ 8) ∧
  illegalWhen 0x86 (fun _ fields => 256 < fields % 2 ^ 10 ∨ fields / 2 ^ 10 ≠ 0) ∧
  ∀ (s : State) (a : OperandA),
    (a.toNat ≤ 256 → ∃ v : Value, exec (.rdCodelen a) s = .next { s with reply := .response 0 v } ∧
      v.toNat = (s.codeLenAt a.toNat).toNat + (if s.codeValidAt a.toNat then 2 ^ 9 else 0)) ∧
    (256 < a.toNat → answersIllegal (.rdCodelen a) s)

/-- RD_CODEBIT answers CODE_BITS[s][k] for a symbol with a code longer than k, in every phase, and is illegal for any
other operands and with RSV ≠ 0 (rules R172, R182). -/
def Obligations.RdCodebitReadsOneBit : Prop :=
  (∀ (a : OperandA) (b : OperandB), (encode (.rdCodebit a b)).toNat = 0x87 + a.toNat * 2 ^ 8 + b.toNat * 2 ^ 18) ∧
  illegalWhen 0x87 (fun s fields => 256 < fields % 2 ^ 10 ∨ s.codeValidAt (fields % 2 ^ 10) = false ∨
    (s.codeLenAt (fields % 2 ^ 10)).toNat ≤ fields / 2 ^ 10 % 2 ^ 8 ∨ fields / 2 ^ 18 ≠ 0) ∧
  ∀ (s : State) (a : OperandA) (b : OperandB),
    (a.toNat ≤ 256 ∧ s.codeValidAt a.toNat = true ∧ b.toNat < (s.codeLenAt a.toNat).toNat →
      exec (.rdCodebit a b) s = .next { s with
        reply := .response 0 (if (s.codeBitsAt a.toNat).getLsbD b.toNat then 1 else 0) }) ∧
    (256 < a.toNat ∨ s.codeValidAt a.toNat = false ∨ (s.codeLenAt a.toNat).toNat ≤ b.toNat →
      answersIllegal (.rdCodebit a b) s)

/-! ### The ports and the arena -/

/-- ReadBits(n) (rule R53). With fewer than n bits left it answers EOD, sets IPOS to |IN|, and then every later read of 1
bit or more answers EOD too; otherwise it answers the n bits as a number, the first bit read the most significant, and
advances IPOS. -/
def Obligations.ReadBitsFollowsRule53 : Prop :=
  ∀ (s : State) (n : Nat), s.input.length ≤ Config.inMaxBits → 0 < n →
    (s.input.length < s.ipos.toNat + n →
      ∃ t, readBits n s = .ok none t ∧ t = { s with ipos := t.ipos } ∧ t.ipos.toNat = s.input.length ∧
        ∀ m, 0 < m → readBits m t = .ok none t) ∧
    (s.ipos.toNat + n ≤ s.input.length →
      ∃ v t, readBits n s = .ok (some v) t ∧ t = { s with ipos := t.ipos } ∧ t.ipos.toNat = s.ipos.toNat + n ∧
        v = ∑ k ∈ Finset.range n, (s.input.getD (s.ipos.toNat + k) false).toNat * 2 ^ (n - 1 - k))

/-- WriteBits(n, v) appends v[n−1], …, v[0] to OUT (rule R55), and EmitCode(s) the code of s, first bit first (rule
R56); neither writes anything else. -/
def Obligations.WritesAppendToOut : Prop :=
  (∀ (s : State) (n v : Nat), writeBits n v s = .ok () { s with
    out := s.out ++ (List.range n).map fun k => v.testBit (n - 1 - k) }) ∧
  ∀ (s : State) (sym : Nat), emitCode sym s = .ok () { s with
    out := s.out ++ (List.range (s.codeLenAt sym).toNat).map fun k => (s.codeBitsAt sym).getLsbD k }

/-- Alloc raises CapacityExceeded with 513 nodes allocated; with fewer it writes the next entry, counts it and answers its
index, and no other entry and no other register changes (rule R29). -/
def Obligations.AllocFollowsRule29 : Prop :=
  ∀ (s : State) (n : Node),
    (s.nodeCount.toNat = 513 → alloc n s = .error (.raised .capacityExceeded) s) ∧
    (s.nodeCount.toNat < 513 → ∃ t, alloc n s = .ok s.nodeCount t ∧
      t = { s with node := t.node, nodeCount := t.nodeCount } ∧ t.nodeCount.toNat = s.nodeCount.toNat + 1 ∧
      t.nodeAt s.nodeCount = n ∧ ∀ i, i ≠ s.nodeCount → t.nodeAt i = s.nodeAt i)

/-- The host's load of IN between jobs replaces its whole content, by at most IN_MAX_BITS bits, and changes no register,
IPOS included; in any other phase, and with more bits, the host has no such move (rule R68). -/
def Obligations.HostLoadsInputBetweenJobs : Prop :=
  ∀ (s : State) (q : Bits) (rest : List HostMove), s.pending = .loadIn q :: rest →
    (s.phase ∈ [.idle, .encDone, .decDone, .error] → q.length ≤ 2 ^ 48 - 1 →
      step s = .next { s with input := q, pending := rest, reply := .silent }) ∧
    (s.phase ∈ [.idle, .encDone, .decDone, .error] → 2 ^ 48 - 1 < q.length → step s = .refused .loadTooLong) ∧
    (s.phase ∉ [.idle, .encDone, .decDone, .error] → step s = .refused .loadDuringJob)

/-- The host reads all of OUT in phases ENC_DONE and DEC_DONE; in any other phase the host has no such move (rule R57). -/
def Obligations.HostReadsOutWhenDone : Prop :=
  ∀ (s : State) (rest : List HostMove), s.pending = .readOut :: rest →
    (s.phase ∈ [.encDone, .decDone] → step s = .next { s with pending := rest, reply := .outBits s.out }) ∧
    (s.phase ∉ [.encDone, .decDone] → step s = .refused .outNotReadable)

/-- While the host has no move to make, HCORE is idle and keeps all its state (rule R213). -/
def Obligations.IdleKeepsEverything : Prop := ∀ s : State, s.pending = [] → step s = .next s

/-! ### The frequency counter -/

/-- FC_START opens a compression job: every register at its reset value, IN kept, PHASE = COUNTING (rule R100); it is
raises Sequence in every other phase, ERROR apart. -/
def Obligations.FcStartOpensAJob : Prop :=
  plainCommand .fcStart 0x10 [.idle, .encDone, .decDone] ∧
  ∀ s : State, s.phase ∈ [.idle, .encDone, .decDone] →
    exec .fcStart s = .next { State.reset with
      phase := .counting, input := s.input, pending := s.pending, reply := .response 0 0 }

/-- FC_STEP (rule R101): at the end of data it sets the sentinel's count to 1 and ends the pass; otherwise it counts the
byte; with LEN = MAX_LEN it raises CapacityExceeded, the byte read and nothing counted. -/
def Obligations.FcStepCountsOneByte : Prop :=
  plainCommand .fcStep 0x11 [.counting] ∧
  (∀ s : State, s.phase = .counting → s.input.length < s.ipos.toNat + 8 →
    exec .fcStep s = .next { s with
      ipos := BitVec.ofNat 48 s.input.length, freq := s.freq.write 256 1, phase := .counted,
      reply := .response 0 256 }) ∧
  (∀ (s : State) (b : BitVec 8), s.phase = .counting → (s.input.drop s.ipos.toNat).take 8 = msbFirst b →
    s.len.toNat ≠ 2 ^ 32 - 1 →
    exec .fcStep s = .next { s with
      ipos := s.ipos + 8, freq := s.freq.write b.toNat (s.freqAt b.toNat + 1), len := s.len + 1,
      reply := .response 0 (b.setWidth 64) }) ∧
  ∀ (s : State) (b : BitVec 8), s.phase = .counting → (s.input.drop s.ipos.toNat).take 8 = msbFirst b →
    s.len.toNat = 2 ^ 32 - 1 →
    exec .fcStep s = .next { s with
      ipos := s.ipos + 8, phase := .error, errcode := 4, errcmd := 0x11, out := [], reply := .response 4 0 }

/-- FC_RUN counts every remaining whole byte and then the sentinel, and answers how many bytes it counted (rule R102). -/
def Obligations.FcRunCountsTheRest : Prop :=
  plainCommand .fcRun 0x12 [.counting] ∧
  ∀ (s : State) (bs : List (BitVec 8)) (rest : Bits), s.phase = .counting →
    s.input.length ≤ Config.inMaxBits → s.input.drop s.ipos.toNat = bs.flatMap msbFirst ++ rest → rest.length < 8 →
    s.len.toNat + bs.length ≤ 2 ^ 32 - 1 →
    ∃ t, exec .fcRun s = .next t ∧
      t = { s with
        freq := t.freq, len := s.len + BitVec.ofNat 32 bs.length, ipos := BitVec.ofNat 48 s.input.length,
        phase := .counted, reply := .response 0 (BitVec.ofNat 64 bs.length) } ∧
      (∀ b : BitVec 8, t.freqAt b.toNat = s.freqAt b.toNat + BitVec.ofNat 32 (bs.count b)) ∧ t.freqAt 256 = 1

/-! ### The trie builder -/

/-- TB_BUILD (rules R110, R111), k being the number of symbols with FREQ[s] > 0. It allocates a leaf for each of them in
ascending order and then k − 1 internal nodes. LEFT of each is the least entry of the queue by (WEIGHT, index), and RIGHT
the least of the others. ROOT is the last entry. Nothing but the arena, ROOT, ROOT_VALID and PHASE changes. -/
def Obligations.TbBuildMergesTheLeastTwo : Prop :=
  plainCommand .tbBuild 0x20 [.counted] ∧
  ∀ s : State, s.phase = .counted → s.usedSymbols ≠ [] →
    ∃ t, exec .tbBuild s = .next t ∧
      t = { s with
        node := t.node, nodeCount := BitVec.ofNat 10 (2 * s.usedSymbols.length - 1),
        root := BitVec.ofNat 10 (2 * s.usedSymbols.length - 2), rootValid := true, phase := .built,
        reply := .response 0 (BitVec.ofNat 64 (2 * s.usedSymbols.length - 2)) } ∧
      (∀ j (h : j < s.usedSymbols.length), t.node.read Node.zero j =
        ⟨true, BitVec.ofNat 9 s.usedSymbols[j], 0, 0, (s.freqAt s.usedSymbols[j]).setWidth 33⟩) ∧
      (∀ j, s.usedSymbols.length ≤ j → j < 2 * s.usedSymbols.length - 1 → t.mergesLeastTwo j) ∧
      ∀ j, 2 * s.usedSymbols.length - 1 ≤ j → t.node.read Node.zero j = Node.zero

/-- The properties of every trie TB_BUILD builds (rule R112), from a state whose counts are those of a counting pass (rule
R40 item 1): the weight invariant, uniqueness, sentinel presence, two children for each internal node and one parent for
each other node than the root, depth at most k − 1 ≤ 256, and children before their parents. -/
def Obligations.BuiltTriesHaveRule112 : Prop :=
  ∀ s : State, s.phase = .counted → s.CountInv →
    ∃ t, exec .tbBuild s = .next t ∧ ∃ trie : Trie, t.holds trie t.root ∧ t.weighs trie t.root ∧
      trie.symbols.Perm s.usedSymbols ∧ trie.symbols.Nodup ∧ trie.symbols.count 256 = 1 ∧
      trie.depth + 1 ≤ s.usedSymbols.length ∧ trie.depth ≤ 256 ∧
      (∀ i < t.nodeCount, (t.nodeAt i).leaf = false → (t.nodeAt i).left < i ∧ (t.nodeAt i).right < i ∧
        (t.nodeAt i).left ≠ (t.nodeAt i).right) ∧
      ∀ j < t.nodeCount, j ≠ t.root →
        ∃! i, i < t.nodeCount ∧ (t.nodeAt i).leaf = false ∧ ((t.nodeAt i).left = j ∨ (t.nodeAt i).right = j)

/-! ### The code table -/

/-- CT_GEN (rule R120) on the trie at ROOT, each symbol of which has one leaf: each leaf's symbol gets its path as its
code, every other symbol gets none, VALUE is the number of leaves, and nothing but the code table and PHASE changes. -/
def Obligations.CtGenRecordsEveryPath : Prop :=
  plainCommand .ctGen 0x30 [.built] ∧
  ∀ (s : State) (trie : Trie), s.phase = .built → s.holds trie s.root → trie.symbols.Nodup →
    (∀ sym ∈ trie.symbols, sym ≤ 256) → trie.depth ≤ 256 →
    ∃ t, exec .ctGen s = .next t ∧
      t = { s with
        codeValid := t.codeValid, codeLen := t.codeLen, codeBits := t.codeBits, phase := .coded,
        reply := .response 0 (BitVec.ofNat 64 trie.symbols.length) } ∧
      (∀ c ∈ trie.codes, t.codeValidAt c.1 = true ∧ (t.codeLenAt c.1).toNat = c.2.length ∧ t.codeOf c.1 = c.2 ∧
        ∀ k, c.2.length ≤ k → (t.codeBitsAt c.1).getLsbD k = false) ∧
      ∀ sym, sym ∉ trie.symbols → t.codeValidAt sym = false ∧ t.codeLenAt sym = 0 ∧ t.codeBitsAt sym = 0

/-- The properties of every code table CT_GEN writes (rule R121): no code is a prefix of another, the codes satisfy
Kraft's equality (here times 2^256), and a code followed from ROOT reaches the leaf of its symbol. -/
def Obligations.CodeTablesHaveRule121 : Prop :=
  ∀ (s : State) (trie : Trie), s.phase = .built → s.holds trie s.root → trie.symbols.Nodup →
    (∀ sym ∈ trie.symbols, sym ≤ 256) → trie.depth ≤ 256 →
    ∃ t, exec .ctGen s = .next t ∧
      (∀ a b, a ≠ b → t.codeValidAt a = true → t.codeValidAt b = true → ¬ t.codeOf a <+: t.codeOf b) ∧
      (((List.range 257).filter t.codeValidAt).map fun sym => 2 ^ (256 - (t.codeLenAt sym).toNat)).sum = 2 ^ 256 ∧
      ∀ sym, t.codeValidAt sym = true → (t.nodeAt (t.follow t.root (t.codeOf sym))).leaf = true ∧
        (t.nodeAt (t.follow t.root (t.codeOf sym))).sym.toNat = sym

/-! ### The stream writer and the encoder -/

/-- HW_MAGIC (rule R160), for every value of the parameter MAGIC (rule R9): its pseudocode, and the command in CODED,
append MAGIC's 32 bits, most significant first, and answer MAGIC; exec is the command at the default of MAGIC. -/
def Obligations.HwMagicWritesTheMagicField : Prop :=
  plainCommand .hwMagic 0x40 [.coded] ∧
  (∀ (magic : BitVec 32) (s : State), hwMagicBody magic s =
    .ok (magic.setWidth 64) { s with out := s.out ++ msbFirst magic, phase := .magicOut }) ∧
  (∀ (magic : BitVec 32) (s : State), s.phase = .coded → execWith magic .hwMagic s = .next { s with
    out := s.out ++ msbFirst magic, phase := .magicOut, reply := .response 0 (magic.setWidth 64) }) ∧
  ∀ s : State, s.phase = .coded → exec .hwMagic s = .next { s with
    out := s.out ++ msbFirst Config.magic, phase := .magicOut,
    reply := .response 0 (Config.magic.setWidth 64) }

/-- HW_HEADER (rule R130) appends H(ROOT) of rule R81 and answers its length; nothing but OUT and PHASE changes. -/
def Obligations.HwHeaderWritesThePreorder : Prop :=
  plainCommand .hwHeader 0x41 [.magicOut] ∧
  ∀ (s : State) (trie : Trie), s.phase = .magicOut → s.holds trie s.root →
    exec .hwHeader s = .next { s with
      out := s.out ++ trie.header, phase := .headerOut,
      reply := .response 0 (BitVec.ofNat 64 trie.header.length) }

/-- The header of a trie of k leaves has 11·k − 1 bits (rule R80). -/
def Obligations.HeaderLength : Prop := ∀ trie : Trie, trie.header.length = 11 * trie.symbols.length - 1

/-- ENC_START (rule R140) sets IPOS to 0 and PHASE to ENCODING and changes nothing else; it is legal only in
HEADER_OUT. -/
def Obligations.EncStartRewinds : Prop :=
  plainCommand .encStart 0x50 [.headerOut] ∧
  ∀ s : State, s.phase = .headerOut →
    exec .encStart s = .next { s with ipos := 0, phase := .encoding, reply := .response 0 0 }

/-- ENC_STEP (rule R141): at the end of data it appends the sentinel's code and ends the pass; a byte with a code has its
code appended; a byte without one raises NoCode. -/
def Obligations.EncStepEncodesOneByte : Prop :=
  plainCommand .encStep 0x51 [.encoding] ∧
  (∀ s : State, s.phase = .encoding → s.input.length < s.ipos.toNat + 8 →
    exec .encStep s = .next { s with
      ipos := BitVec.ofNat 48 s.input.length, out := s.out ++ s.codeOf 256, phase := .encDone,
      reply := .response 0 256 }) ∧
  (∀ (s : State) (b : BitVec 8), s.phase = .encoding → (s.input.drop s.ipos.toNat).take 8 = msbFirst b →
    s.codeValidAt b.toNat = true →
    exec .encStep s = .next { s with
      ipos := s.ipos + 8, out := s.out ++ s.codeOf b.toNat, reply := .response 0 (b.setWidth 64) }) ∧
  ∀ (s : State) (b : BitVec 8), s.phase = .encoding → (s.input.drop s.ipos.toNat).take 8 = msbFirst b →
    s.codeValidAt b.toNat = false →
    exec .encStep s = .next { s with
      ipos := s.ipos + 8, phase := .error, errcode := 5, errcmd := 0x51, out := [], reply := .response 5 0 }

/-- ENC_RUN (rule R142) appends the codes of every remaining whole byte and then the sentinel's, and answers how many bits
it appended; nothing but IPOS, OUT and PHASE changes. -/
def Obligations.EncRunEncodesTheRest : Prop :=
  plainCommand .encRun 0x52 [.encoding] ∧
  ∀ (s : State) (bs : List (BitVec 8)) (rest : Bits), s.phase = .encoding →
    s.input.length ≤ Config.inMaxBits → s.input.drop s.ipos.toNat = bs.flatMap msbFirst ++ rest → rest.length < 8 →
    (∀ b ∈ bs, s.codeValidAt b.toNat = true) →
    exec .encRun s = .next { s with
      ipos := BitVec.ofNat 48 s.input.length,
      out := s.out ++ ((bs.flatMap fun b => s.codeOf b.toNat) ++ s.codeOf 256), phase := .encDone,
      reply := .response 0 (BitVec.ofNat 64 ((bs.flatMap fun b => s.codeOf b.toNat) ++ s.codeOf 256).length) }

/-! ### The stream reader and the decoder -/

/-- DM_START opens a decompression job: every register at its reset value, IN kept, PHASE = DM_READY (rule R161); it is
raises Sequence in every other phase, ERROR apart. -/
def Obligations.DmStartOpensAJob : Prop :=
  plainCommand .dmStart 0x60 [.idle, .encDone, .decDone] ∧
  ∀ s : State, s.phase ∈ [.idle, .encDone, .decDone] →
    exec .dmStart s = .next { State.reset with
      phase := .dmReady, input := s.input, pending := s.pending, reply := .response 0 0 }

/-- HR_MAGIC (rule R162), for every value of the parameter MAGIC (rule R9): its pseudocode, and the command in DM_READY,
accept the 32 bits of MAGIC, and the command raises InvalidFormat on 32 other bits and on fewer bits; exec is the command
at the default of MAGIC. -/
def Obligations.HrMagicChecksTheMagicField : Prop :=
  plainCommand .hrMagic 0x61 [.dmReady] ∧
  (∀ (magic : BitVec 32) (s : State), (s.input.drop s.ipos.toNat).take 32 = msbFirst magic →
    hrMagicBody magic s = .ok (magic.setWidth 64) { s with ipos := s.ipos + 32, phase := .dmMagicOk }) ∧
  (∀ (magic : BitVec 32) (s : State), s.phase = .dmReady →
    ((s.input.drop s.ipos.toNat).take 32 = msbFirst magic →
      execWith magic .hrMagic s = .next { s with
        ipos := s.ipos + 32, phase := .dmMagicOk, reply := .response 0 (magic.setWidth 64) }) ∧
    (∀ v : BitVec 32, (s.input.drop s.ipos.toNat).take 32 = msbFirst v → v ≠ magic →
      execWith magic .hrMagic s = .next { s with
        ipos := s.ipos + 32, phase := .error, errcode := 1, errcmd := 0x61, out := [], reply := .response 1 0 }) ∧
    (s.input.length < s.ipos.toNat + 32 →
      execWith magic .hrMagic s = .next { s with
        ipos := BitVec.ofNat 48 s.input.length, phase := .error, errcode := 1, errcmd := 0x61, out := [],
        reply := .response 1 0 })) ∧
  (∀ s : State, s.phase = .dmReady → (s.input.drop s.ipos.toNat).take 32 = msbFirst Config.magic →
    exec .hrMagic s = .next { s with
      ipos := s.ipos + 32, phase := .dmMagicOk, reply := .response 0 (Config.magic.setWidth 64) }) ∧
  (∀ (s : State) (v : BitVec 32), s.phase = .dmReady → (s.input.drop s.ipos.toNat).take 32 = msbFirst v →
    v ≠ Config.magic →
    exec .hrMagic s = .next { s with
      ipos := s.ipos + 32, phase := .error, errcode := 1, errcmd := 0x61, out := [], reply := .response 1 0 }) ∧
  ∀ s : State, s.phase = .dmReady → s.input.length < s.ipos.toNat + 32 →
    exec .hrMagic s = .next { s with
      ipos := BitVec.ofNat 48 s.input.length, phase := .error, errcode := 1, errcmd := 0x61, out := [],
      reply := .response 1 0 }

/-- A trie whose header HR_HEADER accepts (rule R133): it fits the arena, its symbols are 0..256, and if it is one leaf
that leaf is the sentinel's. -/
def acceptedTrie (trie : Trie) : Prop :=
  trie.size ≤ 513 ∧ (∀ sym ∈ trie.symbols, sym ≤ 256) ∧ trie.rootIsSentinelOrInternal = true

/-- HR_HEADER on the header of an accepted trie (rules R132, R133): it reads exactly that header, allocates the trie's
nodes in preorder with every weight 0, and answers NODE_COUNT; nothing but the arena, ROOT, ROOT_VALID, CURSOR, IPOS and
PHASE changes. -/
def Obligations.HrHeaderRebuildsTheTrie : Prop :=
  plainCommand .hrHeader 0x62 [.dmMagicOk] ∧
  ∀ (s : State) (trie : Trie) (rest : Bits), s.phase = .dmMagicOk → s.input.length ≤ Config.inMaxBits →
    acceptedTrie trie → s.input.drop s.ipos.toNat = trie.header ++ rest →
    ∃ t, exec .hrHeader s = .next t ∧
      t = { s with
        node := t.node, nodeCount := BitVec.ofNat 10 trie.size, root := 0, rootValid := true, cursor := 0,
        ipos := s.ipos + BitVec.ofNat 48 trie.header.length, phase := .decoding,
        reply := .response 0 (BitVec.ofNat 64 trie.size) } ∧
      t.node.cells = trie.preorder 0 ++ List.replicate (513 - trie.size) Node.zero ∧ t.holds trie t.root

/-- HR_HEADER accepts the headers of the accepted tries and nothing else (rule R133). In every other case it raises
MalformedHeader, or CapacityExceeded with all 513 nodes allocated, and ROOT_VALID stays 0. -/
def Obligations.HrHeaderAcceptsExactlyHeaders : Prop :=
  ∀ s : State, s.phase = .dmMagicOk → s.input.length ≤ Config.inMaxBits →
    ∃ t, exec .hrHeader s = .next t ∧
      (((∃ trie rest, acceptedTrie trie ∧ s.input.drop s.ipos.toNat = trie.header ++ rest) ∧ t.phase = .decoding ∧
          t.reply = .response 0 (t.nodeCount.setWidth 64)) ∨
        ((¬ ∃ trie rest, acceptedTrie trie ∧ s.input.drop s.ipos.toNat = trie.header ++ rest) ∧ t.phase = .error ∧
          t.rootValid = false ∧ t.errcmd = 0x62 ∧ t.out = [] ∧ t.reply = .response t.errcode 0 ∧
          (t.errcode = 2 ∨ t.errcode = 4 ∧ t.nodeCount.toNat = 513)))

/-- DEC_STEP (rule R150) from a trie at CURSOR. Along the code of a symbol it reads that code's bits and emits the symbol's
byte, or at the sentinel ends the pass with CURSOR on its leaf and emits nothing. When IN ends inside a code it raises
MalformedBody and leaves CURSOR where the bits led. -/
def Obligations.DecStepRecoversOneSymbol : Prop :=
  plainCommand .decStep 0x70 [.decoding] ∧
  (∀ (s : State) (trie : Trie) (sym : Nat) (q rest : Bits), s.phase = .decoding → s.input.length ≤ Config.inMaxBits →
    s.holds trie s.cursor → (sym, q) ∈ trie.codes → s.input.drop s.ipos.toNat = q ++ rest → sym ≠ 256 →
    exec .decStep s = .next { s with
      ipos := s.ipos + BitVec.ofNat 48 q.length, out := s.out ++ msbFirst (BitVec.ofNat 8 sym), cursor := s.root,
      reply := .response 0 (BitVec.ofNat 64 sym) }) ∧
  (∀ (s : State) (trie : Trie) (q rest : Bits), s.phase = .decoding → s.input.length ≤ Config.inMaxBits →
    s.holds trie s.cursor → (256, q) ∈ trie.codes → s.input.drop s.ipos.toNat = q ++ rest →
    exec .decStep s = .next { s with
      ipos := s.ipos + BitVec.ofNat 48 q.length, cursor := s.follow s.cursor q, phase := .decDone,
      reply := .response 0 256 }) ∧
  ∀ (s : State) (trie : Trie) (sym : Nat) (q more : Bits), s.phase = .decoding →
    s.input.length ≤ Config.inMaxBits → s.holds trie s.cursor →
    (sym, q ++ more) ∈ trie.codes → more ≠ [] → s.input.drop s.ipos.toNat = q →
    exec .decStep s = .next { s with
      ipos := BitVec.ofNat 48 s.input.length, cursor := s.follow s.cursor q, phase := .error, errcode := 3,
      errcmd := 0x70, out := [], reply := .response 3 0 }

/-- DEC_RUN (rule R151): on the codes of symbols and then the sentinel's code it emits the bytes of those symbols, answers
how many they are, and reads no bit after the sentinel's code. -/
def Obligations.DecRunRecoversTheBody : Prop :=
  plainCommand .decRun 0x71 [.decoding] ∧
  ∀ (s : State) (trie : Trie) (cs : List (Nat × Bits)) (q rest : Bits), s.phase = .decoding →
    s.input.length ≤ Config.inMaxBits → s.cursor = s.root → s.holds trie s.root →
    (∀ c ∈ cs, c ∈ trie.codes ∧ c.1 ≠ 256) → (256, q) ∈ trie.codes →
    s.input.drop s.ipos.toNat = (cs.flatMap fun c => c.2) ++ (q ++ rest) →
    exec .decRun s = .next { s with
      ipos := s.ipos + BitVec.ofNat 48 ((cs.flatMap fun c => c.2) ++ q).length,
      out := s.out ++ cs.flatMap fun c => msbFirst (BitVec.ofNat 8 c.1), cursor := s.follow s.root q,
      phase := .decDone, reply := .response 0 (BitVec.ofNat 64 cs.length) }

/-! ### Whole passes and jobs -/

/-- Each run form has the effect of its step form issued until PHASE leaves the pass, but for the response and the opcode
an error records (rules R102, R142, R151; 92_eei_decisions.md D32). -/
def Obligations.RunFormsRepeatTheirStepForms : Prop :=
  ∀ p ∈ [(Instr.fcRun, Instr.fcStep, Phase.counting), (.encRun, .encStep, .encoding), (.decRun, .decStep, .decoding)],
    ∀ s : State, s.TrieInv → s.phase = p.2.2 →
      ∃ n t v, repeatStep p.2.1 p.2.2 n s = .next t ∧ t.phase ≠ p.2.2 ∧
        exec p.1 s = .next { t with
          errcmd := if t.phase = .error then p.1.opcode else t.errcmd,
          reply := .response (if t.phase = .error then t.errcode else 0) v }

/-- The result of a compression job (rule R143), for every value of the parameter MAGIC: COMPRESS on N whole bytes, and a rest of fewer than 8 bits, ends in
ENC_DONE with STATUS 0, and OUT is the magic field, the header of the trie at ROOT, the code of each byte in order and the
sentinel's code. Its length is 32 + (11·k − 1) + Σ FREQ[s]·CODE_LEN[s]. -/
def Obligations.CompressWritesTheStream : Prop :=
  ∀ (magic : BitVec 32) (s : State) (bs : List (BitVec 8)) (rest : Bits), s.phase ∈ [.idle, .encDone, .decDone] →
    s.input = bs.flatMap msbFirst ++ rest → rest.length < 8 → bs.length ≤ 2 ^ 32 - 1 →
    ∃ t trie, execAll (execWith magic) compressCommands s = .next t ∧ t.succeeded = true ∧ t.phase = .encDone ∧
      t.holds trie t.root ∧
      t.out = msbFirst magic ++ (trie.header ++ ((bs.flatMap fun b => t.codeOf b.toNat) ++ t.codeOf 256)) ∧
      (∀ b ∈ bs, (b.toNat, t.codeOf b.toNat) ∈ trie.codes) ∧ (256, t.codeOf 256) ∈ trie.codes ∧
      t.out.length = 32 + (11 * trie.symbols.length - 1) +
        ((List.range 257).map fun sym => (t.freqAt sym).toNat * (t.codeLenAt sym).toNat).sum

/-- Round trip (rule R152): the OUT of a compression job on any whole bytes S, loaded as IN with or without padding after
it and decompressed, gives OUT = S, every command answered with STATUS 0, for every value of the parameter MAGIC. -/
def Obligations.DecompressUndoesCompress : Prop :=
  ∀ (magic : BitVec 32) (s : State) (bs : List (BitVec 8)), s.phase ∈ [.idle, .encDone, .decDone] →
    s.input = bs.flatMap msbFirst → bs.length ≤ 2 ^ 32 - 1 →
    ∃ t, execAll (execWith magic) compressCommands s = .next t ∧ t.succeeded = true ∧ t.phase = .encDone ∧
      ∀ padding : Bits, (t.out ++ padding).length ≤ Config.inMaxBits →
        ∃ u, execAll (execWith magic) decompressCommands { t with input := t.out ++ padding } = .next u ∧
          u.succeeded = true ∧ u.phase = .decDone ∧ u.out = bs.flatMap msbFirst

/-- Decompression of any bit sequence of at most IN_MAX_BITS bits ends: in DEC_DONE, with whole bytes in OUT, or in one
of the errors InvalidFormat, MalformedHeader, MalformedBody and CapacityExceeded (rules R58, R235), for every value of the
parameter MAGIC. -/
def Obligations.DecompressionAlwaysEnds : Prop :=
  ∀ (magic : BitVec 32) (s : State), s.phase ∈ [.idle, .encDone, .decDone] → s.input.length ≤ Config.inMaxBits →
    ∃ t, execAll (execWith magic) decompressCommands s = .next t ∧
      ((t.succeeded = true ∧ t.phase = .decDone ∧ ∃ bs : List (BitVec 8), t.out = bs.flatMap msbFirst) ∨
        (t.succeeded = false ∧ t.phase = .error ∧ t.errcode ∈ [1, 2, 3, 4] ∧ t.out = []))

/-! ### What holds between commands -/

/-- What holds between commands holds at power-on (rules R40, R230). -/
def Obligations.ResetHasTheInvariants : Prop := State.reset.Inv

/-- Every step keeps the agreement of the control registers, ROOT_VALID and OUT with PHASE (rules R24, R201, R230, R40
item 5). -/
def Obligations.StepKeepsControl : Prop := ∀ s t : State, s.ControlInv → step s = .next t → t.ControlInv

/-- Every step keeps what holds between commands (rule R40). -/
def Obligations.StepKeepsTheInvariants : Prop := ∀ s t : State, s.Inv → step s = .next t → t.Inv

/-- From a state with what holds between commands, every command word is answered: the step is a next state, so no command
hangs (rule R239). -/
def Obligations.EveryWordIsAnswered : Prop :=
  ∀ (s : State) (w : Word) (rest : List HostMove), s.Inv → s.pending = .issue w :: rest →
    ∃ t st v, step s = .next t ∧ t.reply = .response st v

/-! ### The parameter MAGIC -/

/-- The machine takes MAGIC as an argument with the default 0xFACE8201 (rule R9): exec, step and core are the machine at
the default, and of the commands only HW_MAGIC and HR_MAGIC depend on MAGIC. -/
def Obligations.MagicIsAnArgumentWithADefault : Prop :=
  Config.magic = 0xFACE8201 ∧
  (∀ (i : Instr) (s : State), execWith Config.magic i s = exec i s) ∧
  (∀ s : State, stepWith Config.magic s = step s) ∧
  coreWith = Sys2Proof.core ∧
  (∀ magic : BitVec 32, (coreWith magic).reset = State.reset ∧ (coreWith magic).step = stepWith magic) ∧
  ∀ (magic : BitVec 32) (i : Instr) (s : State), i ≠ .hwMagic → i ≠ .hrMagic → execWith magic i s = exec i s
end

