-- ==== Sys2Proof/Laws/RegFile.lean ====
section
/-! SUPPORT. Reading a register file after a write. -/

namespace Sys2Proof.RegFile

variable {α : Type} {n : Nat}

theorem read_write (f : RegFile α n) (d : α) (i j : Nat) (a : α) :
    (f.write i a).read d j = if i = j ∧ j < n then a else f.read d j := by
  have h := f.size
  simp only [read, write, List.getD_eq_getElem?_getD, List.getElem?_set]
  split_ifs <;> simp_all

@[simp] theorem read_write_same (f : RegFile α n) (d : α) {i : Nat} (a : α) (h : i < n) :
    (f.write i a).read d i = a := by simp [read_write, h]

theorem read_write_other (f : RegFile α n) (d : α) {i j : Nat} (a : α) (h : i ≠ j) :
    (f.write i a).read d j = f.read d j := by simp [read_write, h]

@[simp] theorem read_fill (d : α) (i : Nat) : (fill n d).read d i = d := by
  simp only [read, fill, List.getD_eq_getElem?_getD, List.getElem?_replicate]
  split_ifs <;> simp

theorem read_out (f : RegFile α n) (d : α) {i : Nat} (h : n ≤ i) : f.read d i = d := by
  simp [read, List.getD_eq_getElem?_getD, f.size, h]

theorem ext_cells {f g : RegFile α n} (h : f.cells = g.cells) : f = g := by
  cases f; cases g; simp_all

/-- Two files that read alike are equal. -/
theorem ext_read {f g : RegFile α n} (d : α) (h : ∀ i < n, f.read d i = g.read d i) : f = g := by
  apply ext_cells
  apply List.ext_getElem (by rw [f.size, g.size])
  intro i h1 h2
  have := h i (by rw [← f.size]; exact h1)
  simpa [read, List.getD_eq_getElem?_getD, h1, h2] using this

/-! ### Writing one register after another -/

/-- The registers from `i` on hold the members of a list. -/
def writeFrom (f : RegFile α n) : Nat → List α → RegFile α n
  | _, [] => f
  | i, a :: l => (f.write i a).writeFrom (i + 1) l

@[simp] theorem write_write_same (f : RegFile α n) (i : Nat) (a b : α) : (f.write i a).write i b = f.write i b :=
  ext_cells (by simp [write])

theorem write_write_comm (f : RegFile α n) {i j : Nat} (a b : α) (h : i ≠ j) :
    (f.write i a).write j b = (f.write j b).write i a :=
  ext_cells (by simp [write, List.set_comm _ _ h])

theorem writeFrom_write (f : RegFile α n) {i j : Nat} (l : List α) (a : α) (h : i < j) :
    (f.writeFrom j l).write i a = (f.write i a).writeFrom j l := by
  induction l generalizing f j with
  | nil => rfl
  | cons b l ih => rw [writeFrom, ih _ (by omega), write_write_comm _ _ _ (by omega : j ≠ i)]; rfl

theorem writeFrom_append (f : RegFile α n) (i : Nat) (l m : List α) :
    f.writeFrom i (l ++ m) = (f.writeFrom i l).writeFrom (i + l.length) m := by
  induction l generalizing f i with
  | nil => rfl
  | cons a l ih => rw [List.cons_append, writeFrom, ih, writeFrom, List.length_cons]; congr 1; omega

theorem read_writeFrom_other (f : RegFile α n) (d : α) {i k : Nat} (l : List α) (h : k < i ∨ i + l.length ≤ k) :
    (f.writeFrom i l).read d k = f.read d k := by
  induction l generalizing f i with
  | nil => rfl
  | cons a l ih =>
    simp only [List.length_cons] at h
    rw [writeFrom, ih _ (by omega), read_write_other _ _ _ (by omega)]

theorem read_writeFrom (f : RegFile α n) (d : α) {i k : Nat} (l : List α) (h : k < l.length) (hn : i + k < n) :
    (f.writeFrom i l).read d (i + k) = l[k] := by
  induction l generalizing f i k with
  | nil => simp at h
  | cons a l ih =>
    cases k with
    | zero => rw [writeFrom, read_writeFrom_other _ _ _ (by omega)]; simp [show i < n by omega]
    | succ k =>
      have := ih (f.write i a) (i := i + 1) (k := k) (by simpa using h) (by omega)
      rw [writeFrom, show i + (k + 1) = i + 1 + k by omega, this]; rfl

/-- A file filled from its first register on. -/
theorem cells_writeFrom_fill (l : List α) (d : α) (h : l.length ≤ n) :
    ((fill n d).writeFrom 0 l).cells = l ++ List.replicate (n - l.length) d := by
  apply List.ext_getElem (by rw [size]; simp; omega)
  intro k h1 h2
  rw [size] at h1
  have hr : ((fill n d).writeFrom 0 l).read d k = ((fill n d).writeFrom 0 l).cells[k]'(by rw [size]; exact h1) := by
    simp [read, List.getD_eq_getElem?_getD, size, h1]
  rw [← hr]
  by_cases hk : k < l.length
  · have := read_writeFrom (fill n d) d (i := 0) l hk (by omega)
    rw [Nat.zero_add] at this
    rw [this, List.getElem_append_left hk]
  · rw [read_writeFrom_other _ _ _ (by omega), read_fill, List.getElem_append_right (by omega)]
    simp

end Sys2Proof.RegFile
end

