-- ==== Sys2Proof/Laws/State.lean ====
section
/-! SUPPORT. The fields of a state after each update of the model, one lemma a field. -/

namespace Sys2Proof.Machine

variable (s : State)

/-! ### respond -/

@[simp] theorem respond_phase (st : Status) (v : Value) : (respond st v s).phase = s.phase := rfl
@[simp] theorem respond_errcode (st : Status) (v : Value) : (respond st v s).errcode = s.errcode := rfl
@[simp] theorem respond_errcmd (st : Status) (v : Value) : (respond st v s).errcmd = s.errcmd := rfl
@[simp] theorem respond_freq (st : Status) (v : Value) : (respond st v s).freq = s.freq := rfl
@[simp] theorem respond_len (st : Status) (v : Value) : (respond st v s).len = s.len := rfl
@[simp] theorem respond_node (st : Status) (v : Value) : (respond st v s).node = s.node := rfl
@[simp] theorem respond_nodeCount (st : Status) (v : Value) : (respond st v s).nodeCount = s.nodeCount := rfl
@[simp] theorem respond_root (st : Status) (v : Value) : (respond st v s).root = s.root := rfl
@[simp] theorem respond_rootValid (st : Status) (v : Value) : (respond st v s).rootValid = s.rootValid := rfl
@[simp] theorem respond_codeValid (st : Status) (v : Value) : (respond st v s).codeValid = s.codeValid := rfl
@[simp] theorem respond_codeLen (st : Status) (v : Value) : (respond st v s).codeLen = s.codeLen := rfl
@[simp] theorem respond_codeBits (st : Status) (v : Value) : (respond st v s).codeBits = s.codeBits := rfl
@[simp] theorem respond_cursor (st : Status) (v : Value) : (respond st v s).cursor = s.cursor := rfl
@[simp] theorem respond_ipos (st : Status) (v : Value) : (respond st v s).ipos = s.ipos := rfl
@[simp] theorem respond_out (st : Status) (v : Value) : (respond st v s).out = s.out := rfl
@[simp] theorem respond_input (st : Status) (v : Value) : (respond st v s).input = s.input := rfl
@[simp] theorem respond_pending (st : Status) (v : Value) : (respond st v s).pending = s.pending := rfl
@[simp] theorem respond_reply (st : Status) (v : Value) : (respond st v s).reply = .response st v := rfl

/-! ### enterError -/

@[simp] theorem enterError_phase (op : Opcode) (e : Error) : (enterError op e s).phase = .error := rfl
@[simp] theorem enterError_errcode (op : Opcode) (e : Error) : (enterError op e s).errcode = e.code := rfl
@[simp] theorem enterError_errcmd (op : Opcode) (e : Error) : (enterError op e s).errcmd = op := rfl
@[simp] theorem enterError_freq (op : Opcode) (e : Error) : (enterError op e s).freq = s.freq := rfl
@[simp] theorem enterError_len (op : Opcode) (e : Error) : (enterError op e s).len = s.len := rfl
@[simp] theorem enterError_node (op : Opcode) (e : Error) : (enterError op e s).node = s.node := rfl
@[simp] theorem enterError_nodeCount (op : Opcode) (e : Error) : (enterError op e s).nodeCount = s.nodeCount := rfl
@[simp] theorem enterError_root (op : Opcode) (e : Error) : (enterError op e s).root = s.root := rfl
@[simp] theorem enterError_rootValid (op : Opcode) (e : Error) : (enterError op e s).rootValid = s.rootValid := rfl
@[simp] theorem enterError_codeValid (op : Opcode) (e : Error) : (enterError op e s).codeValid = s.codeValid := rfl
@[simp] theorem enterError_codeLen (op : Opcode) (e : Error) : (enterError op e s).codeLen = s.codeLen := rfl
@[simp] theorem enterError_codeBits (op : Opcode) (e : Error) : (enterError op e s).codeBits = s.codeBits := rfl
@[simp] theorem enterError_cursor (op : Opcode) (e : Error) : (enterError op e s).cursor = s.cursor := rfl
@[simp] theorem enterError_ipos (op : Opcode) (e : Error) : (enterError op e s).ipos = s.ipos := rfl
@[simp] theorem enterError_out (op : Opcode) (e : Error) : (enterError op e s).out = [] := rfl
@[simp] theorem enterError_input (op : Opcode) (e : Error) : (enterError op e s).input = s.input := rfl
@[simp] theorem enterError_pending (op : Opcode) (e : Error) : (enterError op e s).pending = s.pending := rfl
@[simp] theorem enterError_reply (op : Opcode) (e : Error) : (enterError op e s).reply = .response e.code 0 := rfl

/-! ### clearArena -/

@[simp] theorem clearArena_phase : (clearArena s).phase = s.phase := rfl
@[simp] theorem clearArena_errcode : (clearArena s).errcode = s.errcode := rfl
@[simp] theorem clearArena_errcmd : (clearArena s).errcmd = s.errcmd := rfl
@[simp] theorem clearArena_freq : (clearArena s).freq = s.freq := rfl
@[simp] theorem clearArena_len : (clearArena s).len = s.len := rfl
@[simp] theorem clearArena_node : (clearArena s).node = .fill Config.nodeCap Node.zero := rfl
@[simp] theorem clearArena_nodeCount : (clearArena s).nodeCount = 0 := rfl
@[simp] theorem clearArena_root : (clearArena s).root = 0 := rfl
@[simp] theorem clearArena_rootValid : (clearArena s).rootValid = false := rfl
@[simp] theorem clearArena_codeValid : (clearArena s).codeValid = s.codeValid := rfl
@[simp] theorem clearArena_codeLen : (clearArena s).codeLen = s.codeLen := rfl
@[simp] theorem clearArena_codeBits : (clearArena s).codeBits = s.codeBits := rfl
@[simp] theorem clearArena_cursor : (clearArena s).cursor = s.cursor := rfl
@[simp] theorem clearArena_ipos : (clearArena s).ipos = s.ipos := rfl
@[simp] theorem clearArena_out : (clearArena s).out = s.out := rfl
@[simp] theorem clearArena_input : (clearArena s).input = s.input := rfl
@[simp] theorem clearArena_pending : (clearArena s).pending = s.pending := rfl
@[simp] theorem clearArena_reply : (clearArena s).reply = s.reply := rfl

/-! ### clearCodes -/

@[simp] theorem clearCodes_phase : (clearCodes s).phase = s.phase := rfl
@[simp] theorem clearCodes_errcode : (clearCodes s).errcode = s.errcode := rfl
@[simp] theorem clearCodes_errcmd : (clearCodes s).errcmd = s.errcmd := rfl
@[simp] theorem clearCodes_freq : (clearCodes s).freq = s.freq := rfl
@[simp] theorem clearCodes_len : (clearCodes s).len = s.len := rfl
@[simp] theorem clearCodes_node : (clearCodes s).node = s.node := rfl
@[simp] theorem clearCodes_nodeCount : (clearCodes s).nodeCount = s.nodeCount := rfl
@[simp] theorem clearCodes_root : (clearCodes s).root = s.root := rfl
@[simp] theorem clearCodes_rootValid : (clearCodes s).rootValid = s.rootValid := rfl
@[simp] theorem clearCodes_codeValid : (clearCodes s).codeValid = .fill Config.nsym false := rfl
@[simp] theorem clearCodes_codeLen : (clearCodes s).codeLen = .fill Config.nsym 0 := rfl
@[simp] theorem clearCodes_codeBits : (clearCodes s).codeBits = .fill Config.nsym 0 := rfl
@[simp] theorem clearCodes_cursor : (clearCodes s).cursor = s.cursor := rfl
@[simp] theorem clearCodes_ipos : (clearCodes s).ipos = s.ipos := rfl
@[simp] theorem clearCodes_out : (clearCodes s).out = s.out := rfl
@[simp] theorem clearCodes_input : (clearCodes s).input = s.input := rfl
@[simp] theorem clearCodes_pending : (clearCodes s).pending = s.pending := rfl
@[simp] theorem clearCodes_reply : (clearCodes s).reply = s.reply := rfl

/-! ### resetState -/

@[simp] theorem resetState_phase : (resetState s).phase = State.reset.phase := rfl
@[simp] theorem resetState_errcode : (resetState s).errcode = State.reset.errcode := rfl
@[simp] theorem resetState_errcmd : (resetState s).errcmd = State.reset.errcmd := rfl
@[simp] theorem resetState_freq : (resetState s).freq = State.reset.freq := rfl
@[simp] theorem resetState_len : (resetState s).len = State.reset.len := rfl
@[simp] theorem resetState_node : (resetState s).node = State.reset.node := rfl
@[simp] theorem resetState_nodeCount : (resetState s).nodeCount = State.reset.nodeCount := rfl
@[simp] theorem resetState_root : (resetState s).root = State.reset.root := rfl
@[simp] theorem resetState_rootValid : (resetState s).rootValid = State.reset.rootValid := rfl
@[simp] theorem resetState_codeValid : (resetState s).codeValid = State.reset.codeValid := rfl
@[simp] theorem resetState_codeLen : (resetState s).codeLen = State.reset.codeLen := rfl
@[simp] theorem resetState_codeBits : (resetState s).codeBits = State.reset.codeBits := rfl
@[simp] theorem resetState_cursor : (resetState s).cursor = State.reset.cursor := rfl
@[simp] theorem resetState_ipos : (resetState s).ipos = State.reset.ipos := rfl
@[simp] theorem resetState_out : (resetState s).out = State.reset.out := rfl
@[simp] theorem resetState_input : (resetState s).input = s.input := rfl
@[simp] theorem resetState_pending : (resetState s).pending = s.pending := rfl
@[simp] theorem resetState_reply : (resetState s).reply = s.reply := rfl

/-! ### setFreq -/

@[simp] theorem setFreq_phase (sym : Nat) (v : Count) : (s.setFreq sym v).phase = s.phase := rfl
@[simp] theorem setFreq_errcode (sym : Nat) (v : Count) : (s.setFreq sym v).errcode = s.errcode := rfl
@[simp] theorem setFreq_errcmd (sym : Nat) (v : Count) : (s.setFreq sym v).errcmd = s.errcmd := rfl
@[simp] theorem setFreq_freq (sym : Nat) (v : Count) : (s.setFreq sym v).freq = s.freq.write sym v := rfl
@[simp] theorem setFreq_len (sym : Nat) (v : Count) : (s.setFreq sym v).len = s.len := rfl
@[simp] theorem setFreq_node (sym : Nat) (v : Count) : (s.setFreq sym v).node = s.node := rfl
@[simp] theorem setFreq_nodeCount (sym : Nat) (v : Count) : (s.setFreq sym v).nodeCount = s.nodeCount := rfl
@[simp] theorem setFreq_root (sym : Nat) (v : Count) : (s.setFreq sym v).root = s.root := rfl
@[simp] theorem setFreq_rootValid (sym : Nat) (v : Count) : (s.setFreq sym v).rootValid = s.rootValid := rfl
@[simp] theorem setFreq_codeValid (sym : Nat) (v : Count) : (s.setFreq sym v).codeValid = s.codeValid := rfl
@[simp] theorem setFreq_codeLen (sym : Nat) (v : Count) : (s.setFreq sym v).codeLen = s.codeLen := rfl
@[simp] theorem setFreq_codeBits (sym : Nat) (v : Count) : (s.setFreq sym v).codeBits = s.codeBits := rfl
@[simp] theorem setFreq_cursor (sym : Nat) (v : Count) : (s.setFreq sym v).cursor = s.cursor := rfl
@[simp] theorem setFreq_ipos (sym : Nat) (v : Count) : (s.setFreq sym v).ipos = s.ipos := rfl
@[simp] theorem setFreq_out (sym : Nat) (v : Count) : (s.setFreq sym v).out = s.out := rfl
@[simp] theorem setFreq_input (sym : Nat) (v : Count) : (s.setFreq sym v).input = s.input := rfl
@[simp] theorem setFreq_pending (sym : Nat) (v : Count) : (s.setFreq sym v).pending = s.pending := rfl
@[simp] theorem setFreq_reply (sym : Nat) (v : Count) : (s.setFreq sym v).reply = s.reply := rfl

/-! ### setNode -/

@[simp] theorem setNode_phase (i : Index) (n : Node) : (s.setNode i n).phase = s.phase := rfl
@[simp] theorem setNode_errcode (i : Index) (n : Node) : (s.setNode i n).errcode = s.errcode := rfl
@[simp] theorem setNode_errcmd (i : Index) (n : Node) : (s.setNode i n).errcmd = s.errcmd := rfl
@[simp] theorem setNode_freq (i : Index) (n : Node) : (s.setNode i n).freq = s.freq := rfl
@[simp] theorem setNode_len (i : Index) (n : Node) : (s.setNode i n).len = s.len := rfl
@[simp] theorem setNode_node (i : Index) (n : Node) : (s.setNode i n).node = s.node.write i.toNat n := rfl
@[simp] theorem setNode_nodeCount (i : Index) (n : Node) : (s.setNode i n).nodeCount = s.nodeCount := rfl
@[simp] theorem setNode_root (i : Index) (n : Node) : (s.setNode i n).root = s.root := rfl
@[simp] theorem setNode_rootValid (i : Index) (n : Node) : (s.setNode i n).rootValid = s.rootValid := rfl
@[simp] theorem setNode_codeValid (i : Index) (n : Node) : (s.setNode i n).codeValid = s.codeValid := rfl
@[simp] theorem setNode_codeLen (i : Index) (n : Node) : (s.setNode i n).codeLen = s.codeLen := rfl
@[simp] theorem setNode_codeBits (i : Index) (n : Node) : (s.setNode i n).codeBits = s.codeBits := rfl
@[simp] theorem setNode_cursor (i : Index) (n : Node) : (s.setNode i n).cursor = s.cursor := rfl
@[simp] theorem setNode_ipos (i : Index) (n : Node) : (s.setNode i n).ipos = s.ipos := rfl
@[simp] theorem setNode_out (i : Index) (n : Node) : (s.setNode i n).out = s.out := rfl
@[simp] theorem setNode_input (i : Index) (n : Node) : (s.setNode i n).input = s.input := rfl
@[simp] theorem setNode_pending (i : Index) (n : Node) : (s.setNode i n).pending = s.pending := rfl
@[simp] theorem setNode_reply (i : Index) (n : Node) : (s.setNode i n).reply = s.reply := rfl

/-! ### setCode -/

@[simp] theorem setCode_phase (sym : Nat) (q : Bits) : (s.setCode sym q).phase = s.phase := rfl
@[simp] theorem setCode_errcode (sym : Nat) (q : Bits) : (s.setCode sym q).errcode = s.errcode := rfl
@[simp] theorem setCode_errcmd (sym : Nat) (q : Bits) : (s.setCode sym q).errcmd = s.errcmd := rfl
@[simp] theorem setCode_freq (sym : Nat) (q : Bits) : (s.setCode sym q).freq = s.freq := rfl
@[simp] theorem setCode_len (sym : Nat) (q : Bits) : (s.setCode sym q).len = s.len := rfl
@[simp] theorem setCode_node (sym : Nat) (q : Bits) : (s.setCode sym q).node = s.node := rfl
@[simp] theorem setCode_nodeCount (sym : Nat) (q : Bits) : (s.setCode sym q).nodeCount = s.nodeCount := rfl
@[simp] theorem setCode_root (sym : Nat) (q : Bits) : (s.setCode sym q).root = s.root := rfl
@[simp] theorem setCode_rootValid (sym : Nat) (q : Bits) : (s.setCode sym q).rootValid = s.rootValid := rfl
@[simp] theorem setCode_codeValid (sym : Nat) (q : Bits) : (s.setCode sym q).codeValid = s.codeValid.write sym true := rfl
@[simp] theorem setCode_codeLen (sym : Nat) (q : Bits) : (s.setCode sym q).codeLen = s.codeLen.write sym (BitVec.ofNat 9 q.length) := rfl
@[simp] theorem setCode_codeBits (sym : Nat) (q : Bits) : (s.setCode sym q).codeBits = s.codeBits.write sym (BitVec.ofNat 256 (packCode q)) := rfl
@[simp] theorem setCode_cursor (sym : Nat) (q : Bits) : (s.setCode sym q).cursor = s.cursor := rfl
@[simp] theorem setCode_ipos (sym : Nat) (q : Bits) : (s.setCode sym q).ipos = s.ipos := rfl
@[simp] theorem setCode_out (sym : Nat) (q : Bits) : (s.setCode sym q).out = s.out := rfl
@[simp] theorem setCode_input (sym : Nat) (q : Bits) : (s.setCode sym q).input = s.input := rfl
@[simp] theorem setCode_pending (sym : Nat) (q : Bits) : (s.setCode sym q).pending = s.pending := rfl
@[simp] theorem setCode_reply (sym : Nat) (q : Bits) : (s.setCode sym q).reply = s.reply := rfl

/-! ### Reset -/

/-- ResetState() leaves the power-on state but for IN and the host's side (rules R230, R231). -/
theorem resetState_eq :
    resetState s = { State.reset with input := s.input, pending := s.pending, reply := s.reply } := rfl

end Sys2Proof.Machine
end

