-- ==== Sys2Proof/Laws/Cmd.lean ====
section
/-! SUPPORT. Running a command's pseudocode line by line: what `>>=` does after each shared operation, and what
`command` answers (60_exceptions.md rule R202). -/

namespace Sys2Proof.Machine

variable {α β : Type}

theorem bind_ok {x : Cmd α} {f : α → Cmd β} {s t : State} {a : α} (h : x s = .ok a t) : (x >>= f) s = f a t := by
  simp only [bind, EStateM.bind, h]

theorem bind_error {x : Cmd α} {f : α → Cmd β} {s t : State} {e : Stop} (h : x s = .error e t) :
    (x >>= f) s = .error e t := by simp only [bind, EStateM.bind, h]

/-- A sequence that ends without a stop ran its first part, and then its second. -/
theorem bind_eq_ok {x : Cmd α} {f : α → Cmd β} {s u : State} {b : β} :
    (x >>= f) s = .ok b u ↔ ∃ a t, x s = .ok a t ∧ f a t = .ok b u := by
  simp only [bind, EStateM.bind]
  cases x s <;> simp

/-- A sequence that stops stopped in its first part, or in its second. -/
theorem bind_eq_error {x : Cmd α} {f : α → Cmd β} {s u : State} {e : Stop} :
    (x >>= f) s = .error e u ↔ x s = .error e u ∨ ∃ a t, x s = .ok a t ∧ f a t = .error e u := by
  simp only [bind, EStateM.bind]
  cases x s <;> simp

@[simp] theorem pure_run (a : α) (s : State) : (pure a : Cmd α) s = .ok a s := rfl

@[simp] theorem getState_bind (f : State → Cmd β) (s : State) : (getState >>= f) s = f s s := rfl

@[simp] theorem update_run (g : State → State) (s : State) : update g s = .ok () (g s) := rfl

@[simp] theorem update_bind (g : State → State) (f : Unit → Cmd β) (s : State) : (update g >>= f) s = f () (g s) := rfl

@[simp] theorem raise_run (e : Error) (s : State) : (raise e : Cmd α) s = .error (.raised e) s := rfl

@[simp] theorem stuck_run (e : Fault) (s : State) : (stuck e : Cmd α) s = .error (.stuck e) s := rfl

@[simp] theorem pure_bind_run (a : α) (f : α → Cmd β) (s : State) : ((pure a : Cmd α) >>= f) s = f a s := rfl

@[simp] theorem raise_bind (e : Error) (f : α → Cmd β) (s : State) :
    ((raise e : Cmd α) >>= f) s = .error (.raised e) s := rfl

@[simp] theorem stuck_bind (e : Fault) (f : α → Cmd β) (s : State) :
    ((stuck e : Cmd α) >>= f) s = .error (.stuck e) s := rfl

@[simp] theorem writeBits_bind (n v : Nat) (f : Unit → Cmd β) (s : State) :
    (writeBits n v >>= f) s = f () { s with out := s.out ++ bitsOfNat n v } := rfl

@[simp] theorem writeBits_run (n v : Nat) (s : State) :
    writeBits n v s = .ok () { s with out := s.out ++ bitsOfNat n v } := rfl

@[simp] theorem emitCode_bind (sym : Nat) (f : Unit → Cmd β) (s : State) :
    (emitCode sym >>= f) s = f () { s with out := s.out ++ s.codeOf sym } := rfl

@[simp] theorem changeNode_bind (i : Index) (g : Node → Node) (f : Unit → Cmd β) (s : State) :
    (changeNode i g >>= f) s = f () (s.setNode i (g (s.nodeAt i))) := rfl

theorem visitNode_run {i : Index} (h : i.toNat < Config.nodeCap) (s : State) :
    visitNode i s = .ok (s.nodeAt i) s := by simp [visitNode, h]

theorem readBits_eod {n : Nat} {s : State} (h : s.input.length < s.ipos.toNat + n) :
    readBits n s = .ok none { s with ipos := BitVec.ofNat 48 s.input.length } := by
  simp [readBits, h]

theorem readBits_some {n : Nat} {s : State} (h : s.ipos.toNat + n ≤ s.input.length) :
    readBits n s = .ok (some (natOfBits ((s.input.drop s.ipos.toNat).take n)))
      { s with ipos := s.ipos + BitVec.ofNat 48 n } := by
  simp [readBits, Nat.not_lt.mpr h]

theorem alloc_run {n : Node} {s : State} (h : s.nodeCount.toNat ≠ Config.nodeCap) :
    alloc n s = .ok s.nodeCount { s.setNode s.nodeCount n with nodeCount := s.nodeCount + 1 } := by
  simp only [alloc, if_neg h]

theorem alloc_full {n : Node} {s : State} (h : s.nodeCount.toNat = Config.nodeCap) :
    alloc n s = .error (.raised .capacityExceeded) s := by
  simp only [alloc, if_pos h]

/-! ### The frame of a command -/

/-- A legal command in a phase that admits it runs its pseudocode. -/
theorem command_runs {i : Instr} {body : Cmd Value} {s : State} (ho : operandsLegal i s = true)
    (he : s.phase ≠ .error) (hl : legalIn i s.phase = true) : command i body s = conclude i.opcode (body s) := by
  simp [command, ho, he, hl]

/-- A command that every phase admits runs its pseudocode in every phase (rules R172, R203). -/
theorem command_runs_always {i : Instr} {body : Cmd Value} {s : State} (ho : operandsLegal i s = true)
    (hr : runsInError i = true) (hl : ∀ p, legalIn i p = true) :
    command i body s = conclude i.opcode (body s) := by
  simp [command, ho, hr, hl]

theorem command_sequence {i : Instr} {body : Cmd Value} {s : State} (ho : operandsLegal i s = true)
    (he : s.phase ≠ .error) (hl : legalIn i s.phase = false) :
    command i body s = .next (enterError i.opcode .sequence s) := by
  simp [command, ho, he, hl]

theorem command_halted {i : Instr} {body : Cmd Value} {s : State} (ho : operandsLegal i s = true)
    (he : s.phase = .error) (hr : runsInError i = false) :
    command i body s = .next (respond haltedStatus 0 s) := by
  simp [command, ho, he, hr]

theorem command_illegal {i : Instr} {body : Cmd Value} {s : State} (ho : operandsLegal i s = false) :
    command i body s = .next (illegalWord i.opcode s) := by
  simp [command, ho]

/-- All that a command can do when it answers a next state (rule R202). -/
theorem command_next {i : Instr} {body : Cmd Value} {s t : State} (h : command i body s = .next t) :
    (operandsLegal i s = false ∧ t = illegalWord i.opcode s) ∨
    (operandsLegal i s = true ∧ s.phase = .error ∧ runsInError i = false ∧ t = respond haltedStatus 0 s) ∨
    (operandsLegal i s = true ∧ s.phase ≠ .error ∧ legalIn i s.phase = false ∧ t = enterError i.opcode .sequence s) ∨
    (operandsLegal i s = true ∧ (s.phase = .error → runsInError i = true) ∧
      (s.phase ≠ .error → legalIn i s.phase = true) ∧
      ((∃ v u, body s = .ok v u ∧ t = respond okStatus v u) ∨
        ∃ e u, body s = .error (.raised e) u ∧ t = enterError i.opcode e u)) := by
  have hc : ∀ r : EStateM.Result Stop State Value, conclude i.opcode r = .next t →
      (∃ v u, r = .ok v u ∧ t = respond okStatus v u) ∨
        ∃ e u, r = .error (.raised e) u ∧ t = enterError i.opcode e u := by
    intro r hr
    rcases r with ⟨v, u⟩ | ⟨e | f, u⟩ <;> simp_all [conclude]
  unfold command at h
  split_ifs at h with h1 h2 h3 h4
  · exact .inr (.inr (.inr ⟨h1, fun _ => h3, fun h => absurd h2 h, hc _ h⟩))
  · exact .inr (.inl ⟨h1, h2, by simpa using h3, by simpa using h.symm⟩)
  · exact .inr (.inr (.inr ⟨h1, fun h => absurd h h2, fun _ => h4, hc _ h⟩))
  · exact .inr (.inr (.inl ⟨h1, h2, by simpa using h4, by simpa using h.symm⟩))
  · exact .inl ⟨by simpa using h1, by simpa using h.symm⟩

/-- A command stops in a stuck state only where its pseudocode does. -/
theorem command_fault {i : Instr} {body : Cmd Value} {s : State} {f : Fault} (h : command i body s = .fault f) :
    ∃ u, body s = .error (.stuck f) u := by
  have hc : ∀ r : EStateM.Result Stop State Value, conclude i.opcode r = .fault f → ∃ u, r = .error (.stuck f) u := by
    intro r hr
    rcases r with ⟨v, u⟩ | ⟨e | f, u⟩ <;> simp_all [conclude]
  unfold command at h
  split_ifs at h
  all_goals exact hc _ h

/-- No command is refused. -/
theorem command_not_refused {i : Instr} {body : Cmd Value} {s : State} {r : Refusal} :
    command i body s ≠ .refused r := by
  have hc : ∀ x : EStateM.Result Stop State Value, conclude i.opcode x ≠ .refused r := by
    intro x; rcases x with ⟨v, u⟩ | ⟨e | f, u⟩ <;> simp [conclude]
  unfold command
  split_ifs <;> simp [hc]

end Sys2Proof.Machine
end

