-- ==== Sys2Proof/Laws/Bits.lean ====
section
/-! SUPPORT. Bits and numbers: values in the order they cross a port (20_memory.md rules R53 to R55), and packed codes
(10_state.md rule R31). -/

namespace Sys2Proof.Machine

@[simp] theorem bitsOfNat_length (n v : Nat) : (bitsOfNat n v).length = n := by
  induction n <;> simp_all [bitsOfNat]

@[simp] theorem msbFirst_length {n : Nat} (v : BitVec n) : (msbFirst v).length = n := by simp [msbFirst]

theorem bitsOfNat_eq_map (n v : Nat) : bitsOfNat n v = (List.range n).map fun k => v.testBit (n - 1 - k) := by
  induction n with
  | zero => rfl
  | succ n ih =>
    rw [bitsOfNat, List.range_succ_eq_map, List.map_cons, List.map_map, ih]
    congr 1
    apply List.map_congr_left
    intro k hk
    have := List.mem_range.mp hk
    simp only [Function.comp_apply, Nat.succ_eq_add_one]
    congr 1
    omega

theorem bitsOfNat_toNat {n : Nat} (v : BitVec n) : bitsOfNat n v.toNat = msbFirst v := by
  rw [bitsOfNat_eq_map]; rfl

theorem natOfBits_append (p q : Bits) : natOfBits (p ++ q) = natOfBits p * 2 ^ q.length + natOfBits q := by
  induction p with
  | nil => simp [natOfBits]
  | cons b p ih => simp only [List.cons_append, natOfBits, ih, List.length_append, pow_add]; ring

theorem natOfBits_lt (q : Bits) : natOfBits q < 2 ^ q.length := by
  induction q with
  | nil => simp [natOfBits]
  | cons b q ih =>
    have : b.toNat ≤ 1 := by cases b <;> decide
    simp only [natOfBits, List.length_cons, pow_succ]
    nlinarith

/-- Reading back the bits of a number gives the number. -/
theorem natOfBits_bitsOfNat (n v : Nat) : natOfBits (bitsOfNat n v) = v % 2 ^ n := by
  induction n with
  | zero => simp [bitsOfNat, natOfBits, Nat.mod_one]
  | succ n ih =>
    rw [bitsOfNat, natOfBits, ih, bitsOfNat_length, Nat.testBit_eq_decide_div_mod_eq, Nat.mod_pow_succ]
    have : v / 2 ^ n % 2 = 0 ∨ v / 2 ^ n % 2 = 1 := by omega
    rcases this with h | h <;> simp [h, add_comm]

@[simp] theorem natOfBits_msbFirst {n : Nat} (v : BitVec n) : natOfBits (msbFirst v) = v.toNat := by
  rw [← bitsOfNat_toNat, natOfBits_bitsOfNat, Nat.mod_eq_of_lt v.isLt]

/-- Bits are determined by their length and their number. -/
theorem bits_eq_of_natOfBits {p q : Bits} (hl : p.length = q.length) (hn : natOfBits p = natOfBits q) : p = q := by
  induction p generalizing q with
  | nil => cases q <;> simp_all
  | cons b p ih =>
    cases q with
    | nil => simp at hl
    | cons c q =>
      have hl' : p.length = q.length := by simpa using hl
      simp only [natOfBits, hl'] at hn
      have h1 := natOfBits_lt p
      have h2 := natOfBits_lt q
      rw [hl'] at h1
      have hbc : b = c := by
        cases b <;> cases c <;> simp at hn ⊢ <;> omega
      subst hbc
      rw [ih hl' (by omega)]

/-- Any `n` bits are those of a value. -/
theorem exists_msbFirst {n : Nat} {q : Bits} (h : q.length = n) : ∃ v : BitVec n, q = msbFirst v := by
  refine ⟨BitVec.ofNat n (natOfBits q), bits_eq_of_natOfBits (by simp [h]) ?_⟩
  have := natOfBits_lt q
  rw [h] at this
  simp [Nat.mod_eq_of_lt this]

theorem msbFirst_injective {n : Nat} {v w : BitVec n} (h : msbFirst v = msbFirst w) : v = w :=
  BitVec.eq_of_toNat_eq (by rw [← natOfBits_msbFirst v, h, natOfBits_msbFirst])

theorem packCode_lt (q : Bits) : packCode q < 2 ^ q.length := by
  induction q with
  | nil => simp [packCode]
  | cons b q ih =>
    have : b.toNat ≤ 1 := by cases b <;> decide
    simp only [packCode, List.length_cons, pow_succ]; omega

theorem packCode_testBit (q : Bits) (k : Nat) : (packCode q).testBit k = q.getD k false := by
  induction q generalizing k with
  | nil => simp [packCode]
  | cons b q ih =>
    cases k with
    | zero =>
      rw [packCode, Nat.testBit_zero]
      cases b <;> simp
    | succ k =>
      rw [packCode, Nat.testBit_succ]
      have : (b.toNat + 2 * packCode q) / 2 = packCode q := by
        have : b.toNat ≤ 1 := by cases b <;> decide
        omega
      rw [this, ih]; simp

/-- A code read bit by bit from CODE_BITS is the code that was packed into it (rule R31). -/
theorem unpack_packCode (q : Bits) (h : q.length ≤ 256) :
    (List.range q.length).map (BitVec.ofNat 256 (packCode q)).getLsbD = q := by
  apply List.ext_getElem (by simp)
  intro k h1 h2
  simp only [List.getElem_map, List.getElem_range, BitVec.getLsbD_ofNat, packCode_testBit]
  have : k < 256 := by omega
  simp [this, h2]

theorem packCode_above (q : Bits) {k : Nat} (h : q.length ≤ k) :
    (BitVec.ofNat 256 (packCode q)).getLsbD k = false := by
  simp [BitVec.getLsbD_ofNat, packCode_testBit, h]

/-! ### Whole bytes of a bit sequence -/

/-- Any bits are whole bytes and a rest of fewer than 8 bits. -/
theorem exists_bytes (q : Bits) :
    ∃ (bs : List (BitVec 8)) (rest : Bits), q = bs.flatMap msbFirst ++ rest ∧ rest.length < 8 := by
  induction h : q.length using Nat.strong_induction_on generalizing q with
  | _ n ih =>
    by_cases hn : q.length < 8
    · exact ⟨[], q, by simp, hn⟩
    · obtain ⟨v, hv⟩ := exists_msbFirst (n := 8) (q := q.take 8) (by simp; omega)
      obtain ⟨bs, rest, h1, h2⟩ := ih (q.drop 8).length (by simp; omega) (q.drop 8) rfl
      refine ⟨v :: bs, rest, ?_, h2⟩
      rw [List.flatMap_cons, ← hv, List.append_assoc, ← h1, List.take_append_drop]

@[simp] theorem flatMap_msbFirst_length (bs : List (BitVec 8)) : (bs.flatMap msbFirst).length = 8 * bs.length := by
  induction bs with
  | nil => rfl
  | cons b bs ih => simp [List.flatMap_cons, ih]; omega

end Sys2Proof.Machine
end

