-- ==== Sys2Proof/Laws/Decode.lean ====
section
/-! SUPPORT. The fields of an encoded word (30_encoding.md rule R72). -/

namespace Sys2Proof

/-- Concatenation as a number (rule R11). -/
theorem toNat_append_add {m n : Nat} (x : BitVec m) (y : BitVec n) :
    (x ++ y).toNat = y.toNat + x.toNat * 2 ^ n := by
  rw [BitVec.toNat_append, ← Nat.shiftLeft_add_eq_or_of_lt y.isLt, Nat.shiftLeft_eq, Nat.add_comm]

/-- The word as the number of rule R72. -/
theorem encode_toNat (i : Instr) :
    (encode i).toNat = i.opcode.toNat + i.operandA.toNat * 2 ^ 8 + i.operandB.toNat * 2 ^ 18 := by
  unfold encode
  rw [toNat_append_add, toNat_append_add, toNat_append_add]
  simp
  omega

theorem opField_toNat (w : Word) : (opField w).toNat = w.toNat % 2 ^ 8 := by
  simp [opField]

theorem aField_toNat (w : Word) : (aField w).toNat = w.toNat / 2 ^ 8 % 2 ^ 10 := by
  simp [aField, Nat.shiftRight_eq_div_pow]

theorem bField_toNat (w : Word) : (bField w).toNat = w.toNat / 2 ^ 18 % 2 ^ 8 := by
  simp [bField, Nat.shiftRight_eq_div_pow]

theorem rsvField_toNat (w : Word) : (rsvField w).toNat = w.toNat / 2 ^ 26 % 2 ^ 6 := by
  simp [rsvField, Nat.shiftRight_eq_div_pow]

@[simp] theorem opField_encode (i : Instr) : opField (encode i) = i.opcode := by
  apply BitVec.eq_of_toNat_eq
  have h1 := i.opcode.isLt
  rw [opField_toNat, encode_toNat]
  omega

@[simp] theorem aField_encode (i : Instr) : aField (encode i) = i.operandA := by
  apply BitVec.eq_of_toNat_eq
  have h1 := i.opcode.isLt
  have h2 := i.operandA.isLt
  rw [aField_toNat, encode_toNat]
  omega

@[simp] theorem bField_encode (i : Instr) : bField (encode i) = i.operandB := by
  apply BitVec.eq_of_toNat_eq
  have h1 := i.opcode.isLt
  have h2 := i.operandA.isLt
  have h3 := i.operandB.isLt
  rw [bField_toNat, encode_toNat]
  omega

@[simp] theorem rsvField_encode (i : Instr) : rsvField (encode i) = 0 := by
  apply BitVec.eq_of_toNat_eq
  have h1 := i.opcode.isLt
  have h2 := i.operandA.isLt
  have h3 := i.operandB.isLt
  rw [rsvField_toNat, encode_toNat]
  simp
  omega

/-- A word with RSV = 0 is made of its other fields (rule R72). -/
theorem word_eq_of_fields {w v : Word} (ho : opField w = opField v) (ha : aField w = aField v)
    (hb : bField w = bField v) (hr : rsvField w = rsvField v) : w = v := by
  apply BitVec.eq_of_toNat_eq
  have h1 := congrArg BitVec.toNat ho
  have h2 := congrArg BitVec.toNat ha
  have h3 := congrArg BitVec.toNat hb
  have h4 := congrArg BitVec.toNat hr
  rw [opField_toNat, opField_toNat] at h1
  rw [aField_toNat, aField_toNat] at h2
  rw [bField_toNat, bField_toNat] at h3
  rw [rsvField_toNat, rsvField_toNat] at h4
  have := w.isLt
  have := v.isLt
  omega

/-- Decoding an encoded command reads the opcode map at its own row. -/
theorem decode_encode_eq (i : Instr) : decode (encode i) = decodeOp i.opcode i.operandA i.operandB := by
  simp [decode]

end Sys2Proof
end

