-- ==== Sys2Proof/Laws/Tries.lean ====
section
/-! SUPPORT. Tries as trees (30_encoding.md rules R81, R83) and tries in the arena (10_state.md rule R27): sizes, codes, and
why a descent of 513 nodes is deep enough. -/

namespace Sys2Proof.Machine

namespace Trie

theorem size_pos (t : Trie) : 0 < t.size := by cases t <;> simp only [size] <;> omega

theorem symbols_length_pos (t : Trie) : 0 < t.symbols.length := by
  induction t with
  | leaf s => simp [symbols]
  | node l r ihl ihr => simp [symbols]; omega

theorem size_eq (t : Trie) : t.size + 1 = 2 * t.symbols.length := by
  induction t with
  | leaf s => simp [size, symbols]
  | node l r ihl ihr => simp [size, symbols]; omega

theorem depth_lt_leaves (t : Trie) : t.depth < t.symbols.length := by
  induction t with
  | leaf s => simp [depth, symbols]
  | node l r ihl ihr =>
    have := l.symbols_length_pos
    have := r.symbols_length_pos
    simp only [depth, symbols, List.length_append]; omega

theorem header_length_pos (t : Trie) : 0 < t.header.length := by cases t <;> simp [header]

@[simp] theorem preorder_length (n : Nat) (t : Trie) : (t.preorder n).length = t.size := by
  induction t generalizing n with
  | leaf s => simp [preorder, size]
  | node l r ihl ihr => simp [preorder, size, ihl, ihr]; omega

/-- The codes of a trie are the codes of its symbols, from left to right. -/
@[simp] theorem codes_fst (t : Trie) : t.codes.map Prod.fst = t.symbols := by
  induction t with
  | leaf s => simp [codes, symbols]
  | node l r ihl ihr =>
    simp only [codes, symbols, List.map_append, List.map_map, ← ihl, ← ihr]
    rfl

theorem mem_symbols_of_mem_codes {t : Trie} {c : Nat × Bits} (h : c ∈ t.codes) : c.1 ∈ t.symbols := by
  rw [← codes_fst]; exact List.mem_map_of_mem h

theorem exists_code {t : Trie} {sym : Nat} (h : sym ∈ t.symbols) : ∃ q, (sym, q) ∈ t.codes := by
  rw [← codes_fst] at h
  obtain ⟨⟨a, q⟩, hc, rfl⟩ := List.mem_map.mp h
  exact ⟨q, hc⟩

theorem code_length_le {t : Trie} {c : Nat × Bits} (h : c ∈ t.codes) : c.2.length ≤ t.depth := by
  induction t generalizing c with
  | leaf s => simp_all [codes, depth]
  | node l r ihl ihr =>
    simp only [codes, List.mem_append, List.mem_map] at h
    rcases h with ⟨d, hd, rfl⟩ | ⟨d, hd, rfl⟩
    · have := ihl hd; simp [depth]; omega
    · have := ihr hd; simp [depth]; omega

/-- Two paths to leaves of one trie, one a prefix of the other, lead to the same leaf: no code is a proper prefix of
another, and no two leaves have the same code. -/
theorem code_prefix {t : Trie} {c d : Nat × Bits} (hc : c ∈ t.codes) (hd : d ∈ t.codes) (h : c.2 <+: d.2) :
    c = d := by
  induction t generalizing c d with
  | leaf s => simp_all [codes]
  | node l r ihl ihr =>
    simp only [codes, List.mem_append, List.mem_map] at hc hd
    rcases hc with ⟨c', hc, rfl⟩ | ⟨c', hc, rfl⟩ <;> rcases hd with ⟨d', hd, rfl⟩ | ⟨d', hd, rfl⟩
    · have h := ihl hc hd (by simpa using h)
      rw [h]
    · simp at h
    · simp at h
    · have h := ihr hc hd (by simpa using h)
      rw [h]

/-- Where each symbol has one leaf, its code is determined. -/
theorem code_unique {t : Trie} (hn : t.symbols.Nodup) {sym : Nat} {p q : Bits} (hp : (sym, p) ∈ t.codes)
    (hq : (sym, q) ∈ t.codes) : p = q := by
  rw [← codes_fst] at hn
  have := List.inj_on_of_nodup_map hn hp hq rfl
  simpa using this

/-- Kraft's equality, times 2^n (rule R121 item 2). -/
theorem kraft {t : Trie} {n : Nat} (h : t.depth ≤ n) : (t.codes.map fun c => 2 ^ (n - c.2.length)).sum = 2 ^ n := by
  induction t generalizing n with
  | leaf s => simp [codes]
  | node l r ihl ihr =>
    obtain ⟨m, rfl⟩ : ∃ m, n = m + 1 := ⟨n - 1, by simp [depth] at h; omega⟩
    have hl : l.depth ≤ m := by simp [depth] at h; omega
    have hr : r.depth ≤ m := by simp [depth] at h; omega
    simp only [codes, List.map_append, List.map_map, List.sum_append, Function.comp_def, List.length_cons,
      Nat.add_sub_add_right, ihl hl, ihr hr, pow_succ]
    ring

/-- A header says which trie it is the header of, and where it ends (rule R83). -/
theorem header_append_inj {t u : Trie} {p q : Bits} (h : t.header ++ p = u.header ++ q) : t = u ∧ p = q := by
  induction t generalizing u p q with
  | leaf s =>
    cases u with
    | leaf s' =>
      simp only [header, List.cons_append, List.cons.injEq, true_and] at h
      obtain ⟨h1, h2⟩ := List.append_inj h (by simp)
      exact ⟨by rw [msbFirst_injective h1], h2⟩
    | node l r => simp [header] at h
  | node l r ihl ihr =>
    cases u with
    | leaf s' => simp [header] at h
    | node l' r' =>
      simp only [header, List.cons_append, List.cons.injEq, true_and, List.append_assoc] at h
      obtain ⟨rfl, h'⟩ := ihl h
      obtain ⟨rfl, h''⟩ := ihr h'
      exact ⟨rfl, h''⟩

end Trie

variable {s t : State} {trie : Trie} {i : Index}

/-! ### Tries in the arena -/

theorem holds_lt (h : s.holds trie i) : i.toNat < Config.nodeCap := by
  cases trie with
  | leaf _ => exact h.1
  | node _ _ => exact h.1

/-- What is held is the arena's alone. -/
theorem holds_congr (h : t.node = s.node) : t.holds trie i ↔ s.holds trie i := by
  have hn : t.nodeAt = s.nodeAt := by funext j; simp [State.nodeAt, h]
  induction trie generalizing i with
  | leaf sym => simp [State.holds, hn]
  | node l r ihl ihr => simp [State.holds, hn, ihl, ihr]

theorem weighs_congr (h : t.node = s.node) (hf : t.freq = s.freq) : t.weighs trie i ↔ s.weighs trie i := by
  have hn : t.nodeAt = s.nodeAt := by funext j; simp [State.nodeAt, h]
  have hq : t.freqAt = s.freqAt := by funext j; simp [State.freqAt, hf]
  induction trie generalizing i with
  | leaf sym => simp [State.weighs, hn, hq]
  | node l r ihl ihr => simp [State.weighs, hn, ihl, ihr]

theorem follow_congr (h : t.node = s.node) (q : Bits) : t.follow i q = s.follow i q := by
  have hn : t.nodeAt = s.nodeAt := by funext j; simp [State.nodeAt, h]
  induction q generalizing i with
  | nil => rfl
  | cons b q ih => simp [State.follow, hn, ih]

/-- An entry is the root of one trie only. -/
theorem holds_unique {u : Trie} (h : s.holds trie i) (k : s.holds u i) : trie = u := by
  induction trie generalizing u i with
  | leaf sym =>
    cases u with
    | leaf sym' => simp_all [State.holds]
    | node l r => simp_all [State.holds]
  | node l r ihl ihr =>
    cases u with
    | leaf sym' => simp_all [State.holds]
    | node l' r' =>
      rw [ihl h.2.2.1 k.2.2.1, ihr h.2.2.2 k.2.2.2]

/-- A longest path down a trie meets entries that are all different. -/
theorem holds_path (h : s.holds trie i) : ∃ p : List Index, p.length = trie.depth + 1 ∧ p.Nodup ∧
    ∀ j ∈ p, j.toNat < Config.nodeCap ∧ ∃ u : Trie, s.holds u j ∧ u.size ≤ trie.size := by
  induction trie generalizing i with
  | leaf sym => exact ⟨[i], rfl, by simp, by simpa using ⟨holds_lt h, _, h, le_refl _⟩⟩
  | node l r ihl ihr =>
    have step : ∀ (u : Trie) (j : Index), s.holds u j → u.size < (Trie.node l r).size → u.depth = max l.depth r.depth →
        (∃ p : List Index, p.length = u.depth + 1 ∧ p.Nodup ∧
          ∀ j ∈ p, j.toNat < Config.nodeCap ∧ ∃ v : Trie, s.holds v j ∧ v.size ≤ u.size) →
        ∃ p : List Index, p.length = (Trie.node l r).depth + 1 ∧ p.Nodup ∧
          ∀ j ∈ p, j.toNat < Config.nodeCap ∧ ∃ v : Trie, s.holds v j ∧ v.size ≤ (Trie.node l r).size := by
      rintro u j hu hs hd ⟨p, h1, h2, h3⟩
      refine ⟨i :: p, by simp [h1, hd, Trie.depth]; omega, List.nodup_cons.mpr ⟨?_, h2⟩, ?_⟩
      · intro hi
        obtain ⟨_, v, hv, hvs⟩ := h3 i hi
        rw [holds_unique hv h] at hvs
        omega
      · intro k hk
        rcases List.mem_cons.mp hk with rfl | hk
        · exact ⟨holds_lt h, _, h, le_refl _⟩
        · obtain ⟨a, v, b, c⟩ := h3 k hk
          exact ⟨a, v, b, by omega⟩
    have hl := l.size_pos
    have hr := r.size_pos
    rcases Nat.le_total l.depth r.depth with hd | hd
    · exact step r _ h.2.2.2 (by simp only [Trie.size]; omega) (by omega) (ihr h.2.2.2)
    · exact step l _ h.2.2.1 (by simp only [Trie.size]; omega) (by omega) (ihl h.2.2.1)

/-- A trie in the arena is less than 513 edges deep. -/
theorem holds_depth (h : s.holds trie i) : trie.depth < Config.nodeCap := by
  obtain ⟨p, h1, h2, h3⟩ := holds_path h
  have hn : (p.map BitVec.toNat).Nodup := h2.map fun a b hab => BitVec.eq_of_toNat_eq hab
  have hs : p.map BitVec.toNat ⊆ List.range Config.nodeCap := by
    intro k hk
    obtain ⟨j, hj, rfl⟩ := List.mem_map.mp hk
    exact List.mem_range.mpr (h3 j hj).1
  have := (List.subperm_of_subset hn hs).length_le
  simp at this
  omega

/-- Following a symbol's code from the root of a trie ends at that symbol's leaf (rule R121 item 3). -/
theorem follow_code (h : s.holds trie i) {c : Nat × Bits} (hc : c ∈ trie.codes) :
    (s.nodeAt (s.follow i c.2)).leaf = true ∧ (s.nodeAt (s.follow i c.2)).sym.toNat = c.1 := by
  induction trie generalizing i c with
  | leaf sym =>
    simp only [Trie.codes, List.mem_singleton] at hc
    subst hc
    exact ⟨h.2.1, by rw [State.follow, h.2.2]⟩
  | node l r ihl ihr =>
    simp only [Trie.codes, List.mem_append, List.mem_map] at hc
    rcases hc with ⟨d, hd, rfl⟩ | ⟨d, hd, rfl⟩
    · exact ihl h.2.2.1 hd
    · exact ihr h.2.2.2 hd

end Sys2Proof.Machine
end

