-- ==== Sys2Proof/Laws/Descent.lean ====
section
/-! SUPPORT. What the recursive parts of the pseudocode do: Visit (42_code_table.md rule R120), Write
(43_header_codec.md rule R130), Parse (rule R133), the loop of DEC_STEP (45_body_decoder.md rule R150). -/

namespace Sys2Proof.Machine

variable {s : State} {trie : Trie} {i : Index}

/-! ### Visit -/

/-- The code table after codes are written in it one after the other. -/
def State.setCodes (s : State) (cs : List (Nat × Bits)) : State := cs.foldl (fun s c => s.setCode c.1 c.2) s

@[simp] theorem setCodes_nil : s.setCodes [] = s := rfl

@[simp] theorem setCodes_cons (c : Nat × Bits) (cs : List (Nat × Bits)) :
    s.setCodes (c :: cs) = (s.setCode c.1 c.2).setCodes cs := rfl

theorem setCodes_append (cs ds : List (Nat × Bits)) : s.setCodes (cs ++ ds) = (s.setCodes cs).setCodes ds := by
  simp [State.setCodes, List.foldl_append]

/-- Writing codes changes the code table only. -/
theorem setCodes_frame (s : State) (cs : List (Nat × Bits)) : s.setCodes cs = { s with
    codeValid := (s.setCodes cs).codeValid, codeLen := (s.setCodes cs).codeLen,
    codeBits := (s.setCodes cs).codeBits } := by
  induction cs generalizing s with
  | nil => rfl
  | cons c cs ih => rw [setCodes_cons, ih]; rfl

@[simp] theorem setCodes_node (cs : List (Nat × Bits)) : (s.setCodes cs).node = s.node := by rw [setCodes_frame]

/-- Visit writes the codes of the trie, each behind the path to its root, and counts its leaves. -/
theorem visit_run {d : Nat} {q : Bits} {n : Nat} (h : s.holds trie i) (hd : trie.depth < d) :
    visit d i q n s = .ok (n + trie.symbols.length) (s.setCodes (trie.codes.map fun c => (c.1, q ++ c.2))) := by
  induction trie generalizing d i q n s with
  | leaf sym =>
    obtain ⟨d, rfl⟩ : ∃ e, d = e + 1 := ⟨d - 1, by omega⟩
    rw [visit, bind_ok (visitNode_run (holds_lt h) s), if_pos h.2.1]
    simp [h.2.2, Trie.symbols, Trie.codes]
  | node l r ihl ihr =>
    obtain ⟨d, rfl⟩ : ∃ e, d = e + 1 := ⟨d - 1, by omega⟩
    simp only [Trie.depth] at hd
    rw [visit, bind_ok (visitNode_run (holds_lt h) s), h.2.1, if_neg (by simp),
      bind_ok (ihl h.2.2.1 (by omega)), ihr ((holds_congr (by simp)).mpr h.2.2.2) (by omega), ← setCodes_append]
    simp [Trie.symbols, Trie.codes, Nat.add_assoc, Function.comp_def]

/-- CT_GEN, on the trie at ROOT, writes its codes into an empty table. -/
theorem ctGenBody_run (hh : s.holds trie s.root) : ctGenBody s = .ok (BitVec.ofNat 64 trie.symbols.length)
    { (clearCodes s).setCodes trie.codes with phase := .coded } := by
  have h := visit_run (s := clearCodes s) (q := []) (n := 0)
    ((holds_congr (by rfl)).mpr hh) (holds_depth hh)
  rw [ctGenBody, update_bind, getState_bind]
  refine (bind_ok h).trans ?_
  simp
/-- A code that is not written is left. -/
theorem setCodes_read_other (cs : List (Nat × Bits)) {sym : Nat} (h : sym ∉ cs.map Prod.fst) :
    (s.setCodes cs).codeValidAt sym = s.codeValidAt sym ∧ (s.setCodes cs).codeLenAt sym = s.codeLenAt sym ∧
      (s.setCodes cs).codeBitsAt sym = s.codeBitsAt sym := by
  induction cs generalizing s with
  | nil => simp
  | cons c cs ih =>
    simp only [List.map_cons, List.mem_cons, not_or] at h
    obtain ⟨h1, h2, h3⟩ := ih (s := s.setCode c.1 c.2) h.2
    rw [setCodes_cons, h1, h2, h3]
    have hne : c.1 ≠ sym := fun e => h.1 e.symm
    simp [State.codeValidAt, State.codeLenAt, State.codeBitsAt, State.setCode, RegFile.read_write_other _ _ _ hne]

/-- Each code written, its symbol not written again, is read back. -/
theorem setCodes_read {cs : List (Nat × Bits)} (hn : (cs.map Prod.fst).Nodup) {c : Nat × Bits} (hc : c ∈ cs)
    (h1 : c.1 ≤ 256) :
    (s.setCodes cs).codeValidAt c.1 = true ∧ (s.setCodes cs).codeLenAt c.1 = BitVec.ofNat 9 c.2.length ∧
      (s.setCodes cs).codeBitsAt c.1 = BitVec.ofNat 256 (packCode c.2) := by
  induction cs generalizing s with
  | nil => simp at hc
  | cons d cs ih =>
    simp only [List.map_cons, List.nodup_cons] at hn
    rcases List.mem_cons.mp hc with rfl | hc
    · have hlt : c.1 < Config.nsym := by simp only [Config.nsym]; omega
      obtain ⟨a, b, e⟩ := setCodes_read_other (s := s.setCode c.1 c.2) cs hn.1
      rw [setCodes_cons, a, b, e]
      simp [State.codeValidAt, State.codeLenAt, State.codeBitsAt, State.setCode, RegFile.read_write_same, hlt]
    · exact ih hn.2 hc

/-- … as the code that was written. -/
theorem setCodes_codeOf {cs : List (Nat × Bits)} (hn : (cs.map Prod.fst).Nodup) {c : Nat × Bits} (hc : c ∈ cs)
    (h1 : c.1 ≤ 256) (h2 : c.2.length ≤ 256) : (s.setCodes cs).codeOf c.1 = c.2 := by
  obtain ⟨_, a, b⟩ := setCodes_read (s := s) hn hc h1
  have : (BitVec.ofNat 9 c.2.length).toNat = c.2.length := by simp; omega
  rw [State.codeOf, a, b, this, unpack_packCode _ h2]

/-! ### Write -/

/-- Write appends the header of the trie. -/
theorem writeTrie_run {d : Nat} (h : s.holds trie i) (hd : trie.depth < d) :
    writeTrie d i s = .ok () { s with out := s.out ++ trie.header } := by
  induction trie generalizing d i s with
  | leaf sym =>
    obtain ⟨d, rfl⟩ : ∃ e, d = e + 1 := ⟨d - 1, by omega⟩
    rw [writeTrie, bind_ok (visitNode_run (holds_lt h) s), if_pos h.2.1]
    rw [h.2.2, writeBits_bind, writeBits_run, bitsOfNat_toNat, List.append_assoc]
    rfl
  | node l r ihl ihr =>
    obtain ⟨d, rfl⟩ : ∃ e, d = e + 1 := ⟨d - 1, by omega⟩
    simp only [Trie.depth] at hd
    rw [writeTrie, bind_ok (visitNode_run (holds_lt h) s), h.2.1, if_neg (by simp), writeBits_bind,
      bind_ok (ihl ((holds_congr (by simp)).mpr h.2.2.1) (by omega)),
      ihr ((holds_congr (by simp)).mpr h.2.2.2) (by omega)]
    simp [Trie.header, bitsOfNat]

/-! ### Reading whole values -/

/-- ReadBits on bits that are there reads them. -/
theorem readBits_prefix {n : Nat} {q rest : Bits} (hq : q.length = n) (hn : 0 < n)
    (h : s.input.drop s.ipos.toNat = q ++ rest) :
    readBits n s = .ok (some (natOfBits q)) { s with ipos := s.ipos + BitVec.ofNat 48 n } := by
  have hl := congrArg List.length h
  simp only [List.length_drop, List.length_append] at hl
  rw [readBits_some (by omega), h, List.take_left' hq]

/-- … and leaves the rest of IN. -/
theorem drop_after {n : Nat} {q rest : Bits} (hq : q.length = n) (hl : s.input.length ≤ Config.inMaxBits)
    (h : s.input.drop s.ipos.toNat = q ++ rest) (hn : 0 < n) :
    (s.ipos + BitVec.ofNat 48 n).toNat = s.ipos.toNat + n ∧
      s.input.drop (s.ipos + BitVec.ofNat 48 n).toNat = rest := by
  have hl' := congrArg List.length h
  simp only [List.length_drop, List.length_append, Config.inMaxBits] at hl' hl
  have hip : s.ipos.toNat < 2 ^ 48 := s.ipos.isLt
  have : (s.ipos + BitVec.ofNat 48 n).toNat = s.ipos.toNat + n := by
    rw [BitVec.toNat_add, BitVec.toNat_ofNat]; omega
  refine ⟨this, ?_⟩
  rw [this, ← List.drop_drop, h, List.drop_left' hq]

theorem position_add_assoc (n : Position) (j k : Nat) :
    n + BitVec.ofNat 48 j + BitVec.ofNat 48 k = n + BitVec.ofNat 48 (j + k) := by
  rw [BitVec.add_assoc, BitVec.ofNat_add]

/-! ### The loop of DEC_STEP -/

/-- The state with CURSOR and IPOS at `i` and `p`. -/
def State.movedTo (s : State) (i : Index) (p : Position) : State := { s with cursor := i, ipos := p }

@[simp] theorem movedTo_node (p : Position) : (s.movedTo i p).node = s.node := rfl

@[simp] theorem movedTo_cursor (p : Position) : (s.movedTo i p).cursor = i := rfl

@[simp] theorem movedTo_ipos (p : Position) : (s.movedTo i p).ipos = p := rfl

@[simp] theorem movedTo_input (p : Position) : (s.movedTo i p).input = s.input := rfl

@[simp] theorem movedTo_nodeAt (p : Position) (j : Index) : (s.movedTo i p).nodeAt j = s.nodeAt j := rfl

@[simp] theorem movedTo_follow (p : Position) (j : Index) (q : Bits) : (s.movedTo i p).follow j q = s.follow j q :=
  follow_congr (movedTo_node p) q

@[simp] theorem movedTo_movedTo (j : Index) (p r : Position) : (s.movedTo i p).movedTo j r = s.movedTo j r := rfl

theorem holds_movedTo {j : Index} {p : Position} (h : s.holds trie i) : (s.movedTo j p).holds trie i :=
  (holds_congr (movedTo_node p)).mpr h

/-- One round of the walk, at an internal node with a bit left. -/
theorem walk_round {f : Nat} {b : Bool} {rest : Bits} (hi : s.cursor.toNat < Config.nodeCap)
    (hn : (s.nodeAt s.cursor).leaf = false) (hq : s.input.drop s.ipos.toNat = b :: rest) :
    walk (f + 1) s = walk f
      (s.movedTo (if b then (s.nodeAt s.cursor).right else (s.nodeAt s.cursor).left) (s.ipos + 1#48)) := by
  have hb := readBits_prefix (n := 1) (q := [b]) (rest := rest) rfl (by omega) hq
  rw [walk, getState_bind, bind_ok (visitNode_run hi s), hn, if_neg (by simp), bind_ok hb]
  cases b <;> rfl

theorem drop_round {b : Bool} {rest : Bits} (hl : s.input.length ≤ Config.inMaxBits)
    (hq : s.input.drop s.ipos.toNat = b :: rest) : s.input.drop (s.ipos + 1#48).toNat = rest :=
  (drop_after (n := 1) (q := [b]) rfl hl hq (by omega)).2

/-- Along the code of a symbol the walk reads that code and ends on the symbol's leaf. -/
theorem walk_run {fuel : Nat} {c : Nat × Bits} {rest : Bits} (hl : s.input.length ≤ Config.inMaxBits)
    (h : s.holds trie s.cursor) (hc : c ∈ trie.codes) (hq : s.input.drop s.ipos.toNat = c.2 ++ rest)
    (hf : c.2.length < fuel) :
    walk fuel s = .ok (s.nodeAt (s.follow s.cursor c.2))
      (s.movedTo (s.follow s.cursor c.2) (s.ipos + BitVec.ofNat 48 c.2.length)) := by
  induction trie generalizing s fuel c with
  | leaf sym =>
    obtain ⟨f, rfl⟩ : ∃ e, fuel = e + 1 := ⟨fuel - 1, by omega⟩
    simp only [Trie.codes, List.mem_singleton] at hc
    subst hc
    rw [walk, getState_bind, bind_ok (visitNode_run (holds_lt h) s), if_pos h.2.1]
    simp [State.follow, State.movedTo]
  | node l r ihl ihr =>
    obtain ⟨f, rfl⟩ : ∃ e, fuel = e + 1 := ⟨fuel - 1, by omega⟩
    have hadd : ∀ k : Nat, s.ipos + 1#48 + BitVec.ofNat 48 k = s.ipos + BitVec.ofNat 48 (k + 1) := fun k => by
      rw [BitVec.add_assoc, Nat.add_comm k 1, BitVec.ofNat_add]
    simp only [Trie.codes, List.mem_append, List.mem_map] at hc
    rcases hc with ⟨d, hd, rfl⟩ | ⟨d, hd, rfl⟩ <;> simp only [List.length_cons, List.cons_append] at hf hq
    · rw [walk_round (holds_lt h) h.2.1 hq]
      simp only [Bool.false_eq_true, if_false]
      rw [ihl (s := s.movedTo (s.nodeAt s.cursor).left _) hl
        (holds_movedTo h.2.2.1) hd (drop_round hl hq) (by omega)]
      simp [hadd, State.follow]
    · rw [walk_round (holds_lt h) h.2.1 hq]
      simp only [if_true]
      rw [ihr (s := s.movedTo (s.nodeAt s.cursor).right _) hl
        (holds_movedTo h.2.2.2) hd (drop_round hl hq) (by omega)]
      simp [hadd, State.follow]

/-- Where IN ends inside a code the walk raises MalformedBody, the bits there are read. -/
theorem walk_truncated {fuel : Nat} {sym : Nat} {q more : Bits} (hl : s.input.length ≤ Config.inMaxBits)
    (h : s.holds trie s.cursor) (hc : (sym, q ++ more) ∈ trie.codes) (hm : more ≠ [])
    (hq : s.input.drop s.ipos.toNat = q) (hf : q.length < fuel) :
    walk fuel s = .error (.raised .malformedBody)
      (s.movedTo (s.follow s.cursor q) (BitVec.ofNat 48 s.input.length)) := by
  induction trie generalizing s fuel q with
  | leaf sym =>
    simp only [Trie.codes, List.mem_singleton, Prod.mk.injEq, List.append_eq_nil_iff] at hc
    exact absurd hc.2.2 hm
  | node l r ihl ihr =>
    obtain ⟨f, rfl⟩ : ∃ e, fuel = e + 1 := ⟨fuel - 1, by omega⟩
    cases q with
    | nil =>
      have : s.input.length < s.ipos.toNat + 1 := by
        have := List.drop_eq_nil_iff.mp hq; omega
      rw [walk, getState_bind, bind_ok (visitNode_run (holds_lt h) s), h.2.1, if_neg (by simp),
        bind_ok (readBits_eod this)]
      rfl
    | cons b q =>
      simp only [Trie.codes, List.mem_append, List.mem_map, Prod.mk.injEq, List.cons_append, List.cons.injEq] at hc
      simp only [List.length_cons] at hf
      rcases hc with ⟨d, hd, rfl, rfl, h2⟩ | ⟨d, hd, rfl, rfl, h2⟩
      · rw [walk_round (holds_lt h) h.2.1 hq]
        simp only [Bool.false_eq_true, if_false]
        rw [ihl (s := s.movedTo (s.nodeAt s.cursor).left _) hl
          (holds_movedTo h.2.2.1) (by rw [← h2]; exact hd) (drop_round hl hq) (by omega)]
        simp [State.follow]
      · rw [walk_round (holds_lt h) h.2.1 hq]
        simp only [if_true]
        rw [ihr (s := s.movedTo (s.nodeAt s.cursor).right _) hl
          (holds_movedTo h.2.2.2) (by rw [← h2]; exact hd) (drop_round hl hq) (by omega)]
        simp [State.follow]

end Sys2Proof.Machine
end

