-- ==== Sys2Proof/Laws/Exec.lean ====
section
/-! SUPPORT. What every command keeps: its pseudocode writes neither IN nor the host's moves, answers nothing before it
ends, and puts nothing in phase ERROR or in the error registers but their reset values. -/

namespace Sys2Proof.Machine

/-- What the pseudocode of every command keeps. -/
structure Quiet (s t : State) : Prop where
  input : t.input = s.input
  pending : t.pending = s.pending
  reply : t.reply = s.reply
  noError : t.phase = .error → s.phase = .error
  errors : (t.errcode = s.errcode ∧ t.errcmd = s.errcmd) ∨ (t.errcode = 0 ∧ t.errcmd = 0)

theorem Quiet.rfl' (s : State) : Quiet s s := ⟨rfl, rfl, rfl, id, .inl ⟨rfl, rfl⟩⟩

theorem Quiet.trans {s t u : State} (h : Quiet s t) (k : Quiet t u) : Quiet s u where
  input := k.input.trans h.input
  pending := k.pending.trans h.pending
  reply := k.reply.trans h.reply
  noError e := h.noError (k.noError e)
  errors := by
    rcases k.errors with ⟨a, b⟩ | k'
    · rcases h.errors with ⟨c, d⟩ | ⟨c, d⟩
      · exact .inl ⟨a.trans c, b.trans d⟩
      · exact .inr ⟨a.trans c, b.trans d⟩
    · exact .inr k'

variable {α β : Type}

/-- Wherever the pseudocode ends, it has kept what `Quiet` says. -/
def QuietCmd (c : Cmd α) : Prop :=
  (∀ s a t, c s = .ok a t → Quiet s t) ∧ ∀ s e t, c s = .error e t → Quiet s t

theorem QuietCmd.pure (a : α) : QuietCmd (pure a : Cmd α) :=
  ⟨fun s b t h => by cases h; exact Quiet.rfl' s, fun s e t h => by cases h⟩

theorem QuietCmd.bind {x : Cmd α} {f : α → Cmd β} (hx : QuietCmd x) (hf : ∀ a, QuietCmd (f a)) :
    QuietCmd (x >>= f) := by
  constructor
  · intro s b u h
    obtain ⟨a, t, h1, h2⟩ := bind_eq_ok.mp h
    exact (hx.1 _ _ _ h1).trans ((hf a).1 _ _ _ h2)
  · intro s e u h
    rcases bind_eq_error.mp h with h1 | ⟨a, t, h1, h2⟩
    · exact hx.2 _ _ _ h1
    · exact (hx.1 _ _ _ h1).trans ((hf a).2 _ _ _ h2)

theorem QuietCmd.raise (e : Error) : QuietCmd (raise e : Cmd α) :=
  ⟨fun s a t h => (by cases h), fun s k t h => by cases h; exact Quiet.rfl' s⟩

theorem QuietCmd.stuck (f : Fault) : QuietCmd (stuck f : Cmd α) :=
  ⟨fun s a t h => (by cases h), fun s k t h => by cases h; exact Quiet.rfl' s⟩

theorem QuietCmd.getState : QuietCmd getState :=
  ⟨fun s a t h => by cases h; exact Quiet.rfl' s, fun s e t h => by cases h⟩

theorem QuietCmd.update {g : State → State} (h : ∀ s, Quiet s (g s)) : QuietCmd (update g) :=
  ⟨fun s a t k => by cases k; exact h s, fun s e t k => by cases k⟩

theorem QuietCmd.ite {c : Prop} [Decidable c] {x y : Cmd α} (hx : QuietCmd x) (hy : QuietCmd y) :
    QuietCmd (if c then x else y) := by split_ifs <;> assumption

theorem QuietCmd.readBits (n : Nat) : QuietCmd (readBits n) := by
  constructor
  · intro s a t h
    unfold Machine.readBits at h
    split_ifs at h <;> · cases h; exact ⟨rfl, rfl, rfl, id, .inl ⟨rfl, rfl⟩⟩
  · intro s e t h
    unfold Machine.readBits at h
    split_ifs at h

theorem QuietCmd.visitNode (i : Index) : QuietCmd (visitNode i) := by
  constructor
  · intro s a t h
    unfold Machine.visitNode at h
    split_ifs at h
    cases h; exact Quiet.rfl' s
  · intro s e t h
    unfold Machine.visitNode at h
    split_ifs at h
    cases h; exact Quiet.rfl' s

theorem QuietCmd.alloc (n : Node) : QuietCmd (alloc n) := by
  constructor
  · intro s a t h
    unfold Machine.alloc at h
    split_ifs at h
    cases h; exact ⟨rfl, rfl, rfl, id, .inl ⟨rfl, rfl⟩⟩
  · intro s e t h
    unfold Machine.alloc at h
    split_ifs at h
    cases h; exact Quiet.rfl' s

theorem QuietCmd.writeBits (n v : Nat) : QuietCmd (writeBits n v) :=
  .update fun _ => ⟨rfl, rfl, rfl, id, .inl ⟨rfl, rfl⟩⟩

theorem QuietCmd.emitCode (sym : Nat) : QuietCmd (emitCode sym) :=
  .update fun _ => ⟨rfl, rfl, rfl, id, .inl ⟨rfl, rfl⟩⟩

theorem QuietCmd.changeNode (i : Index) (f : Node → Node) : QuietCmd (changeNode i f) :=
  .update fun _ => ⟨rfl, rfl, rfl, id, .inl ⟨rfl, rfl⟩⟩

theorem QuietCmd.runWhile {p : Phase} {c : Cmd Nat} (hc : QuietCmd c) (fuel n : Nat) :
    QuietCmd (runWhile p c fuel n) := by
  induction fuel generalizing n with
  | zero => exact .bind .getState fun _ => .ite (.stuck _) (.pure _)
  | succ fuel ih => exact .bind .getState fun _ => .ite (.bind hc fun _ => ih _) (.pure _)

theorem QuietCmd.fcStepBody : QuietCmd fcStepBody := by
  refine .bind (.readBits 8) fun b => ?_
  cases b with
  | none => exact .bind (.update fun _ => ⟨rfl, rfl, rfl, nofun, .inl ⟨rfl, rfl⟩⟩) fun _ => .pure _
  | some b =>
    exact .bind .getState fun _ => .ite (.raise _)
      (.bind (.update fun _ => ⟨rfl, rfl, rfl, id, .inl ⟨rfl, rfl⟩⟩) fun _ => .pure _)

theorem QuietCmd.extractMin (q : List Index) : QuietCmd (extractMin q) := by
  cases q with
  | nil => exact .stuck _
  | cons i q => exact .bind .getState fun _ => .pure _

theorem QuietCmd.allocLeaves (cs : List Count) (sym : Nat) (q : List Index) : QuietCmd (allocLeaves cs sym q) := by
  induction cs generalizing sym q with
  | nil => exact .pure _
  | cons c cs ih =>
    unfold Machine.allocLeaves
    exact .ite (.bind (.alloc _) fun _ => ih _ _) (ih _ _)

theorem QuietCmd.mergeAll (k : Nat) (q : List Index) : QuietCmd (mergeAll k q) := by
  induction k generalizing q with
  | zero => exact .stuck _
  | succ k ih =>
    match q with
    | [] => exact .stuck _
    | [r] => exact .pure _
    | x :: y :: q =>
      exact .bind (.extractMin _) fun a => .bind (.extractMin _) fun b => .bind (.visitNode _) fun _ =>
        .bind (.visitNode _) fun _ => .bind (.alloc _) fun _ => ih _

theorem QuietCmd.visit (d : Nat) (i : Index) (q : Bits) (n : Nat) : QuietCmd (visit d i q n) := by
  induction d generalizing i q n with
  | zero => exact .stuck _
  | succ d ih =>
    exact .bind (.visitNode _) fun _ => .ite
      (.bind (.update fun _ => ⟨rfl, rfl, rfl, id, .inl ⟨rfl, rfl⟩⟩) fun _ => .pure _)
      (.bind (ih _ _ _) fun _ => ih _ _ _)

theorem QuietCmd.writeTrie (d : Nat) (i : Index) : QuietCmd (writeTrie d i) := by
  induction d generalizing i with
  | zero => exact .stuck _
  | succ d ih =>
    exact .bind (.visitNode _) fun _ => .ite (.bind (.writeBits _ _) fun _ => .writeBits _ _)
      (.bind (.writeBits _ _) fun _ => .bind (ih _) fun _ => ih _)

theorem QuietCmd.parse (d : Nat) : QuietCmd (parse d) := by
  induction d with
  | zero => exact .stuck _
  | succ d ih =>
    refine .bind (.readBits 1) fun t => ?_
    cases t with
    | none => exact .raise _
    | some t =>
      refine .bind (.alloc _) fun i => .ite (.bind (.readBits 9) fun v => ?_)
        (.bind ih fun _ => .bind (.changeNode _ _) fun _ => .bind ih fun _ => .bind (.changeNode _ _) fun _ => .pure _)
      cases v with
      | none => exact .raise _
      | some v => exact .ite (.raise _) (.bind (.changeNode _ _) fun _ => .pure _)

theorem QuietCmd.encStepBody : QuietCmd encStepBody := by
  refine .bind (.readBits 8) fun b => ?_
  cases b with
  | none =>
    exact .bind (.emitCode _) fun _ => .bind (.update fun _ => ⟨rfl, rfl, rfl, nofun, .inl ⟨rfl, rfl⟩⟩) fun _ => .pure _
  | some b => exact .bind .getState fun _ => .ite (.bind (.emitCode _) fun _ => .pure _) (.raise _)

theorem QuietCmd.walk (d : Nat) : QuietCmd (walk d) := by
  induction d with
  | zero => exact .stuck _
  | succ d ih =>
    refine .bind .getState fun _ => .bind (.visitNode _) fun _ => .ite (.pure _) (.bind (.readBits 1) fun r => ?_)
    cases r with
    | none => exact .raise _
    | some r => exact .bind (.update fun _ => ⟨rfl, rfl, rfl, id, .inl ⟨rfl, rfl⟩⟩) fun _ => ih

theorem QuietCmd.decStepBody : QuietCmd decStepBody :=
  .bind .getState fun _ => .bind (.walk _) fun _ => .ite
    (.bind (.update fun _ => ⟨rfl, rfl, rfl, nofun, .inl ⟨rfl, rfl⟩⟩) fun _ => .pure _)
    (.bind (.writeBits _ _) fun _ => .bind (.update fun _ => ⟨rfl, rfl, rfl, id, .inl ⟨rfl, rfl⟩⟩) fun _ => .pure _)

/-- The pseudocode of each command. -/
def bodyOf : Instr → Cmd Value
  | .nop => pure 0
  | .reset => do update resetState; pure 0
  | .fcStart => fcStartBody
  | .fcStep => do let v ← fcStepBody; pure (BitVec.ofNat 64 v)
  | .fcRun => fcRunBody
  | .tbBuild => tbBuildBody
  | .ctGen => ctGenBody
  | .hwMagic => hwMagicBody Config.magic
  | .hwHeader => hwHeaderBody
  | .encStart => encStartBody
  | .encStep => do let v ← encStepBody; pure (BitVec.ofNat 64 v)
  | .encRun => encRunBody
  | .dmStart => dmStartBody
  | .hrMagic => hrMagicBody Config.magic
  | .hrHeader => hrHeaderBody
  | .decStep => do let v ← decStepBody; pure (BitVec.ofNat 64 v)
  | .decRun => decRunBody
  | .rdStatus => readback statusWord
  | .rdFreq a => readback fun s => (s.freqAt a.toNat).setWidth 64
  | .rdLen => readback fun s => s.len.setWidth 64
  | .rdRoot => readback fun s => s.root.setWidth 64
  | .rdNcount => readback fun s => s.nodeCount.setWidth 64
  | .rdNode a => readback fun s => nodeWord (s.nodeAt a)
  | .rdCodelen a => readback fun s => codeLenWord (s.codeLenAt a.toNat) (s.codeValidAt a.toNat)
  | .rdCodebit a b => readback fun s => BitVec.ofNat 64 ((s.codeBitsAt a.toNat).getLsbD b.toNat).toNat
  | .rdIpos => readback fun s => s.ipos.setWidth 64
  | .rdOutlen => readback fun s => BitVec.ofNat 64 s.out.length
  | .rdCursor => readback fun s => s.cursor.setWidth 64

theorem exec_eq_command (i : Instr) (s : State) : exec i s = command i (bodyOf i) s := by cases i <;> rfl

/-- Every command's pseudocode keeps what `Quiet` says. -/
theorem quiet_bodyOf (i : Instr) : QuietCmd (bodyOf i) := by
  have hr : ∀ f : State → Value, QuietCmd (readback f) := fun f => .bind .getState fun _ => .pure _
  cases i with
  | nop => exact .pure _
  | reset => exact .bind (.update fun _ => ⟨rfl, rfl, rfl, nofun, .inr ⟨rfl, rfl⟩⟩) fun _ => .pure _
  | fcStart => exact .bind (.update fun _ => ⟨rfl, rfl, rfl, nofun, .inr ⟨rfl, rfl⟩⟩) fun _ => .pure _
  | fcStep => exact .bind .fcStepBody fun _ => .pure _
  | fcRun => exact .bind .getState fun _ => .bind (.runWhile .fcStepBody _ _) fun _ => .pure _
  | tbBuild =>
    exact .bind (.update fun _ => ⟨rfl, rfl, rfl, id, .inl ⟨rfl, rfl⟩⟩) fun _ => .bind .getState fun _ =>
      .bind (.allocLeaves _ _ _) fun _ => .bind (.mergeAll _ _) fun _ =>
        .bind (.update fun _ => ⟨rfl, rfl, rfl, nofun, .inl ⟨rfl, rfl⟩⟩) fun _ => .pure _
  | ctGen =>
    exact .bind (.update fun _ => ⟨rfl, rfl, rfl, id, .inl ⟨rfl, rfl⟩⟩) fun _ => .bind .getState fun _ =>
      .bind (.visit _ _ _ _) fun _ => .bind (.update fun _ => ⟨rfl, rfl, rfl, nofun, .inl ⟨rfl, rfl⟩⟩) fun _ => .pure _
  | hwMagic =>
    exact .bind (.writeBits _ _) fun _ => .bind (.update fun _ => ⟨rfl, rfl, rfl, nofun, .inl ⟨rfl, rfl⟩⟩) fun _ => .pure _
  | hwHeader =>
    exact .bind .getState fun _ => .bind (.writeTrie _ _) fun _ =>
      .bind (.update fun _ => ⟨rfl, rfl, rfl, nofun, .inl ⟨rfl, rfl⟩⟩) fun _ => .bind .getState fun _ => .pure _
  | encStart => exact .bind (.update fun _ => ⟨rfl, rfl, rfl, nofun, .inl ⟨rfl, rfl⟩⟩) fun _ => .pure _
  | encStep => exact .bind .encStepBody fun _ => .pure _
  | encRun =>
    exact .bind .getState fun _ => .bind (.runWhile .encStepBody _ _) fun _ => .bind .getState fun _ => .pure _
  | dmStart => exact .bind (.update fun _ => ⟨rfl, rfl, rfl, nofun, .inr ⟨rfl, rfl⟩⟩) fun _ => .pure _
  | hrMagic =>
    refine .bind (.readBits 32) fun v => ?_
    cases v with
    | none => exact .raise _
    | some v =>
      exact .ite (.raise _) (.bind (.update fun _ => ⟨rfl, rfl, rfl, nofun, .inl ⟨rfl, rfl⟩⟩) fun _ => .pure _)
  | hrHeader =>
    exact .bind (.update fun _ => ⟨rfl, rfl, rfl, id, .inl ⟨rfl, rfl⟩⟩) fun _ => .bind (.parse _) fun _ =>
      .bind (.visitNode _) fun _ => .ite (.raise _)
        (.bind (.update fun _ => ⟨rfl, rfl, rfl, nofun, .inl ⟨rfl, rfl⟩⟩) fun _ => .bind .getState fun _ => .pure _)
  | decStep => exact .bind .decStepBody fun _ => .pure _
  | decRun => exact .bind .getState fun _ => .bind (.runWhile .decStepBody _ _) fun _ => .pure _
  | rdStatus => exact hr _
  | rdFreq a => exact hr _
  | rdLen => exact hr _
  | rdRoot => exact hr _
  | rdNcount => exact hr _
  | rdNode a => exact hr _
  | rdCodelen a => exact hr _
  | rdCodebit a b => exact hr _
  | rdIpos => exact hr _
  | rdOutlen => exact hr _
  | rdCursor => exact hr _

/-- A legal command in a phase that admits it, its pseudocode run to its end. -/
theorem exec_runs (i : Instr) (s : State) {u : State} {v : Value} (hb : bodyOf i s = .ok v u)
    (ho : operandsLegal i s = true) (he : s.phase ≠ .error) (hl : legalIn i s.phase = true) :
    exec i s = .next (respond 0 v u) := by
  rw [exec_eq_command, command_runs ho he hl, hb]; rfl

/-- A legal command in a phase that admits it, its pseudocode ended by `raise e`. -/
theorem exec_raises (i : Instr) (s : State) {u : State} {e : Error} (hb : bodyOf i s = .error (.raised e) u)
    (ho : operandsLegal i s = true) (he : s.phase ≠ .error) (hl : legalIn i s.phase = true) :
    exec i s = .next (enterError i.opcode e u) := by
  rw [exec_eq_command, command_runs ho he hl, hb]; rfl

/-- The commands that phase ERROR admits raise nothing and come to an end. -/
theorem bodyOf_runsInError {i : Instr} (h : runsInError i = true) (s : State) : ∃ v u, bodyOf i s = .ok v u := by
  cases i <;> first | exact ⟨_, _, rfl⟩ | simp [runsInError] at h

/-- All that a command can do when it answers a next state, with what its pseudocode keeps (rule R202). -/
theorem exec_next {i : Instr} {s t : State} (h : exec i s = .next t) :
    (operandsLegal i s = false ∧ t = illegalWord i.opcode s) ∨
    (operandsLegal i s = true ∧ s.phase = .error ∧ runsInError i = false ∧ t = respond haltedStatus 0 s) ∨
    (operandsLegal i s = true ∧ s.phase ≠ .error ∧ legalIn i s.phase = false ∧ t = enterError i.opcode .sequence s) ∨
    (operandsLegal i s = true ∧ (s.phase = .error → runsInError i = true) ∧
      (s.phase ≠ .error → legalIn i s.phase = true) ∧
      ((∃ v u, bodyOf i s = .ok v u ∧ Quiet s u ∧ t = respond okStatus v u) ∨
        ∃ e u, bodyOf i s = .error (.raised e) u ∧ Quiet s u ∧ t = enterError i.opcode e u)) := by
  rw [exec_eq_command] at h
  rcases command_next h with h | h | h | ⟨h1, h2, h3, ⟨v, u, h4, h5⟩ | ⟨e, u, h4, h5⟩⟩
  · exact .inl h
  · exact .inr (.inl h)
  · exact .inr (.inr (.inl h))
  · exact .inr (.inr (.inr ⟨h1, h2, h3, .inl ⟨v, u, h4, (quiet_bodyOf i).1 _ _ _ h4, h5⟩⟩))
  · exact .inr (.inr (.inr ⟨h1, h2, h3, .inr ⟨e, u, h4, (quiet_bodyOf i).2 _ _ _ h4, h5⟩⟩))

end Sys2Proof.Machine
end

