-- ==== Sys2Proof/Laws/Loops.lean ====
section
/-! SUPPORT. The step forms and the loop of the run forms (40_frequency_counter.md rules R101, R102, 44_body_encoder.md
rules R141, R142, 45_body_decoder.md rules R150, R151). -/

namespace Sys2Proof.Machine

variable {s t : State} {p : Phase} {c : Cmd Nat} {trie : Trie}

/-! ### The loop -/

theorem runWhile_done {fuel n : Nat} (h : s.phase ≠ p) : runWhile p c fuel n s = .ok n s := by
  cases fuel <;> simp [runWhile, h]

theorem runWhile_round {fuel n v : Nat} (h : s.phase = p) (hc : c s = .ok v t) :
    runWhile p c (fuel + 1) n s = runWhile p c fuel (if v ≠ Config.sentinel then n + 1 else n) t := by
  rw [runWhile, getState_bind, if_pos h, bind_ok hc]

theorem runWhile_stop {fuel n : Nat} {e : Stop} (h : s.phase = p) (hc : c s = .error e t) :
    runWhile p c (fuel + 1) n s = .error e t := by
  rw [runWhile, getState_bind, if_pos h, bind_error hc]

/-! ### The step of the counting pass -/

theorem fcStepBody_eod (h : s.input.length < s.ipos.toNat + 8) :
    fcStepBody s = .ok 256 { s.setFreq 256 1 with ipos := BitVec.ofNat 48 s.input.length, phase := .counted } := by
  rw [fcStepBody, bind_ok (readBits_eod h)]; rfl

theorem fcStepBody_byte {b : BitVec 8} {rest : Bits} (h : s.input.drop s.ipos.toNat = msbFirst b ++ rest)
    (hn : s.len.toNat ≠ Config.maxLen) :
    fcStepBody s = .ok b.toNat
      { s.setFreq b.toNat (s.freqAt b.toNat + 1) with ipos := s.ipos + 8, len := s.len + 1 } := by
  rw [fcStepBody, bind_ok (readBits_prefix (msbFirst_length b) (by omega) h)]
  simp only [natOfBits_msbFirst, getState_bind, if_neg hn]
  rfl

theorem fcStepBody_full {b : BitVec 8} {rest : Bits} (h : s.input.drop s.ipos.toNat = msbFirst b ++ rest)
    (hn : s.len.toNat = Config.maxLen) :
    fcStepBody s = .error (.raised .capacityExceeded) { s with ipos := s.ipos + 8 } := by
  rw [fcStepBody, bind_ok (readBits_prefix (msbFirst_length b) (by omega) h)]
  simp only [getState_bind, if_pos hn]
  rfl

/-! ### The step of the encoding pass -/

theorem encStepBody_eod (h : s.input.length < s.ipos.toNat + 8) :
    encStepBody s = .ok 256 { s with
      ipos := BitVec.ofNat 48 s.input.length, out := s.out ++ s.codeOf 256, phase := .encDone } := by
  rw [encStepBody, bind_ok (readBits_eod h)]; rfl

theorem encStepBody_byte {b : BitVec 8} {rest : Bits} (h : s.input.drop s.ipos.toNat = msbFirst b ++ rest)
    (hv : s.codeValidAt b.toNat = true) :
    encStepBody s = .ok b.toNat { s with ipos := s.ipos + 8, out := s.out ++ s.codeOf b.toNat } := by
  rw [encStepBody, bind_ok (readBits_prefix (msbFirst_length b) (by omega) h)]
  simp only [natOfBits_msbFirst, getState_bind]
  exact if_pos hv ▸ rfl

theorem encStepBody_noCode {b : BitVec 8} {rest : Bits} (h : s.input.drop s.ipos.toNat = msbFirst b ++ rest)
    (hv : s.codeValidAt b.toNat = false) :
    encStepBody s = .error (.raised .noCode) { s with ipos := s.ipos + 8 } := by
  rw [encStepBody, bind_ok (readBits_prefix (msbFirst_length b) (by omega) h)]
  simp only [natOfBits_msbFirst, getState_bind]
  have hv' : ¬ State.codeValidAt { s with ipos := s.ipos + BitVec.ofNat 48 8 } b.toNat = true := by
    simpa [State.codeValidAt] using hv
  rw [if_neg hv']; rfl

/-! ### The step of the decoding pass -/

theorem decStepBody_symbol {sym : Nat} {q rest : Bits} (hl : s.input.length ≤ Config.inMaxBits)
    (h : s.holds trie s.cursor) (hc : (sym, q) ∈ trie.codes) (hq : s.input.drop s.ipos.toNat = q ++ rest)
    (hs : sym ≠ Config.sentinel) :
    decStepBody s = .ok sym { s with
      ipos := s.ipos + BitVec.ofNat 48 q.length, out := s.out ++ bitsOfNat 8 sym, cursor := s.root } := by
  have hf := follow_code h hc
  have hlen := congrArg List.length hq
  simp only [List.length_drop, List.length_append] at hlen
  rw [decStepBody, getState_bind,
    bind_ok (walk_run hl h hc hq (by simp only [State.unread]; omega)), hf.2, if_neg hs]
  rfl

theorem decStepBody_sentinel {q rest : Bits} (hl : s.input.length ≤ Config.inMaxBits)
    (h : s.holds trie s.cursor) (hc : (256, q) ∈ trie.codes) (hq : s.input.drop s.ipos.toNat = q ++ rest) :
    decStepBody s = .ok 256 { s with
      ipos := s.ipos + BitVec.ofNat 48 q.length, cursor := s.follow s.cursor q, phase := .decDone } := by
  have hf := follow_code h hc
  have hlen := congrArg List.length hq
  simp only [List.length_drop, List.length_append] at hlen
  rw [decStepBody, getState_bind,
    bind_ok (walk_run hl h hc hq (by simp only [State.unread]; omega)), hf.2, if_pos rfl]
  rfl

theorem decStepBody_truncated {sym : Nat} {q more : Bits} (hl : s.input.length ≤ Config.inMaxBits)
    (h : s.holds trie s.cursor) (hc : (sym, q ++ more) ∈ trie.codes) (hm : more ≠ [])
    (hq : s.input.drop s.ipos.toNat = q) :
    decStepBody s = .error (.raised .malformedBody) { s with
      ipos := BitVec.ofNat 48 s.input.length, cursor := s.follow s.cursor q } := by
  have hlen := congrArg List.length hq
  simp only [List.length_drop] at hlen
  rw [decStepBody, getState_bind,
    bind_error (walk_truncated hl h hc hm hq (by simp only [State.unread]; omega))]
  rfl

/-- Whatever bits are left begin with the code of a symbol, or end inside one. -/
theorem codes_complete (trie : Trie) (q : Bits) :
    (∃ c ∈ trie.codes, ∃ rest, q = c.2 ++ rest) ∨ ∃ sym more, more ≠ [] ∧ (sym, q ++ more) ∈ trie.codes := by
  induction trie generalizing q with
  | leaf s => exact .inl ⟨_, List.mem_singleton_self _, q, rfl⟩
  | node l r ihl ihr =>
    cases q with
    | nil =>
      obtain ⟨sym, hs⟩ := List.exists_mem_of_length_pos (Trie.symbols_length_pos (.node l r))
      obtain ⟨p, hp⟩ := Trie.exists_code hs
      refine .inr ⟨sym, p, ?_, hp⟩
      rintro rfl
      simp [Trie.codes] at hp
    | cons b q =>
      cases b with
      | false =>
        rcases ihl q with ⟨c, hc, rest, rfl⟩ | ⟨sym, more, hm, hc⟩
        · exact .inl ⟨(c.1, false :: c.2), List.mem_append_left _ (List.mem_map_of_mem hc), rest, rfl⟩
        · exact .inr ⟨sym, more, hm, List.mem_append_left _ (List.mem_map.mpr ⟨_, hc, rfl⟩)⟩
      | true =>
        rcases ihr q with ⟨c, hc, rest, rfl⟩ | ⟨sym, more, hm, hc⟩
        · exact .inl ⟨(c.1, true :: c.2), List.mem_append_right _ (List.mem_map_of_mem hc), rest, rfl⟩
        · exact .inr ⟨sym, more, hm, List.mem_append_right _ (List.mem_map.mpr ⟨_, hc, rfl⟩)⟩

/-! ### The run forms -/

theorem bitsOfNat_eight (sym : Nat) : bitsOfNat 8 sym = msbFirst (BitVec.ofNat 8 sym) := by
  rw [← bitsOfNat_toNat, bitsOfNat_eq_map, bitsOfNat_eq_map]
  apply List.map_congr_left
  intro k hk
  have := List.mem_range.mp hk
  simp only [BitVec.toNat_ofNat, Nat.testBit_mod_two_pow]
  simp; omega

/-- Fewer than 8 bits are left. -/
theorem eod_of_rest {rest : Bits} (h : s.input.drop s.ipos.toNat = rest) (hr : rest.length < 8) :
    s.input.length < s.ipos.toNat + 8 := by
  have := congrArg List.length h
  simp at this; omega

/-- The loop of FC_RUN counts the whole bytes left, and then the sentinel. -/
theorem fcRun_loop (bs : List (BitVec 8)) : ∀ (s : State) (rest : Bits) (fuel n : Nat), s.phase = .counting →
    s.input.length ≤ Config.inMaxBits → s.input.drop s.ipos.toNat = bs.flatMap msbFirst ++ rest → rest.length < 8 →
    s.len.toNat + bs.length ≤ Config.maxLen → bs.length < fuel →
    ∃ t, runWhile .counting fcStepBody fuel n s = .ok (n + bs.length) t ∧
      t = { s with
        freq := t.freq, len := s.len + BitVec.ofNat 32 bs.length, ipos := BitVec.ofNat 48 s.input.length,
        phase := .counted } ∧
      (∀ b : BitVec 8, t.freqAt b.toNat = s.freqAt b.toNat + BitVec.ofNat 32 (bs.count b)) ∧ t.freqAt 256 = 1 := by
  induction bs with
  | nil =>
    intro s rest fuel n hp hl hq hr hn hf
    obtain ⟨fuel, rfl⟩ : ∃ e, fuel = e + 1 := ⟨fuel - 1, by simp at hf; omega⟩
    refine ⟨_, (runWhile_round hp (fcStepBody_eod (eod_of_rest (rest := rest) (by simpa using hq) hr))).trans
      (runWhile_done (by simp)), ?_, ?_, ?_⟩
    · simp [State.setFreq]
    · intro b
      have : (256 : Nat) ≠ b.toNat := by have := b.isLt; omega
      simp [State.setFreq, State.freqAt, RegFile.read_write_other _ _ _ this]
    · simp [State.setFreq, State.freqAt, Config.nsym]
  | cons a bs ih =>
    intro s rest fuel n hp hl hq hr hn hf
    obtain ⟨fuel, rfl⟩ : ∃ e, fuel = e + 1 := ⟨fuel - 1, by simp at hf; omega⟩
    rw [List.flatMap_cons, List.append_assoc] at hq
    simp only [List.length_cons, Config.maxLen] at hn hf
    have hlen : (s.len + 1).toNat = s.len.toNat + 1 := by
      rw [BitVec.toNat_add]; simp; omega
    have hstep := fcStepBody_byte hq (by simp [Config.maxLen]; omega)
    have hne : a.toNat ≠ Config.sentinel := by have := a.isLt; simp [Config.sentinel]; omega
    obtain ⟨t, h1, h2, h3, h4⟩ := ih
      { s.setFreq a.toNat (s.freqAt a.toNat + 1) with ipos := s.ipos + 8, len := s.len + 1 } rest fuel (n + 1) hp hl
      ((drop_after (n := 8) (msbFirst_length a) hl hq (by omega)).2) hr
      (by show (s.len + 1).toNat + _ ≤ 2 ^ 32 - 1; omega) (by omega)
    refine ⟨t, ?_, ?_, ?_, h4⟩
    · rw [runWhile_round hp hstep, if_pos hne, h1]; congr 1; simp; omega
    · rw [h2]; simp [State.setFreq, BitVec.add_assoc, ← BitVec.ofNat_add]; rw [Nat.add_comm, BitVec.ofNat_add]
    · intro b
      rw [h3 b]
      simp only [State.setFreq, State.freqAt, RegFile.read_write]
      by_cases hab : a = b
      · subst hab
        have : a.toNat < Config.nsym := by have := a.isLt; simp [Config.nsym]; omega
        simp [this, BitVec.add_assoc]; rw [Nat.add_comm, BitVec.ofNat_add]
      · have : a.toNat ≠ b.toNat := fun h => hab (BitVec.eq_of_toNat_eq h)
        simp [this, hab]

/-- The loop of ENC_RUN appends the codes of the whole bytes left, and then the sentinel's. -/
theorem encRun_loop (bs : List (BitVec 8)) : ∀ (s : State) (rest : Bits) (fuel n : Nat), s.phase = .encoding →
    s.input.length ≤ Config.inMaxBits → s.input.drop s.ipos.toNat = bs.flatMap msbFirst ++ rest → rest.length < 8 →
    (∀ b ∈ bs, s.codeValidAt b.toNat = true) → bs.length < fuel →
    runWhile .encoding encStepBody fuel n s = .ok (n + bs.length) { s with
      ipos := BitVec.ofNat 48 s.input.length,
      out := s.out ++ ((bs.flatMap fun b => s.codeOf b.toNat) ++ s.codeOf 256), phase := .encDone } := by
  induction bs with
  | nil =>
    intro s rest fuel n hp hl hq hr hn hf
    obtain ⟨fuel, rfl⟩ : ∃ e, fuel = e + 1 := ⟨fuel - 1, by simp at hf; omega⟩
    exact (runWhile_round hp (encStepBody_eod (eod_of_rest (rest := rest) (by simpa using hq) hr))).trans
      (runWhile_done (by simp))
  | cons a bs ih =>
    intro s rest fuel n hp hl hq hr hn hf
    obtain ⟨fuel, rfl⟩ : ∃ e, fuel = e + 1 := ⟨fuel - 1, by simp at hf; omega⟩
    rw [List.flatMap_cons, List.append_assoc] at hq
    simp only [List.length_cons] at hf
    have hstep := encStepBody_byte hq (hn a (by simp))
    have hne : a.toNat ≠ Config.sentinel := by have := a.isLt; simp [Config.sentinel]; omega
    have := ih { s with ipos := s.ipos + 8, out := s.out ++ s.codeOf a.toNat } rest fuel (n + 1) hp hl
      ((drop_after (n := 8) (msbFirst_length a) hl hq (by omega)).2) hr (fun b hb => hn b (by simp [hb])) (by omega)
    rw [runWhile_round hp hstep, if_pos hne, this]
    simp [State.codeOf, State.codeLenAt, State.codeBitsAt]; omega

/-- The loop of DEC_RUN recovers the symbols whose codes follow, and stops at the sentinel's. -/
theorem decRun_loop (trie : Trie) (r : Bits) (hr : (256, r) ∈ trie.codes) (rest : Bits) (cs : List (Nat × Bits))
    (hcs : ∀ c ∈ cs, c ∈ trie.codes ∧ c.1 ≠ 256) : ∀ (s : State) (fuel n : Nat), s.phase = .decoding →
    s.input.length ≤ Config.inMaxBits → s.cursor = s.root → s.holds trie s.root →
    s.input.drop s.ipos.toNat = (cs.flatMap fun c => c.2) ++ (r ++ rest) → cs.length < fuel →
    runWhile .decoding decStepBody fuel n s = .ok (n + cs.length) { s with
      ipos := s.ipos + BitVec.ofNat 48 ((cs.flatMap fun c => c.2) ++ r).length,
      out := s.out ++ cs.flatMap fun c => msbFirst (BitVec.ofNat 8 c.1), cursor := s.follow s.root r,
      phase := .decDone } := by
  induction cs with
  | nil =>
    intro s fuel n hp hl hc hh hq hf
    obtain ⟨fuel, rfl⟩ : ∃ e, fuel = e + 1 := ⟨fuel - 1, by simp at hf; omega⟩
    refine (runWhile_round hp (decStepBody_sentinel hl (by rw [hc]; exact hh) hr (by simpa using hq))).trans ?_
    rw [runWhile_done (by simp), hc]; simp
  | cons c cs ih =>
    intro s fuel n hp hl hc hh hq hf
    obtain ⟨fuel, rfl⟩ : ∃ e, fuel = e + 1 := ⟨fuel - 1, by simp at hf; omega⟩
    rw [List.flatMap_cons, List.append_assoc] at hq
    simp only [List.length_cons] at hf
    obtain ⟨h1, h2⟩ := hcs c (by simp)
    have hstep := decStepBody_symbol hl (by rw [hc]; exact hh) h1 hq h2
    have hd : List.drop (s.ipos + BitVec.ofNat 48 c.2.length).toNat s.input =
        (cs.flatMap fun c => c.2) ++ (r ++ rest) := by
      by_cases h0 : 0 < c.2.length
      · exact (drop_after rfl hl hq h0).2
      · have : c.2 = [] := by simpa using h0
        rw [this] at hq ⊢; simpa using hq
    have := ih (fun c hc => hcs c (by simp [hc]))
      { s with ipos := s.ipos + BitVec.ofNat 48 c.2.length, out := s.out ++ bitsOfNat 8 c.1, cursor := s.root } fuel
      (n + 1) hp hl rfl ((holds_congr (by rfl)).mpr hh) hd (by omega)
    rw [runWhile_round hp hstep, if_pos h2, this]
    rw [follow_congr (s := s) (t := { s with
      ipos := s.ipos + BitVec.ofNat 48 c.2.length, out := s.out ++ bitsOfNat 8 c.1, cursor := s.root }) rfl]
    simp [position_add_assoc, bitsOfNat_eight]; omega

/-! ### The phase a step leaves -/

theorem fcStepBody_phase {s u : State} {v : Nat} (h : fcStepBody s = .ok v u) : u.phase = s.phase ∨ u.phase = .counted := by
  unfold fcStepBody at h
  obtain ⟨o, t, h1, h2⟩ := bind_eq_ok.mp h
  have ht : t.phase = s.phase := by
    unfold readBits at h1; split_ifs at h1 <;> cases h1 <;> rfl
  cases o with
  | none => simp at h2; obtain ⟨-, rfl⟩ := h2; exact .inr rfl
  | some b =>
    simp only [getState_bind] at h2
    split_ifs at h2
    · simp at h2
    · simp at h2; obtain ⟨-, rfl⟩ := h2; exact .inl ht

theorem encStepBody_phase {s u : State} {v : Nat} (h : encStepBody s = .ok v u) : u.phase = s.phase ∨ u.phase = .encDone := by
  unfold encStepBody at h
  obtain ⟨o, t, h1, h2⟩ := bind_eq_ok.mp h
  have ht : t.phase = s.phase := by
    unfold readBits at h1; split_ifs at h1 <;> cases h1 <;> rfl
  cases o with
  | none => simp at h2; obtain ⟨-, rfl⟩ := h2; exact .inr rfl
  | some b =>
    simp only [getState_bind] at h2
    split_ifs at h2
    · simp at h2; obtain ⟨-, rfl⟩ := h2; exact .inl ht
    · simp at h2

theorem walk_phase {f : Nat} {s u : State} {v : Node} (h : walk f s = .ok v u) : u.phase = s.phase ∧ u.input = s.input := by
  induction f generalizing s with
  | zero => simp [walk] at h
  | succ f ih =>
    rw [walk, getState_bind] at h
    obtain ⟨nd, t, h1, h2⟩ := bind_eq_ok.mp h
    have ht : t = s := by unfold visitNode at h1; split_ifs at h1; cases h1; rfl
    subst ht
    split_ifs at h2
    · cases h2; exact ⟨rfl, rfl⟩
    · obtain ⟨o, t', h3, h4⟩ := bind_eq_ok.mp h2
      have ht : t'.phase = t.phase ∧ t'.input = t.input := by
        unfold readBits at h3; split_ifs at h3 <;> cases h3 <;> exact ⟨rfl, rfl⟩
      cases o with
      | none => simp at h4
      | some r =>
        simp only [update_bind] at h4
        have := ih h4
        exact ⟨this.1.trans ht.1, this.2.trans ht.2⟩

theorem decStepBody_phase {s u : State} {v : Nat} (h : decStepBody s = .ok v u) : u.phase = s.phase ∨ u.phase = .decDone := by
  rw [decStepBody, getState_bind] at h
  obtain ⟨nd, t, h1, h2⟩ := bind_eq_ok.mp h
  split_ifs at h2
  · simp at h2; obtain ⟨-, rfl⟩ := h2; exact .inr rfl
  · simp at h2; obtain ⟨-, rfl⟩ := h2; exact .inl (walk_phase h1).1

theorem runWhile_phase {q : Phase} (hc : ∀ s v u, c s = .ok v u → u.phase = s.phase ∨ u.phase = q) {f n m : Nat}
    {s u : State} (h : runWhile p c f n s = .ok m u) (hs : s.phase = p ∨ s.phase = q) : u.phase = q := by
  induction f generalizing s n with
  | zero =>
    rw [runWhile, getState_bind] at h
    split_ifs at h with hp
    · simp at h
    · cases h; exact hs.resolve_left hp
  | succ f ih =>
    rw [runWhile, getState_bind] at h
    split_ifs at h with hp
    · obtain ⟨v, t, h1, h2⟩ := bind_eq_ok.mp h
      exact ih h2 (by rcases hc _ _ _ h1 with e | e; exact e ▸ .inl hp; exact .inr e)
    · cases h; exact hs.resolve_left hp

end Sys2Proof.Machine
end

