-- ==== Sys2Proof/Laws/Magic.lean ====
section
/-! SUPPORT. The machine with MAGIC as an argument (00_scope.md rule R9): what each command's frame and pseudocode are, and
what a run of several commands does command by command. -/

namespace Sys2Proof.Machine

/-- The pseudocode of each command, for the parameter MAGIC. -/
def bodyWith (magic : BitVec 32) : Instr → Cmd Value
  | .hwMagic => hwMagicBody magic
  | .hrMagic => hrMagicBody magic
  | i => bodyOf i

theorem execWith_eq_command (magic : BitVec 32) (i : Instr) (s : State) :
    execWith magic i s = command i (bodyWith magic i) s := by
  cases i <;> rfl

variable {magic : BitVec 32} {i : Instr} {s u : State}

/-- The pseudocode of HW_MAGIC and HR_MAGIC apart, no command looks at MAGIC. -/
theorem bodyWith_other (hw : i ≠ .hwMagic) (hr : i ≠ .hrMagic) : bodyWith magic i = bodyOf i := by
  cases i <;> simp_all [bodyWith]

/-- A legal command in a phase that admits it, its pseudocode run to its end. -/
theorem execWith_runs {v : Value} (hb : bodyWith magic i s = .ok v u) (ho : operandsLegal i s = true)
    (he : s.phase ≠ .error) (hl : legalIn i s.phase = true) : execWith magic i s = .next (respond 0 v u) := by
  rw [execWith_eq_command, command_runs ho he hl, hb]; rfl

/-- A legal command in a phase that admits it, its pseudocode ended by `raise e`. -/
theorem execWith_raises {e : Error} (hb : bodyWith magic i s = .error (.raised e) u) (ho : operandsLegal i s = true)
    (he : s.phase ≠ .error) (hl : legalIn i s.phase = true) :
    execWith magic i s = .next (enterError i.opcode e u) := by
  rw [execWith_eq_command, command_runs ho he hl, hb]; rfl

end Sys2Proof.Machine
end

