-- ==== Sys2Proof/Laws/Parse.lean ====
section
/-! SUPPORT. What Parse does (43_header_codec.md rule R133): on the header of a trie it reads that header and allocates the
trie's nodes in preorder; on anything else it raises. -/

namespace Sys2Proof.Machine

variable {s : State} {trie : Trie}

/-- The state after a trie was parsed. -/
def State.parsed (s : State) (trie : Trie) : State := { s with
  node := s.node.writeFrom s.nodeCount.toNat (trie.preorder s.nodeCount.toNat)
  nodeCount := s.nodeCount + BitVec.ofNat 10 trie.size
  ipos := s.ipos + BitVec.ofNat 48 trie.header.length }

theorem index_add {n : Index} {k : Nat} (h : n.toNat + k < 1024) : (n + BitVec.ofNat 10 k).toNat = n.toNat + k := by
  rw [BitVec.toNat_add, BitVec.toNat_ofNat]; omega

theorem index_add_assoc (n : Index) (j k : Nat) :
    n + BitVec.ofNat 10 j + BitVec.ofNat 10 k = n + BitVec.ofNat 10 (j + k) := by
  rw [BitVec.add_assoc, BitVec.ofNat_add]

/-- Parse reads the header of a trie that fits and allocates the trie. -/
theorem parse_run {d : Nat} {rest : Bits} (hl : s.input.length ≤ Config.inMaxBits)
    (hc : s.nodeCount.toNat + trie.size ≤ Config.nodeCap) (hs : ∀ sym ∈ trie.symbols, sym ≤ Config.sentinel)
    (hd : trie.depth < d) (hq : s.input.drop s.ipos.toNat = trie.header ++ rest) :
    parse d s = .ok s.nodeCount (s.parsed trie) := by
  induction trie generalizing s d rest with
  | leaf sym =>
    obtain ⟨d, rfl⟩ : ∃ e, d = e + 1 := ⟨d - 1, by omega⟩
    simp only [Trie.size, Config.nodeCap] at hc
    have hn : s.nodeCount.toNat ≠ Config.nodeCap := by simp only [Config.nodeCap]; omega
    have hq' : s.input.drop s.ipos.toNat = [true] ++ (msbFirst sym ++ rest) := by simpa [Trie.header] using hq
    obtain ⟨_, ha⟩ := drop_after (n := 1) rfl hl hq' (by omega)
    have hsym : ¬ Config.sentinel < sym.toNat := by
      have := hs sym.toNat (by simp [Trie.symbols]); omega
    rw [parse, bind_ok (readBits_prefix (n := 1) rfl (by omega) hq')]
    refine (bind_ok (alloc_run (by exact hn))).trans ?_
    refine (bind_ok (readBits_prefix (n := 9) (msbFirst_length sym) (by omega) ha)).trans ?_
    simp only [natOfBits_msbFirst, if_neg hsym, changeNode_bind, pure_run]
    congr 1
    have hw : s.nodeCount.toNat < Config.nodeCap := by simp only [Config.nodeCap]; omega
    simp only [State.setNode, State.parsed, Trie.preorder, RegFile.writeFrom, RegFile.write_write_same, Trie.size,
      Trie.header, List.length_cons, msbFirst_length, State.nodeAt, RegFile.read_write_same _ _ _ hw]
    simp [Node.zero, BitVec.add_assoc]
  | node l r ihl ihr =>
    obtain ⟨d, rfl⟩ : ∃ e, d = e + 1 := ⟨d - 1, by omega⟩
    simp only [Trie.size, Trie.depth, Config.nodeCap] at hc hd
    have hn : s.nodeCount.toNat ≠ Config.nodeCap := by simp only [Config.nodeCap]; omega
    have hw : s.nodeCount.toNat < Config.nodeCap := by simp only [Config.nodeCap]; omega
    have hq' : s.input.drop s.ipos.toNat = [false] ++ (l.header ++ (r.header ++ rest)) := by
      simpa [Trie.header] using hq
    obtain ⟨_, ha⟩ := drop_after (n := 1) rfl hl hq' (by omega)
    have h1 : (s.nodeCount + 1).toNat = s.nodeCount.toNat + 1 := index_add (k := 1) (by omega)
    have h2 : (s.nodeCount + 1 + BitVec.ofNat 10 l.size).toNat = s.nodeCount.toNat + 1 + l.size := by
      rw [index_add (by omega), h1]
    rw [parse, bind_ok (readBits_prefix (n := 1) rfl (by omega) hq')]
    refine (bind_ok (alloc_run (by exact hn))).trans ?_
    refine (bind_ok (ihl (rest := r.header ++ rest) (by exact hl) ?_ ?_ (by omega) (by exact ha))).trans ?_
    · show (s.nodeCount + 1).toNat + _ ≤ 513
      omega
    · intro sym h; exact hs sym (by simp [Trie.symbols, h])
    rw [changeNode_bind]
    refine (bind_ok (ihr (rest := rest) (by exact hl) ?_ ?_ (by omega) ?_)).trans ?_
    · show (s.nodeCount + 1 + BitVec.ofNat 10 l.size).toNat + _ ≤ 513
      omega
    · intro sym h; exact hs sym (by simp [Trie.symbols, h])
    · exact (drop_after (s := { s with ipos := s.ipos + BitVec.ofNat 48 1 }) rfl hl ha l.header_length_pos).2
    rw [changeNode_bind, pure_run]
    congr 1
    simp only [State.parsed, State.setNode, State.nodeAt, h1, h2]
    have hr : ∀ (f : RegFile Node Config.nodeCap) (x : Node) (j : Nat) (ns : List Node), s.nodeCount.toNat < j →
        ((f.write s.nodeCount.toNat x).writeFrom j ns).read Node.zero s.nodeCount.toNat = x := fun f x j ns hj => by
      rw [RegFile.read_writeFrom_other _ _ _ (.inl hj), RegFile.read_write_same _ _ _ hw]
    have hww : ∀ (f : RegFile Node Config.nodeCap) (x y : Node) (j : Nat) (ns : List Node), s.nodeCount.toNat < j →
        ((f.write s.nodeCount.toNat x).writeFrom j ns).write s.nodeCount.toNat y =
          (f.write s.nodeCount.toNat y).writeFrom j ns := fun f x y j ns hj => by
      rw [RegFile.writeFrom_write _ _ _ hj, RegFile.write_write_same]
    have hj1 : s.nodeCount.toNat < s.nodeCount.toNat + 1 := by omega
    have hap : ∀ (f : RegFile Node Config.nodeCap) (a : Nat) (ns : List Node),
        (f.writeFrom a (Trie.preorder a l)).writeFrom (a + l.size) ns = f.writeFrom a (Trie.preorder a l ++ ns) :=
      fun f a ns => by rw [RegFile.writeFrom_append, Trie.preorder_length]
    simp only [hr _ _ _ _ hj1, hww _ _ _ _ _ hj1, hap]
    have hi : ∀ k : Nat, s.nodeCount + BitVec.ofNat 10 k = BitVec.ofNat 10 (s.nodeCount.toNat + k) := fun k => by
      rw [BitVec.ofNat_add, BitVec.ofNat_toNat, BitVec.setWidth_eq]
    have e1 : s.nodeCount + 1 = BitVec.ofNat 10 (s.nodeCount.toNat + 1) := hi 1
    have e2 : s.ipos + 1#48 = s.ipos + BitVec.ofNat 48 1 := rfl
    simp only [Trie.preorder, RegFile.writeFrom, Node.zero, Trie.size, Trie.header, List.length_cons,
      List.length_append, e1, ← BitVec.ofNat_add, hi, position_add_assoc]
    congr 2
    · omega
    · congr 1; omega

/-- Parse raises MalformedHeader, or CapacityExceeded with every node allocated. -/
def ParseRaises (d : Nat) (s : State) : Prop :=
  ∃ e t, parse d s = .error (.raised e) t ∧ t.rootValid = s.rootValid ∧
    (e = .malformedHeader ∨ e = .capacityExceeded ∧ t.nodeCount.toNat = Config.nodeCap)

/-- Parse finds a trie that fits, or raises: MalformedHeader, or CapacityExceeded with every node allocated. -/
theorem parse_total {d : Nat} (hl : s.input.length ≤ Config.inMaxBits) (hc : s.nodeCount.toNat ≤ Config.nodeCap)
    (hd : Config.nodeCap + 1 ≤ d + s.nodeCount.toNat) :
    (∃ (trie : Trie) (rest : Bits), s.input.drop s.ipos.toNat = trie.header ++ rest ∧
        (∀ sym ∈ trie.symbols, sym ≤ Config.sentinel) ∧ s.nodeCount.toNat + trie.size ≤ Config.nodeCap) ∨
      ParseRaises d s := by
  induction d generalizing s with
  | zero => simp only [Config.nodeCap] at hc hd; omega
  | succ d ih =>
    have mal : ∀ t, parse (d + 1) s = .error (.raised .malformedHeader) t → t.rootValid = s.rootValid →
        ParseRaises (d + 1) s := fun t a b => ⟨_, t, a, b, .inl rfl⟩
    have full : ∀ t, parse (d + 1) s = .error (.raised .capacityExceeded) t → t.rootValid = s.rootValid →
        t.nodeCount.toNat = Config.nodeCap → ParseRaises (d + 1) s := fun t a b c => ⟨_, t, a, b, .inr ⟨rfl, c⟩⟩
    simp only [Config.nodeCap] at hc hd
    cases hq : s.input.drop s.ipos.toNat with
    | nil =>
      have := List.drop_eq_nil_iff.mp hq
      right; apply mal
      · rw [parse, bind_ok (readBits_eod (by omega))]; rfl
      · rfl
    | cons b q =>
      have hb := readBits_prefix (n := 1) (q := [b]) (rest := q) rfl (by omega) hq
      obtain ⟨hp, ha⟩ := drop_after (n := 1) (q := [b]) (rest := q) rfl hl hq (by omega)
      by_cases hn : s.nodeCount.toNat = Config.nodeCap
      · right; apply full
        · rw [parse, bind_ok hb]
          exact bind_error (alloc_full (by exact hn))
        · rfl
        · exact hn
      have h1 : (s.nodeCount + 1).toNat = s.nodeCount.toNat + 1 :=
        index_add (k := 1) (by simp only [Config.nodeCap] at hn; omega)
      cases b with
      | true =>
        by_cases hlen : q.length < 9
        · right; apply mal
          · rw [parse, bind_ok hb]
            refine (bind_ok (alloc_run (by exact hn))).trans ?_
            refine (bind_ok (readBits_eod ?_)).trans rfl
            have := congrArg List.length ha
            simp only [List.length_drop] at this
            show s.input.length < (s.ipos + BitVec.ofNat 48 1).toNat + 9
            omega
          · rfl
        · obtain ⟨v, hv⟩ := exists_msbFirst (n := 9) (q := q.take 9) (by simp; omega)
          have hq9 : q = msbFirst v ++ q.drop 9 := by rw [← hv, List.take_append_drop]
          by_cases hs : Config.sentinel < v.toNat
          · right; apply mal
            · rw [parse, bind_ok hb]
              refine (bind_ok (alloc_run (by exact hn))).trans ?_
              refine (bind_ok (readBits_prefix (n := 9) (q := msbFirst v) (rest := q.drop 9) (msbFirst_length v)
                (by omega) (by exact ha.trans hq9))).trans ?_
              simp only [natOfBits_msbFirst, if_pos hs, raise_run]
              rfl
            · rfl
          · refine .inl ⟨.leaf v, q.drop 9, ?_, ?_, ?_⟩
            · rw [Trie.header, List.cons_append, ← hq9]
            · intro sym h
              simp only [Trie.symbols, List.mem_singleton] at h
              omega
            · simp only [Trie.size, Config.nodeCap] at hn ⊢; omega
      | false =>
        have hall : alloc Node.zero { s with ipos := s.ipos + BitVec.ofNat 48 1 } = _ := alloc_run (by exact hn)
        generalize hs1 : ({ State.setNode { s with ipos := s.ipos + BitVec.ofNat 48 1 } s.nodeCount Node.zero with
          nodeCount := s.nodeCount + 1 } : State) = s1 at hall
        have hin : s1.input = s.input := by rw [← hs1]; rfl
        have hip : s1.ipos = s.ipos + BitVec.ofNat 48 1 := by rw [← hs1]; rfl
        have hct : s1.nodeCount.toNat = s.nodeCount.toNat + 1 := by rw [← hs1]; exact h1
        have hrv : s1.rootValid = s.rootValid := by rw [← hs1]; rfl
        have ha1 : s1.input.drop s1.ipos.toNat = q := by rw [hin, hip]; exact ha
        have hl1 : s1.input.length ≤ Config.inMaxBits := by rw [hin]; exact hl
        simp only [Config.nodeCap] at hn
        rcases ih hl1 (by simp only [Config.nodeCap]; omega) (by simp only [Config.nodeCap]; omega) with
          ⟨l, ql, hql, hsl, hcl⟩ | ⟨e, t, he, hrt, hee⟩
        · have hdl := l.depth_lt_leaves
          have hzl := l.size_eq
          simp only [Config.nodeCap] at hcl
          have hpl := parse_run (d := d) hl1 hcl hsl (by omega) hql
          have h2 : (s1.nodeCount + BitVec.ofNat 10 l.size).toNat = s1.nodeCount.toNat + l.size :=
            index_add (by omega)
          have ha2 := (drop_after rfl hl1 hql l.header_length_pos).2
          generalize hs2 : (s1.parsed l).setNode s.nodeCount
            { (s1.parsed l).nodeAt s.nodeCount with left := s1.nodeCount } = s2
          have hin2 : s2.input = s1.input := by rw [← hs2]; rfl
          have hct2 : s2.nodeCount.toNat = s1.nodeCount.toNat + l.size := by rw [← hs2]; exact h2
          have hrv2 : s2.rootValid = s1.rootValid := by rw [← hs2]; rfl
          have ha2' : s2.input.drop s2.ipos.toNat = ql := by rw [← hs2]; exact ha2
          rcases ih (s := s2) (by rw [hin2]; exact hl1) (by simp only [Config.nodeCap]; omega)
            (by simp only [Config.nodeCap]; omega) with ⟨r, qr, hqr, hsr, hcr⟩ | ⟨e, t, he, hrt, hee⟩
          · refine .inl ⟨.node l r, qr, ?_, ?_, ?_⟩
            · rw [Trie.header, List.cons_append, List.append_assoc, ← hqr, ha2', ← hql, ha1]
            · intro sym h
              simp only [Trie.symbols, List.mem_append] at h
              exact h.elim (hsl sym) (hsr sym)
            · simp only [Trie.size, Config.nodeCap] at hcr ⊢; omega
          · refine .inr ⟨e, t, ?_, by rw [hrt, hrv2, hrv], hee⟩
            rw [parse, bind_ok hb]
            refine (bind_ok hall).trans ?_
            refine (bind_ok hpl).trans ?_
            rw [changeNode_bind]
            exact bind_error (hs2 ▸ he)
        · refine .inr ⟨e, t, ?_, by rw [hrt, hrv], hee⟩
          rw [parse, bind_ok hb]
          refine (bind_ok hall).trans ?_
          exact bind_error he

/-- Where the arena holds a trie's entries in preorder from `n` on, entry `n` is the root of that trie. -/
theorem holds_preorder {n : Nat} (hn : n + trie.size ≤ Config.nodeCap)
    (h : ∀ k (hk : k < trie.size), s.node.read Node.zero (n + k) = (trie.preorder n)[k]'(by simpa using hk)) :
    s.holds trie (BitVec.ofNat 10 n) := by
  simp only [Config.nodeCap] at hn
  induction trie generalizing n with
  | leaf sym =>
    have h0 := h 0 (by simp [Trie.size])
    simp only [Trie.size] at hn
    have hi : (BitVec.ofNat 10 n).toNat = n := by simp; omega
    simp only [Trie.preorder, List.getElem_cons_zero, Nat.add_zero] at h0
    simp only [State.holds, State.nodeAt, hi, h0, Config.nodeCap, and_self, and_true]
    omega
  | node l r ihl ihr =>
    simp only [Trie.size] at hn
    have hi : (BitVec.ofNat 10 n).toNat = n := by simp; omega
    have h0 := h 0 (by simp only [Trie.size]; omega)
    simp only [Trie.preorder, List.getElem_cons_zero, Nat.add_zero] at h0
    simp only [State.holds, State.nodeAt, hi, h0, true_and, Config.nodeCap]
    refine ⟨by omega, ihl (by omega) fun k hk => ?_, ihr (by omega) fun k hk => ?_⟩
    · have := h (k + 1) (by simp only [Trie.size]; omega)
      simp only [Trie.preorder, List.getElem_cons_succ] at this
      rw [List.getElem_append_left (by simpa using hk)] at this
      rw [← this]; congr 1; omega
    · have := h (k + l.size + 1) (by simp only [Trie.size]; omega)
      simp only [Trie.preorder, List.getElem_cons_succ] at this
      rw [List.getElem_append_right (by simp)] at this
      simp only [Trie.preorder_length, Nat.add_sub_cancel] at this
      rw [← this]; congr 1; omega

/-- HR_HEADER on the header of a trie that fits, and whose root is not a byte's leaf. -/
theorem hrHeaderBody_run {rest : Bits} (hl : s.input.length ≤ Config.inMaxBits) (h1 : trie.size ≤ Config.nodeCap)
    (h2 : ∀ sym ∈ trie.symbols, sym ≤ Config.sentinel) (h3 : trie.rootIsSentinelOrInternal = true)
    (hq : s.input.drop s.ipos.toNat = trie.header ++ rest) :
    ((clearArena s).parsed trie).holds trie 0 ∧
      hrHeaderBody s = .ok (BitVec.ofNat 64 trie.size) { (clearArena s).parsed trie with
        root := 0, rootValid := true, cursor := 0, phase := .decoding } := by
  have h0 : (clearArena s).nodeCount.toNat = 0 := rfl
  have hs := trie.size_eq
  have hd := trie.depth_lt_leaves
  simp only [Config.nodeCap] at h1
  have hp := parse_run (s := clearArena s) (d := Config.nodeCap + 1) (trie := trie) (rest := rest) hl
    (by rw [h0]; simp [Config.nodeCap]; omega) h2 (by simp [Config.nodeCap]; omega) hq
  have hh : ((clearArena s).parsed trie).holds trie (BitVec.ofNat 10 0) := by
    apply holds_preorder (by simpa [Config.nodeCap] using h1)
    intro k hk
    exact RegFile.read_writeFrom _ _ _ (by simpa using hk) (by rw [h0]; simp [Config.nodeCap]; omega)
  refine ⟨hh, ?_⟩
  have hv := visitNode_run (i := 0) (by simp [Config.nodeCap]) ((clearArena s).parsed trie)
  rw [hrHeaderBody, update_bind]
  refine (bind_ok hp).trans ?_
  refine (bind_ok hv).trans ?_
  have hcond : ¬ ((((clearArena s).parsed trie).nodeAt 0).leaf = true ∧
      (((clearArena s).parsed trie).nodeAt 0).sym.toNat ≠ Config.sentinel) := by
    cases trie with
    | leaf sym =>
      rintro ⟨_, h⟩
      apply h
      have : (((clearArena s).parsed (.leaf sym)).nodeAt 0).sym = sym := hh.2.2
      rw [this]; simpa [Trie.rootIsSentinelOrInternal] using h3
    | node l r =>
      rintro ⟨h, _⟩
      have : (((clearArena s).parsed (.node l r)).nodeAt 0).leaf = false := hh.2.1
      rw [this] at h; cases h
  rw [if_neg hcond, update_bind, getState_bind]
  show EStateM.Result.ok _ _ = _
  congr 1
  show (0 + BitVec.ofNat 10 trie.size : BitVec 10).setWidth 64 = _
  apply BitVec.eq_of_toNat_eq; simp; omega

end Sys2Proof.Machine
end

