-- ==== Sys2Proof/Laws/PerInstr.lean ====
section
/-! SUPPORT. Statements about every command as syntax, one lemma a constructor. -/

namespace Sys2Proof.Laws.RoundTrip

/-- The decoder reads back a well-formed command from the word the encoder writes. -/
def Statement (i : Instr) : Prop := i.wellFormed = true → decode (encode i) = .ok i

theorem nop : Statement .nop := fun _ => by decide

theorem reset : Statement .reset := fun _ => by decide

theorem fcStart : Statement .fcStart := fun _ => by decide

theorem fcStep : Statement .fcStep := fun _ => by decide

theorem fcRun : Statement .fcRun := fun _ => by decide

theorem tbBuild : Statement .tbBuild := fun _ => by decide

theorem ctGen : Statement .ctGen := fun _ => by decide

theorem hwMagic : Statement .hwMagic := fun _ => by decide

theorem hwHeader : Statement .hwHeader := fun _ => by decide

theorem encStart : Statement .encStart := fun _ => by decide

theorem encStep : Statement .encStep := fun _ => by decide

theorem encRun : Statement .encRun := fun _ => by decide

theorem dmStart : Statement .dmStart := fun _ => by decide

theorem hrMagic : Statement .hrMagic := fun _ => by decide

theorem hrHeader : Statement .hrHeader := fun _ => by decide

theorem decStep : Statement .decStep := fun _ => by decide

theorem decRun : Statement .decRun := fun _ => by decide

theorem rdStatus : Statement .rdStatus := fun _ => by decide

theorem rdFreq (a : OperandA) : Statement (.rdFreq a) := by
  intro h
  simp only [Instr.wellFormed] at h
  simp [decode_encode_eq, Instr.opcode, Instr.operandA, Instr.operandB, decodeOp, symbolRow, h]

theorem rdLen : Statement .rdLen := fun _ => by decide

theorem rdRoot : Statement .rdRoot := fun _ => by decide

theorem rdNcount : Statement .rdNcount := fun _ => by decide

theorem rdNode (a : OperandA) : Statement (.rdNode a) := by
  intro h
  simp only [Instr.wellFormed] at h
  simp [decode_encode_eq, Instr.opcode, Instr.operandA, Instr.operandB, decodeOp, nodeRow]

theorem rdCodelen (a : OperandA) : Statement (.rdCodelen a) := by
  intro h
  simp only [Instr.wellFormed] at h
  simp [decode_encode_eq, Instr.opcode, Instr.operandA, Instr.operandB, decodeOp, symbolRow, h]

theorem rdCodebit (a : OperandA) (b : OperandB) : Statement (.rdCodebit a b) := by
  intro h
  simp only [Instr.wellFormed] at h
  simp [decode_encode_eq, Instr.opcode, Instr.operandA, Instr.operandB, decodeOp, codeBitRow, h]

theorem rdIpos : Statement .rdIpos := fun _ => by decide

theorem rdOutlen : Statement .rdOutlen := fun _ => by decide

theorem rdCursor : Statement .rdCursor := fun _ => by decide

end Sys2Proof.Laws.RoundTrip
end

