-- ==== Sys2Proof/Laws/Queue.lean ====
section
/-! SUPPORT. The priority queue of TB_BUILD (41_trie_builder.md rules R110, R111): the leaves it starts from, the member
ExtractMin takes, and what one merge leaves. -/

namespace Sys2Proof.Machine

variable {s : State}

/-! ### ExtractMin -/

theorem precedes_iff (i j : Index) : s.precedes i j = true ↔
    (s.node.read Node.zero i.toNat).weight.toNat < (s.node.read Node.zero j.toNat).weight.toNat ∨
      (s.node.read Node.zero i.toNat).weight.toNat = (s.node.read Node.zero j.toNat).weight.toNat ∧ i.toNat < j.toNat :=
  decide_eq_true_iff

theorem leastOf_mem (m : Index) (q : List Index) : s.leastOf m q ∈ m :: q := by
  induction q generalizing m with
  | nil => simp [State.leastOf]
  | cons i q ih =>
    have := ih (if s.precedes i m then i else m)
    rw [State.leastOf]
    split_ifs at this ⊢ <;> simp only [List.mem_cons] at this ⊢ <;> tauto

theorem leastOf_le (m : Index) (q : List Index) : ∀ j ∈ m :: q, s.atMost (s.leastOf m q).toNat j.toNat := by
  have trans : ∀ a b c : Nat, s.atMost a b → s.atMost b c → s.atMost a c := by
    intro a b c h k; simp only [State.atMost] at *; omega
  induction q generalizing m with
  | nil => intro j hj; simp only [List.mem_singleton] at hj; subst hj; exact .inr ⟨rfl, le_refl _⟩
  | cons i q ih =>
    intro j hj
    have h := ih (if s.precedes i m then i else m)
    rw [State.leastOf]
    have h0 := h _ (List.mem_cons_self)
    rcases List.mem_cons.mp hj with rfl | hj
    · refine trans _ _ _ h0 ?_
      split_ifs with hp
      · rw [precedes_iff] at hp
        simp only [State.atMost]; omega
      · exact .inr ⟨rfl, le_refl _⟩
    · rcases List.mem_cons.mp hj with rfl | hj
      · refine trans _ _ _ h0 ?_
        split_ifs with hp
        · exact .inr ⟨rfl, le_refl _⟩
        · rw [precedes_iff] at hp
          simp only [State.atMost]; omega
      · exact h j (List.mem_cons_of_mem _ hj)

/-- ExtractMin takes a least member out of a queue that is not empty, and changes no state. -/
theorem extractMin_run {q : List Index} (h : q ≠ []) :
    ∃ m ∈ q, extractMin q s = .ok (m, q.erase m) s ∧ ∀ j ∈ q, s.atMost m.toNat j.toNat := by
  cases q with
  | nil => exact absurd rfl h
  | cons i q => exact ⟨s.leastOf i q, leastOf_mem i q, rfl, leastOf_le i q⟩

/-- One round of the merge loop: the two least members out, their parent in. -/
theorem mergeAll_round {k : Nat} {q : List Index} (hq : 2 ≤ q.length) (hb : ∀ i ∈ q, i.toNat < Config.nodeCap)
    (hn : s.nodeCount.toNat ≠ Config.nodeCap) :
    ∃ x y, x ∈ q ∧ y ∈ q.erase x ∧ (∀ j ∈ q, s.atMost x.toNat j.toNat) ∧
      (∀ j ∈ q.erase x, s.atMost y.toNat j.toNat) ∧
      mergeAll (k + 1) q s = mergeAll k ((q.erase x).erase y ++ [s.nodeCount])
        { s.setNode s.nodeCount ⟨false, 0, x, y, (s.nodeAt x).weight + (s.nodeAt y).weight⟩ with
          nodeCount := s.nodeCount + 1 } := by
  obtain ⟨x, hx, h1, hmx⟩ := extractMin_run (s := s) (q := q) (by rintro rfl; simp at hq)
  have hl : (q.erase x).length = q.length - 1 := List.length_erase_of_mem hx
  obtain ⟨y, hy, h2, hmy⟩ := extractMin_run (s := s) (q := q.erase x) (by intro h; simp [h] at hl; omega)
  refine ⟨x, y, hx, hy, hmx, hmy, ?_⟩
  match q, hq with
  | a :: b :: q, _ =>
    rw [mergeAll]
    · refine (bind_ok h1).trans ?_
      refine (bind_ok h2).trans ?_
      refine (bind_ok (visitNode_run (hb x hx) s)).trans ?_
      refine (bind_ok (visitNode_run (hb y (List.mem_of_mem_erase hy)) s)).trans ?_
      exact bind_ok (alloc_run hn)
    all_goals simp

/-! ### The leaves -/

/-- The symbols with a count and their counts, ascending, where the counts of the symbols from `sym` on are given. -/
def usedFrom : List Count → Nat → List (Nat × Count)
  | [], _ => []
  | c :: cs, sym => if 0 < c.toNat then (sym, c) :: usedFrom cs (sym + 1) else usedFrom cs (sym + 1)

/-- The leaf of a symbol. -/
def leafOf (u : Nat × Count) : Node := ⟨true, BitVec.ofNat 9 u.1, 0, 0, u.2.setWidth 33⟩

/-- The leaves are allocated in the order of their symbols, and are the queue's members in that order. -/
theorem allocLeaves_run (cs : List Count) (sym : Nat) (q : List Index)
    (h : s.nodeCount.toNat + (usedFrom cs sym).length ≤ Config.nodeCap) :
    allocLeaves cs sym q s = .ok
      (q ++ (List.range (usedFrom cs sym).length).map fun k => BitVec.ofNat 10 (s.nodeCount.toNat + k)) { s with
        node := s.node.writeFrom s.nodeCount.toNat ((usedFrom cs sym).map leafOf)
        nodeCount := s.nodeCount + BitVec.ofNat 10 (usedFrom cs sym).length } := by
  induction cs generalizing s sym q with
  | nil => simp [usedFrom, allocLeaves, RegFile.writeFrom]
  | cons c cs ih =>
    by_cases hc : 0 < c.toNat
    · simp only [usedFrom, if_pos hc, List.length_cons] at h ⊢
      simp only [Config.nodeCap] at h
      have hn : s.nodeCount.toNat ≠ Config.nodeCap := by simp only [Config.nodeCap]; omega
      have h1 : (s.nodeCount + 1).toNat = s.nodeCount.toNat + 1 := index_add (k := 1) (by omega)
      rw [allocLeaves, if_pos hc]
      refine (bind_ok (alloc_run hn)).trans ?_
      rw [ih]
      · simp only [h1, State.setNode, List.map_cons, RegFile.writeFrom]
        congr 1
        · rw [List.append_assoc, List.range_succ_eq_map, List.map_cons, List.map_map]
          congr 1
          simp only [List.singleton_append, Nat.add_zero, BitVec.ofNat_toNat, BitVec.setWidth_eq]
          congr 1
          apply List.map_congr_left
          intro k _
          simp only [Function.comp_apply]; congr 1; omega
        · congr 1
          rw [Nat.add_comm (usedFrom cs (sym + 1)).length 1, ← index_add_assoc]; rfl
      · show (s.nodeCount + 1).toNat + _ ≤ _
        simp only [Config.nodeCap]; omega
    · simp only [usedFrom, if_neg hc] at h ⊢
      rw [allocLeaves, if_neg hc, ih sym.succ q h]

/-! ### The merge loop -/

theorem inQueueAt_congr {t : State} {j i : Nat} (h : ∀ m < j, t.node.read Node.zero m = s.node.read Node.zero m) :
    t.inQueueAt j i ↔ s.inQueueAt j i := by
  simp only [State.inQueueAt]
  refine and_congr_right fun _ => forall_congr' fun m => forall_congr' fun hm => ?_
  rw [h m hm]

theorem mergesLeastTwo_congr {t : State} {j : Nat} (h : ∀ m ≤ j, t.node.read Node.zero m = s.node.read Node.zero m)
    (hs : s.mergesLeastTwo j) : t.mergesLeastTwo j := by
  obtain ⟨l, r, h1, h2, h3, h4, h5, h6⟩ := hs
  have hq : ∀ i, t.inQueueAt j i ↔ s.inQueueAt j i := fun i => inQueueAt_congr fun m hm => h m hm.le
  have ha : ∀ i k, i < j → k < j → (t.atMost i k ↔ s.atMost i k) := fun i k hi hk => by
    simp only [State.atMost, h i hi.le, h k hk.le]
  refine ⟨l, r, ?_, (hq _).mpr h2, fun i hi => ?_, (hq _).mpr h4, h5, fun i hi hil => ?_⟩
  · rw [h j (le_refl _), h1, h _ h2.1.le, h _ h4.1.le]
  · exact (ha _ _ h2.1 hi.1).mpr (h3 i ((hq i).mp hi))
  · exact (ha _ _ h4.1 hi.1).mpr (h6 i ((hq i).mp hi) hil)

/-- What holds of the arena and the queue in the merge loop of TB_BUILD. -/
structure Merging (s : State) (q : List Index) : Prop where
  nodup : q.Nodup
  nonempty : q ≠ []
  room : s.nodeCount.toNat + q.length ≤ Config.nodeCap + 1
  queue : ∀ i : Nat, s.inQueueAt s.nodeCount.toNat i ↔ ∃ x ∈ q, x.toNat = i
  children : ∀ m < s.nodeCount.toNat, (s.node.read Node.zero m).leaf = false →
    (s.node.read Node.zero m).left.toNat < m ∧ (s.node.read Node.zero m).right.toNat < m

theorem Merging.lt {q : List Index} (h : Merging s q) {x : Index} (hx : x ∈ q) : x.toNat < s.nodeCount.toNat :=
  ((h.queue _).mpr ⟨x, hx, rfl⟩).1

/-- The state after the merge of entries `x` and `y`. -/
def State.merged (s : State) (x y : Index) : State :=
  { s.setNode s.nodeCount ⟨false, 0, x, y, (s.nodeAt x).weight + (s.nodeAt y).weight⟩ with
    nodeCount := s.nodeCount + 1 }

theorem merged_read_other (x y : Index) {i : Nat} (h : i ≠ s.nodeCount.toNat) :
    (s.merged x y).node.read Node.zero i = s.node.read Node.zero i :=
  RegFile.read_write_other _ _ _ (Ne.symm h)

theorem merged_read (x y : Index) (h : s.nodeCount.toNat < Config.nodeCap) :
    (s.merged x y).node.read Node.zero s.nodeCount.toNat =
      ⟨false, 0, x, y, (s.nodeAt x).weight + (s.nodeAt y).weight⟩ := RegFile.read_write_same _ _ _ h

theorem merged_nodeCount (x y : Index) (h : s.nodeCount.toNat < Config.nodeCap) :
    (s.merged x y).nodeCount.toNat = s.nodeCount.toNat + 1 :=
  index_add (k := 1) (by simp only [Config.nodeCap] at h; omega)

/-- One merge keeps the loop's invariant, and its node is the merge of the two least members. -/
theorem Merging.round {q : List Index} (h : Merging s q) (h2 : 2 ≤ q.length) {x y : Index} (hx : x ∈ q)
    (hy : y ∈ q.erase x) (hmx : ∀ j ∈ q, s.atMost x.toNat j.toNat)
    (hmy : ∀ j ∈ q.erase x, s.atMost y.toNat j.toNat) :
    Merging (s.merged x y) ((q.erase x).erase y ++ [s.nodeCount]) ∧
      (s.merged x y).mergesLeastTwo s.nodeCount.toNat := by
  have hroom := h.room
  have hN : s.nodeCount.toNat < Config.nodeCap := by omega
  have hyq := List.mem_of_mem_erase hy
  have hxN := h.lt hx
  have hyN := h.lt hyq
  have hxy : x ≠ y := by rintro rfl; exact h.nodup.not_mem_erase hy
  have hc := merged_nodeCount x y hN
  have hread : ∀ m < s.nodeCount.toNat, (s.merged x y).node.read Node.zero m = s.node.read Node.zero m :=
    fun m hm => merged_read_other x y (by omega)
  have hmem : ∀ z : Index, z ∈ (q.erase x).erase y ↔ z ∈ q ∧ z ≠ x ∧ z ≠ y := by
    intro z
    rw [(h.nodup.erase x).mem_erase_iff, h.nodup.mem_erase_iff]; tauto
  have hl1 := List.length_erase_of_mem hx
  have hl2 := List.length_erase_of_mem hy
  have hN' : s.nodeCount ∉ (q.erase x).erase y := fun hm => by
    have := h.lt ((hmem _).mp hm).1; omega
  have hq' : ∀ i, (s.merged x y).inQueueAt s.nodeCount.toNat i ↔ ∃ z ∈ q, z.toNat = i := fun i =>
    (inQueueAt_congr hread).trans (h.queue i)
  refine ⟨⟨?_, by simp, ?_, fun i => ?_, fun m hm hlf => ?_⟩, x, y, ?_, (hq' _).mpr ⟨x, hx, rfl⟩, fun i hi => ?_,
    (hq' _).mpr ⟨y, hyq, rfl⟩, hxy, fun i hi hix => ?_⟩
  · exact List.nodup_append.mpr ⟨(h.nodup.erase x).erase y, by simp, fun a ha b hb e => hN' (by rw [← List.mem_singleton.mp hb, ← e]; exact ha)⟩
  · rw [hc, List.length_append, hl2, hl1]
    simp only [List.length_singleton]; omega
  · rw [hc]
    constructor
    · rintro ⟨hi, hall⟩
      have hlast := hall s.nodeCount.toNat (by omega) (by rw [merged_read x y hN])
      rw [merged_read x y hN] at hlast
      by_cases hiN : i = s.nodeCount.toNat
      · exact ⟨s.nodeCount, by simp, hiN.symm⟩
      · obtain ⟨z, hz, rfl⟩ := (hq' i).mp ⟨by omega, fun m hm => hall m (by omega)⟩
        refine ⟨z, List.mem_append_left _ ((hmem z).mpr ⟨hz, ?_, ?_⟩), rfl⟩
        · rintro rfl; exact hlast.1 rfl
        · rintro rfl; exact hlast.2 rfl
    · rintro ⟨z, hz, rfl⟩
      rcases List.mem_append.mp hz with hz | hz
      · obtain ⟨hzq, hzx, hzy⟩ := (hmem z).mp hz
        obtain ⟨h1, h2⟩ := (hq' _).mpr ⟨z, hzq, rfl⟩
        refine ⟨by omega, fun m hm hlf => ?_⟩
        by_cases hmN : m = s.nodeCount.toNat
        · subst hmN
          rw [merged_read x y hN]
          exact ⟨fun e => hzx (BitVec.eq_of_toNat_eq e).symm, fun e => hzy (BitVec.eq_of_toNat_eq e).symm⟩
        · exact h2 m (by omega) hlf
      · simp only [List.mem_singleton] at hz
        subst hz
        refine ⟨by omega, fun m hm hlf => ?_⟩
        by_cases hmN : m = s.nodeCount.toNat
        · subst hmN
          rw [merged_read x y hN]
          exact ⟨by simp only; omega, by simp only; omega⟩
        · rw [hread m (by omega)] at hlf ⊢
          have := h.children m (by omega) hlf
          omega
  · rw [hc] at hm
    by_cases hmN : m = s.nodeCount.toNat
    · subst hmN
      rw [merged_read x y hN]
      exact ⟨hxN, hyN⟩
    · rw [hread m (by omega)] at hlf ⊢
      exact h.children m (by omega) hlf
  · rw [merged_read x y hN, hread _ hxN, hread _ hyN]; rfl
  · obtain ⟨z, hz, rfl⟩ := (hq' i).mp hi
    have := hmx z hz
    simp only [State.atMost, hread _ hxN, hread _ (h.lt hz)] at this ⊢
    exact this
  · obtain ⟨z, hz, rfl⟩ := (hq' i).mp hi
    have := hmy z ((h.nodup.mem_erase_iff).mpr ⟨fun e => hix (by rw [e]), hz⟩)
    simp only [State.atMost, hread _ hyN, hread _ (h.lt hz)] at this ⊢
    exact this

/-- The merge loop, from any queue: |Q| − 1 merges, each of the two least members, and the last one left is the root. -/
theorem mergeAll_run {q : List Index} (h : Merging s q) :
    ∃ r t, mergeAll q.length q s = .ok r t ∧ Merging t [r] ∧
      t = { s with node := t.node, nodeCount := BitVec.ofNat 10 (s.nodeCount.toNat + (q.length - 1)) } ∧
      (∀ i, i < s.nodeCount.toNat ∨ s.nodeCount.toNat + (q.length - 1) ≤ i →
        t.node.read Node.zero i = s.node.read Node.zero i) ∧
      (∀ j, s.nodeCount.toNat ≤ j → j < s.nodeCount.toNat + (q.length - 1) → t.mergesLeastTwo j) ∧
      (2 ≤ q.length → r.toNat = s.nodeCount.toNat + (q.length - 2)) ∧ (q.length = 1 → q = [r]) := by
  induction hk : q.length generalizing q s with
  | zero => exact absurd (List.length_eq_zero_iff.mp hk) h.nonempty
  | succ k ih =>
    by_cases h1 : k = 0
    · subst h1
      obtain ⟨r, rfl⟩ := List.length_eq_one_iff.mp hk
      refine ⟨r, s, rfl, h, by simp, fun _ _ => rfl, fun j _ _ => by omega, fun h => by omega, fun _ => rfl⟩
    · have hroom := h.room
      have hN : s.nodeCount.toNat < Config.nodeCap := by omega
      obtain ⟨x, y, hx, hy, hmx, hmy, hrun⟩ := mergeAll_round (s := s) (k := k) (q := q) (by omega)
        (fun i hi => (h.lt hi).trans hN) (by omega)
      have hl1 := List.length_erase_of_mem hx
      have hl2 := List.length_erase_of_mem hy
      obtain ⟨hm, hleast⟩ := h.round (by omega) hx hy hmx hmy
      have hlen : ((q.erase x).erase y ++ [s.nodeCount]).length = k := by
        rw [List.length_append, hl2, hl1]; simp only [List.length_singleton]; omega
      obtain ⟨r, t, ht1, ht2, ht3, ht4, ht5, ht6, ht7⟩ := ih hm hlen
      have hc := merged_nodeCount x y hN
      rw [hc] at ht3 ht4 ht5 ht6
      refine ⟨r, t, hrun.trans ht1, ht2, ?_, fun i hi => ?_, fun j hj1 hj2 => ?_, fun _ => ?_, fun h => by omega⟩
      · rw [ht3]
        simp only [State.merged, State.setNode]
        congr 2; omega
      · rw [ht4 i (by omega), merged_read_other x y (by omega)]
      · by_cases hjN : j = s.nodeCount.toNat
        · subst hjN
          exact mergesLeastTwo_congr (fun m hm => ht4 m (by omega)) hleast
        · exact ht5 j (by omega) (by omega)
      · by_cases hk2 : 2 ≤ k
        · have := ht6 hk2; omega
        · have hk1 : k = 1 := by omega
          have := ht7 hk1
          have he : (q.erase x).erase y = [] := List.length_eq_zero_iff.mp (by omega)
          rw [he] at this
          simp only [List.nil_append, List.cons.injEq, and_true] at this
          rw [← this]; omega

/-! ### The tries in the queue -/

/-- A trie among the allocated entries stays where those entries stay. -/
theorem holds_agree {t : State} {N : Nat} {trie : Trie} {i : Index}
    (hr : ∀ m < N, t.node.read Node.zero m = s.node.read Node.zero m)
    (hc : ∀ m < N, (s.node.read Node.zero m).leaf = false →
      (s.node.read Node.zero m).left.toNat < m ∧ (s.node.read Node.zero m).right.toNat < m)
    (hi : i.toNat < N) (h : s.holds trie i) : t.holds trie i := by
  have hn : t.nodeAt i = s.nodeAt i := hr _ hi
  induction trie generalizing i with
  | leaf sym => simpa [State.holds, hn] using h
  | node l r ihl ihr =>
    have := hc _ hi h.2.1
    have hl : (s.nodeAt i).left.toNat < N := by simp only [State.nodeAt]; omega
    have hr' : (s.nodeAt i).right.toNat < N := by simp only [State.nodeAt]; omega
    simp only [State.holds, hn]
    exact ⟨h.1, h.2.1, ihl hl h.2.2.1 (hr _ hl), ihr hr' h.2.2.2 (hr _ hr')⟩

theorem weighs_agree {t : State} {N : Nat} {trie : Trie} {i : Index}
    (hr : ∀ m < N, t.node.read Node.zero m = s.node.read Node.zero m) (hf : t.freq = s.freq)
    (hc : ∀ m < N, (s.node.read Node.zero m).leaf = false →
      (s.node.read Node.zero m).left.toNat < m ∧ (s.node.read Node.zero m).right.toNat < m)
    (hi : i.toNat < N) (h : s.holds trie i) (hw : s.weighs trie i) : t.weighs trie i := by
  have hn : t.nodeAt i = s.nodeAt i := hr _ hi
  have hq : t.freqAt = s.freqAt := by funext j; simp [State.freqAt, hf]
  induction trie generalizing i with
  | leaf sym => simpa [State.weighs, hn, hq] using hw
  | node l r ihl ihr =>
    have := hc _ hi h.2.1
    have hl : (s.nodeAt i).left.toNat < N := by simp only [State.nodeAt]; omega
    have hr' : (s.nodeAt i).right.toNat < N := by simp only [State.nodeAt]; omega
    have hnl : t.nodeAt (s.nodeAt i).left = s.nodeAt (s.nodeAt i).left := hr _ hl
    have hnr : t.nodeAt (s.nodeAt i).right = s.nodeAt (s.nodeAt i).right := hr _ hr'
    simp only [State.weighs, hn, hnl, hnr]
    exact ⟨hw.1, ihl hl h.2.2.1 hw.2.1 hnl, ihr hr' h.2.2.2 hw.2.2 hnr⟩

/-- The weights of the members of a queue, summed. -/
def State.totalWeight (s : State) (q : List Index) : Nat := (q.map fun i => (s.nodeAt i).weight.toNat).sum

/-- The merge loop joins the tries of the queue's members into one, and adds up their weights. -/
theorem mergeAll_tries {q : List Index} (h : Merging s q) (T : Index → Trie)
    (hT : ∀ i ∈ q, s.holds (T i) i ∧ s.weighs (T i) i) (hw : s.totalWeight q < 2 ^ 33) {r : Index} {t : State}
    (hrun : mergeAll q.length q s = .ok r t) :
    ∃ trie : Trie, t.holds trie r ∧ t.weighs trie r ∧ trie.symbols.Perm (q.flatMap fun i => (T i).symbols) ∧
      (t.nodeAt r).weight.toNat = s.totalWeight q := by
  induction hk : q.length generalizing q s T with
  | zero => exact absurd (List.length_eq_zero_iff.mp hk) h.nonempty
  | succ k ih =>
    by_cases h1 : k = 0
    · subst h1
      obtain ⟨r', rfl⟩ := List.length_eq_one_iff.mp hk
      simp only [List.length_singleton, mergeAll, pure_run, EStateM.Result.ok.injEq] at hrun
      obtain ⟨rfl, rfl⟩ := hrun
      obtain ⟨ha, hb⟩ := hT r' (by simp)
      exact ⟨T r', ha, hb, by simp, by simp [State.totalWeight]⟩
    · have hroom := h.room
      have hN : s.nodeCount.toNat < Config.nodeCap := by omega
      obtain ⟨x, y, hx, hy, hmx, hmy, hround⟩ := mergeAll_round (s := s) (k := k) (q := q) (by omega)
        (fun i hi => (h.lt hi).trans hN) (by omega)
      rw [hk] at hrun
      replace hrun := hround.symm.trans hrun
      have hl1 := List.length_erase_of_mem hx
      have hl2 := List.length_erase_of_mem hy
      have hm := (h.round (by omega) hx hy hmx hmy).1
      have hlen : ((q.erase x).erase y ++ [s.nodeCount]).length = k := by
        rw [List.length_append, hl2, hl1]; simp only [List.length_singleton]; omega
      have hp : q.Perm (x :: y :: (q.erase x).erase y) :=
        (List.perm_cons_erase hx).trans ((List.perm_cons_erase hy).cons _)
      have hread : ∀ m < s.nodeCount.toNat, (s.merged x y).node.read Node.zero m = s.node.read Node.zero m :=
        fun m hm => merged_read_other x y (by omega)
      have hnew : (s.merged x y).nodeAt s.nodeCount = ⟨false, 0, x, y, (s.nodeAt x).weight + (s.nodeAt y).weight⟩ :=
        merged_read x y hN
      have hyq := List.mem_of_mem_erase hy
      have hxN := h.lt hx
      have hyN := h.lt hyq
      have hrest : ∀ z ∈ (q.erase x).erase y, z ∈ q := fun z hz => List.mem_of_mem_erase (List.mem_of_mem_erase hz)
      have htot : s.totalWeight q =
          (s.nodeAt x).weight.toNat + ((s.nodeAt y).weight.toNat + s.totalWeight ((q.erase x).erase y)) := by
        simp only [State.totalWeight]
        rw [(hp.map _).sum_eq]; simp
      have hsum : ((s.nodeAt x).weight + (s.nodeAt y).weight).toNat =
          (s.nodeAt x).weight.toNat + (s.nodeAt y).weight.toNat := by
        rw [BitVec.toNat_add]; omega
      have hold : (s.merged x y).totalWeight ((q.erase x).erase y) = s.totalWeight ((q.erase x).erase y) := by
        simp only [State.totalWeight]
        congr 1
        apply List.map_congr_left
        intro z hz
        have : (s.merged x y).nodeAt z = s.nodeAt z := hread _ (h.lt (hrest z hz))
        rw [this]
      have htot' : (s.merged x y).totalWeight ((q.erase x).erase y ++ [s.nodeCount]) = s.totalWeight q := by
        rw [htot, ← hold]
        simp only [State.totalWeight, List.map_append, List.sum_append, List.map_cons, List.map_nil, List.sum_cons,
          List.sum_nil, hnew, hsum]
        omega
      have hne : ∀ z ∈ q, z ≠ s.nodeCount := fun z hz e => by have := h.lt hz; rw [e] at this; omega
      have hT' : ∀ i ∈ (q.erase x).erase y ++ [s.nodeCount],
          (s.merged x y).holds (if i = s.nodeCount then .node (T x) (T y) else T i) i ∧
            (s.merged x y).weighs (if i = s.nodeCount then .node (T x) (T y) else T i) i := by
        intro i hi
        rcases List.mem_append.mp hi with hi | hi
        · rw [if_neg (hne i (hrest i hi))]
          obtain ⟨ha, hb⟩ := hT i (hrest i hi)
          exact ⟨holds_agree hread h.children (h.lt (hrest i hi)) ha,
            weighs_agree hread rfl h.children (h.lt (hrest i hi)) ha hb⟩
        · simp only [List.mem_singleton] at hi
          subst hi
          rw [if_pos rfl]
          obtain ⟨hax, hbx⟩ := hT x hx
          obtain ⟨hay, hby⟩ := hT y hyq
          have hnx : (s.merged x y).nodeAt x = s.nodeAt x := hread _ hxN
          have hny : (s.merged x y).nodeAt y = s.nodeAt y := hread _ hyN
          simp only [State.holds, State.weighs, hnew, hnx, hny, hsum]
          exact ⟨⟨hN, trivial, holds_agree hread h.children hxN hax, holds_agree hread h.children hyN hay⟩, trivial,
            weighs_agree hread rfl h.children hxN hax hbx, weighs_agree hread rfl h.children hyN hay hby⟩
      obtain ⟨trie, ht1, ht2, ht3, ht4⟩ := ih hm
        (fun i => if i = s.nodeCount then .node (T x) (T y) else T i) hT' (by rw [htot']; exact hw)
        (by rw [hlen]; exact hrun) hlen
      refine ⟨trie, ht1, ht2, ht3.trans ?_, ht4.trans htot'⟩
      rw [List.flatMap_append]
      have e1 : ((q.erase x).erase y).flatMap (fun i => (if i = s.nodeCount then Trie.node (T x) (T y) else T i).symbols)
          = ((q.erase x).erase y).flatMap fun i => (T i).symbols := by
        apply List.flatMap_congr
        intro z hz
        rw [if_neg (hne z (hrest z hz))]
      rw [e1]
      simp only [List.flatMap_cons, List.flatMap_nil, if_true, Trie.symbols, List.append_nil]
      refine List.Perm.trans ?_ (hp.flatMap_right _).symm
      rw [List.flatMap_cons, List.flatMap_cons, ← List.append_assoc (T x).symbols]
      exact List.perm_append_comm

/-! ### The counts -/

theorem usedFrom_eq (cs : List Count) (sym : Nat) : usedFrom cs sym =
    ((List.range cs.length).filter fun k => 0 < (cs.getD k 0).toNat).map fun k => (sym + k, cs.getD k 0) := by
  induction cs generalizing sym with
  | nil => rfl
  | cons c cs ih =>
    rw [usedFrom, ih, List.length_cons, List.range_succ_eq_map, List.filter_cons, List.filter_map, List.getD_cons_zero]
    have e : ∀ k, sym + 1 + k = sym + (k + 1) := fun k => by omega
    split_ifs with h1 h2 h2
    · simp [Function.comp_def, e]
    · simp at h2; omega
    · simp at h2; omega
    · simp [Function.comp_def, e]

/-- The leaves of TB_BUILD are those of the used symbols. -/
theorem usedFrom_freq (s : State) : usedFrom s.freq.cells 0 = s.usedSymbols.map fun sym => (sym, s.freqAt sym) := by
  rw [usedFrom_eq, s.freq.size]
  simp [State.usedSymbols, State.freqAt, RegFile.read]

theorem usedSymbols_length (s : State) : s.usedSymbols.length ≤ 257 := by
  have := List.length_filter_le (fun sym => decide (0 < (s.freqAt sym).toNat)) (List.range Config.nsym)
  simpa [State.usedSymbols, Config.nsym] using this

/-- The queue TB_BUILD merges: the leaves of an arena that was empty. -/
theorem merging_leaves {leaves : List Node} (h0 : 0 < leaves.length) (h1 : leaves.length ≤ 257)
    (hl : ∀ x ∈ leaves, x.leaf = true) (hn : s.node = (RegFile.fill Config.nodeCap Node.zero).writeFrom 0 leaves)
    (hc : s.nodeCount = BitVec.ofNat 10 leaves.length) :
    Merging s ((List.range leaves.length).map fun k => BitVec.ofNat 10 k) := by
  have hcn : s.nodeCount.toNat = leaves.length := by rw [hc, BitVec.toNat_ofNat]; omega
  have hread : ∀ m (hm : m < leaves.length), s.node.read Node.zero m = leaves[m] := fun m hm => by
    have := RegFile.read_writeFrom (RegFile.fill Config.nodeCap Node.zero) Node.zero (i := 0) leaves hm
      (by simp only [Config.nodeCap]; omega)
    rw [hn]; simpa using this
  have hleaf : ∀ m < leaves.length, (s.node.read Node.zero m).leaf = true := fun m hm => by
    rw [hread m hm]; exact hl _ (List.getElem_mem hm)
  refine ⟨?_, ?_, ?_, fun i => ?_, fun m hm hlf => ?_⟩
  · refine (List.nodup_range).map_on fun a ha b hb e => ?_
    have := congrArg BitVec.toNat e
    simp only [BitVec.toNat_ofNat, List.mem_range] at this ha hb
    omega
  · intro e
    have := congrArg List.length e
    simp only [List.length_map, List.length_range, List.length_nil] at this; omega
  · rw [hcn]; simp [Config.nodeCap]; omega
  · rw [hcn]
    constructor
    · rintro ⟨hi, _⟩
      exact ⟨BitVec.ofNat 10 i, List.mem_map.mpr ⟨i, List.mem_range.mpr hi, rfl⟩, by simp; omega⟩
    · rintro ⟨x, hx, rfl⟩
      obtain ⟨k, hk, rfl⟩ := List.mem_map.mp hx
      have hk := List.mem_range.mp hk
      refine ⟨by simp; omega, fun m hm hlf => ?_⟩
      rw [hleaf m hm] at hlf; cases hlf
  · rw [hleaf m (by omega)] at hlf; cases hlf

/-! ### TB_BUILD -/

/-- The arena of TB_BUILD when its leaves are allocated. -/
def State.withLeaves (s : State) : State := { clearArena s with
  node := (RegFile.fill Config.nodeCap Node.zero).writeFrom 0 (s.usedSymbols.map fun sym => leafOf (sym, s.freqAt sym))
  nodeCount := BitVec.ofNat 10 s.usedSymbols.length }

/-- The queue of TB_BUILD when its leaves are allocated. -/
def State.leafQueue (s : State) : List Index := (List.range s.usedSymbols.length).map fun k => BitVec.ofNat 10 k

@[simp] theorem leafQueue_length (s : State) : s.leafQueue.length = s.usedSymbols.length := by simp [State.leafQueue]

theorem merging_withLeaves (h : s.usedSymbols ≠ []) : Merging s.withLeaves s.leafQueue := by
  have h0 := List.length_pos_iff.mpr h
  have h1 := usedSymbols_length s
  have := merging_leaves (s := s.withLeaves) (leaves := s.usedSymbols.map fun sym => leafOf (sym, s.freqAt sym))
    (by simpa using h0) (by simpa using h1) (by simp [leafOf]) rfl (by simp [State.withLeaves])
  simpa [State.leafQueue] using this

/-- The leaf of the k-th used symbol. -/
theorem withLeaves_read (s : State) {k : Nat} (h : k < s.usedSymbols.length) :
    s.withLeaves.node.read Node.zero k = leafOf (s.usedSymbols[k], s.freqAt s.usedSymbols[k]) := by
  have h1 := usedSymbols_length s
  have := RegFile.read_writeFrom (RegFile.fill Config.nodeCap Node.zero) Node.zero (i := 0)
    (s.usedSymbols.map fun sym => leafOf (sym, s.freqAt sym)) (k := k) (by simpa using h)
    (by simp only [Config.nodeCap]; omega)
  simpa [State.withLeaves] using this

theorem withLeaves_read_above (s : State) {k : Nat} (h : s.usedSymbols.length ≤ k) :
    s.withLeaves.node.read Node.zero k = Node.zero := by
  have := RegFile.read_writeFrom_other (RegFile.fill Config.nodeCap Node.zero) Node.zero (i := 0) (k := k)
    (s.usedSymbols.map fun sym => leafOf (sym, s.freqAt sym)) (.inr (by simpa using h))
  simpa [State.withLeaves] using this

/-- TB_BUILD allocates the leaves, runs the merge loop, and makes the last member of the queue the root. -/
theorem tbBuildBody_run {r : Index} {t : State}
    (h : mergeAll s.usedSymbols.length s.leafQueue s.withLeaves = .ok r t) :
    tbBuildBody s = .ok (r.setWidth 64) { t with root := r, rootValid := true, phase := .built } := by
  have h1 := usedSymbols_length s
  have ha := allocLeaves_run (s := clearArena s) s.freq.cells 0 []
    (by rw [usedFrom_freq]; simp [Config.nodeCap]; omega)
  simp only [usedFrom_freq, List.length_map, List.map_map] at ha
  rw [tbBuildBody, update_bind, getState_bind]
  refine (bind_ok (t := s.withLeaves) (a := s.leafQueue) (ha.trans ?_)).trans ?_
  · simp [State.withLeaves, State.leafQueue, Function.comp_def]
  · rw [leafQueue_length]
    exact (bind_ok h).trans rfl

/-- The counts of the used symbols add up to the counts of the bytes and the sentinel's. -/
theorem sum_usedSymbols (s : State) :
    (s.usedSymbols.map fun sym => (s.freqAt sym).toNat).sum = s.byteTotal + (s.freqAt 256).toNat := by
  have : ∀ l : List Nat, ((l.filter fun sym => decide (0 < (s.freqAt sym).toNat)).map fun sym =>
      (s.freqAt sym).toNat).sum = (l.map fun sym => (s.freqAt sym).toNat).sum := by
    intro l
    induction l with
    | nil => rfl
    | cons a l ih =>
      rw [List.filter_cons]
      split_ifs with h
      · simp [ih]
      · have : (s.freqAt a).toNat = 0 := by simpa using h
        simp [ih, this]
  rw [State.usedSymbols, this, State.byteTotal]
  show ((List.range 257).map _).sum = _
  rw [List.range_succ (n := 256), List.map_append, List.sum_append]
  simp

/-- TB_BUILD on k > 0 used symbols: the leaves stand in entries 0 to k − 1, the merges in entries k to 2k − 2, and the last
entry is the root. -/
theorem tbBuildBody_total (hu : s.usedSymbols ≠ []) :
    ∃ r t, mergeAll s.usedSymbols.length s.leafQueue s.withLeaves = .ok r t ∧ Merging t [r] ∧
      t = { s.withLeaves with node := t.node, nodeCount := BitVec.ofNat 10 (2 * s.usedSymbols.length - 1) } ∧
      r = BitVec.ofNat 10 (2 * s.usedSymbols.length - 2) ∧
      (∀ i, i < s.usedSymbols.length ∨ 2 * s.usedSymbols.length - 1 ≤ i →
        t.node.read Node.zero i = s.withLeaves.node.read Node.zero i) ∧
      (∀ j, s.usedSymbols.length ≤ j → j < 2 * s.usedSymbols.length - 1 → t.mergesLeastTwo j) ∧
      tbBuildBody s = .ok (r.setWidth 64) { t with root := r, rootValid := true, phase := .built } := by
  have h0 := List.length_pos_iff.mpr hu
  have h1 := usedSymbols_length s
  obtain ⟨r, t, h2, h3, h4, h5, h6, h7, h8⟩ := mergeAll_run (merging_withLeaves hu)
  rw [leafQueue_length] at h2 h4 h5 h6 h7 h8
  have hc : s.withLeaves.nodeCount.toNat = s.usedSymbols.length := by
    simp only [State.withLeaves, BitVec.toNat_ofNat]; omega
  rw [hc] at h4 h5 h6 h7
  have hr : r = BitVec.ofNat 10 (2 * s.usedSymbols.length - 2) := by
    by_cases h2 : 2 ≤ s.usedSymbols.length
    · apply BitVec.eq_of_toNat_eq; rw [h7 h2, BitVec.toNat_ofNat]; omega
    · have he : s.usedSymbols.length = 1 := by omega
      have := h8 he
      rw [State.leafQueue, he] at this
      simp at this
      rw [he, ← this]
  refine ⟨r, t, h2, h3, ?_, hr, fun i hi => h5 i (by omega), fun j hj1 hj2 => h6 j hj1 (by omega), ?_⟩
  · rw [h4]; congr 2; omega
  · exact tbBuildBody_run h2

end Sys2Proof.Machine
end

