-- ==== Sys2Proof/Laws/Words.lean ====
section
/-! SUPPORT. Words on the command port: the fields of a word that decodes, and the answer to a word that names no legal
command (30_encoding.md rules R77, R78). -/

namespace Sys2Proof.Machine

/-- A word that decodes has RSV = 0 and the opcode and operands of its command (rules R71, R76). -/
theorem decode_fields {w : Word} {i : Instr} (h : decode w = .ok i) :
    i.opcode = opField w ∧ i.operandA = aField w ∧ i.operandB = bField w ∧ rsvField w = 0 := by
  unfold decode at h
  split_ifs at h with hr
  refine and_assoc.mp (and_assoc.mp ⟨?_, by simpa using hr⟩)
  generalize opField w = op at *
  generalize aField w = a at *
  generalize bField w = b at *
  unfold decodeOp at h
  split at h
  all_goals first
    | (unfold plainRow at h; split_ifs at h with h1; cases h; exact ⟨⟨rfl, h1.1.symm⟩, h1.2.symm⟩)
    | (unfold symbolRow at h; split_ifs at h with h1 h2; cases h; exact ⟨⟨rfl, rfl⟩, h2.symm⟩)
    | (unfold nodeRow at h; split_ifs at h with h1; cases h; exact ⟨⟨rfl, rfl⟩, h1.symm⟩)
    | (unfold codeBitRow at h; split_ifs at h with h1; cases h; exact ⟨⟨rfl, rfl⟩, rfl⟩)
    | cases h

/-- The same, as numbers: the opcode, and word[31:8] = A + B·2^10. -/
theorem decode_toNat {w : Word} {i : Instr} (h : decode w = .ok i) :
    w.toNat % 2 ^ 8 = i.opcode.toNat ∧ w.toNat / 2 ^ 8 = i.operandA.toNat + i.operandB.toNat * 2 ^ 10 := by
  obtain ⟨ho, ha, hb, hr⟩ := decode_fields h
  have h0 := congrArg BitVec.toNat ho
  have h1 := congrArg BitVec.toNat ha
  have h2 := congrArg BitVec.toNat hb
  rw [opField_toNat] at h0
  rw [aField_toNat] at h1
  rw [bField_toNat] at h2
  have := w.isLt
  have h3 : w.toNat / 2 ^ 26 % 2 ^ 6 = 0 := by rw [← rsvField_toNat, hr]; rfl
  constructor <;> omega

/-- The step of a word that names no command with legal operands. -/
theorem step_illegal {s : State} {w : Word} {rest : List HostMove} (hp : s.pending = .issue w :: rest)
    (hn : ∀ i, decode w = .ok i → operandsLegal i s = false) :
    step s = .next (illegalWord (opField w) { s with pending := rest }) := by
  have hs : step s = executeWord exec w { s with pending := rest } := by simp [step, stepBy, takeMove, hp, makeMove]
  rw [hs]
  unfold executeWord
  cases hd : decode w with
  | error e => rfl
  | ok i =>
    have hk : operandsLegal i { s with pending := rest } = false := by
      rw [← hn i hd]; cases i <;> rfl
    simp [exec_eq_command, command, hk, (decode_fields hd).1]

/-- An opcode's illegal words, from what its decoded commands allow. -/
theorem illegalWhen_of {op : Nat} {bad : State → Nat → Prop}
    (h : ∀ (i : Instr) (s : State), i.opcode.toNat = op → operandsLegal i s = true →
      ¬ bad s (i.operandA.toNat + i.operandB.toNat * 2 ^ 10)) : illegalWhen op bad := by
  intro s w rest hp hw hb
  have hs := step_illegal hp fun i hd => by
    obtain ⟨h1, h2⟩ := decode_toNat hd
    by_contra hk
    exact h i s (h1.symm.trans hw) (by simpa using hk) (h2 ▸ hb)
  have ho : opField w = BitVec.ofNat 8 op := by
    apply BitVec.eq_of_toNat_eq
    rw [opField_toNat, hw, BitVec.toNat_ofNat]
    omega
  rw [hs, ho]
  constructor
  · intro he
    simp [illegalWord, he, enterError, Error.code]
  · intro he
    simp [illegalWord, he, respond, Error.code]

/-- Every opcode but those of RD_FREQ, RD_NODE, RD_CODELEN and RD_CODEBIT is that of commands without operands. -/
theorem operands_zero {op : Opcode} (h : op ∉ [0x81, 0x85, 0x86, 0x87]) (j : Instr) (hj : j.opcode = op) :
    j.operandA = 0 ∧ j.operandB = 0 := by
  subst hj
  cases j <;> first | exact ⟨rfl, rfl⟩ | simp [Instr.opcode] at h

/-- The common lines of a command without operands. -/
theorem plainCommand_of {i : Instr} {op : Nat} {legal : List Phase} (hop : i.opcode.toNat = op)
    (hone : i.opcode ∉ [0x81, 0x85, 0x86, 0x87]) (ho : ∀ s, operandsLegal i s = true)
    (hl : ∀ p, legalIn i p = true → p ∈ legal) : plainCommand i op legal := by
  subst hop
  obtain ⟨ha, hb⟩ := operands_zero hone i rfl
  refine ⟨by simp [encode_toNat, ha, hb], illegalWhen_of fun j s hj _ hbad => ?_, fun s he hn => ?_⟩
  · obtain ⟨h1, h2⟩ := operands_zero hone j (BitVec.eq_of_toNat_eq hj)
    exact hbad (by simp [h1, h2])
  · have hf : legalIn i s.phase = false := by
      cases hq : legalIn i s.phase with
      | false => rfl
      | true => exact absurd (hl _ hq) hn
    rw [exec_eq_command, command_sequence (ho s) he hf]
    simp [enterError, Error.code]

end Sys2Proof.Machine
end

