-- ==== Sys2Proof/Machine/Assembler.lean ====
section
/-! DEFINITION. The assembler syntax (30_encoding.md rule R79), one line of text to the words it writes, with the
pseudo-commands COMPRESS and DECOMPRESS (46_orchestration.md rules R164, R165). The machine does not use it. -/

namespace Sys2Proof.Machine

/-- The mnemonic of a command (rule R76). -/
def mnemonic : Instr → String
  | .nop => "NOP"
  | .reset => "RESET"
  | .fcStart => "FC_START"
  | .fcStep => "FC_STEP"
  | .fcRun => "FC_RUN"
  | .tbBuild => "TB_BUILD"
  | .ctGen => "CT_GEN"
  | .hwMagic => "HW_MAGIC"
  | .hwHeader => "HW_HEADER"
  | .encStart => "ENC_START"
  | .encStep => "ENC_STEP"
  | .encRun => "ENC_RUN"
  | .dmStart => "DM_START"
  | .hrMagic => "HR_MAGIC"
  | .hrHeader => "HR_HEADER"
  | .decStep => "DEC_STEP"
  | .decRun => "DEC_RUN"
  | .rdStatus => "RD_STATUS"
  | .rdFreq _ => "RD_FREQ"
  | .rdLen => "RD_LEN"
  | .rdRoot => "RD_ROOT"
  | .rdNcount => "RD_NCOUNT"
  | .rdNode _ => "RD_NODE"
  | .rdCodelen _ => "RD_CODELEN"
  | .rdCodebit _ _ => "RD_CODEBIT"
  | .rdIpos => "RD_IPOS"
  | .rdOutlen => "RD_OUTLEN"
  | .rdCursor => "RD_CURSOR"

/-- The commands without operands (rule R79). -/
def commandsWithoutOperands : List Instr :=
  [.nop, .reset, .fcStart, .fcStep, .fcRun, .tbBuild, .ctGen, .hwMagic, .hwHeader, .encStart, .encStep, .encRun,
    .dmStart, .hrMagic, .hrHeader, .decStep, .decRun, .rdStatus, .rdLen, .rdRoot, .rdNcount, .rdIpos, .rdOutlen,
    .rdCursor]

/-- The value of a digit. -/
def digitValue (c : Char) : Option Nat :=
  if '0'.toNat ≤ c.toNat ∧ c.toNat ≤ '9'.toNat then some (c.toNat - '0'.toNat)
  else if 'a'.toNat ≤ c.toNat ∧ c.toNat ≤ 'f'.toNat then some (c.toNat - 'a'.toNat + 10)
  else if 'A'.toNat ≤ c.toNat ∧ c.toNat ≤ 'F'.toNat then some (c.toNat - 'A'.toNat + 10)
  else none

/-- The number a run of digits below `base` spells, after the digits that spell `acc`. -/
def digitsFrom (base : Nat) : Nat → List Char → Option Nat
  | acc, [] => some acc
  | acc, c :: cs =>
    match digitValue c with
    | none => none
    | some d => if d < base then digitsFrom base (acc * base + d) cs else none

/-- An operand: a decimal or a `0x` hexadecimal number (rule R79). -/
def operandNumber : List Char → Option Nat
  | [] => none
  | ['0', 'x'] => none
  | '0' :: 'x' :: c => digitsFrom 16 0 c
  | c => digitsFrom 10 0 c

/-- The token read so far, when there is one, before the tokens that follow. -/
def closeToken (token : List Char) (rest : List (List Char)) : List (List Char) :=
  if token = [] then rest else token :: rest

/-- The tokens of a line: words apart by blanks, and commas. -/
def tokens : List Char → List Char → List (List Char)
  | token, [] => closeToken token []
  | token, c :: cs =>
    if c = ' ' ∨ c = '\t' then closeToken token (tokens [] cs)
    else if c = ',' then closeToken token ([','] :: tokens [] cs)
    else tokens (token ++ [c]) cs

/-- `MNEMONIC`: a command without operands, or a pseudo-command. -/
def assemblePlain (m : List Char) : Option (List Instr) :=
  if m = "COMPRESS".toList then some compressCommands
  else if m = "DECOMPRESS".toList then some decompressCommands
  else (commandsWithoutOperands.find? fun i => (mnemonic i).toList = m).map fun i => [i]

/-- `MNEMONIC a`: RD_FREQ, RD_NODE and RD_CODELEN, with an operand their column allows. The assembler has no state, so
of RD_NODE it asks a node index, 0..512 (rule R71; log entry 9). -/
def assembleOne (m : List Char) (a : Nat) : Option (List Instr) :=
  if m = "RD_FREQ".toList then if a ≤ Config.sentinel then some [.rdFreq (BitVec.ofNat 10 a)] else none
  else if m = "RD_CODELEN".toList then if a ≤ Config.sentinel then some [.rdCodelen (BitVec.ofNat 10 a)] else none
  else if m = "RD_NODE".toList then if a < Config.nodeCap then some [.rdNode (BitVec.ofNat 10 a)] else none
  else none

/-- `MNEMONIC a, b`: RD_CODEBIT, with a symbol and a code bit index 0..255. -/
def assembleTwo (m : List Char) (a b : Nat) : Option (List Instr) :=
  if m = "RD_CODEBIT".toList ∧ a ≤ Config.sentinel ∧ b < Config.maxCodeLen then
    some [.rdCodebit (BitVec.ofNat 10 a) (BitVec.ofNat 8 b)]
  else none

/-- The commands of one line, `;` starting a comment; none where the assembler rejects the line. -/
def assembleLine (line : String) : Option (List Instr) :=
  match tokens [] (line.toList.takeWhile fun c => c ≠ ';') with
  | [] => some []
  | [m] => assemblePlain m
  | [m, a] => (operandNumber a).bind fun a => assembleOne m a
  | [m, a, [','], b] => (operandNumber a).bind fun a => (operandNumber b).bind fun b => assembleTwo m a b
  | _ => none

/-- The words the assembler writes for one line (rules R72, R79). -/
def assembleWords (line : String) : Option (List Word) := (assembleLine line).map fun l => l.map encode

end Sys2Proof.Machine
end

