-- ==== Sys2Proof/Tests/Slice0.lean ====
section
/-! SUPPORT. Tests of the model. Expected values come from the examples in the rules of spec/ and the vectors of
95_test_vectors.md; each test names its source. The second half shows, for every statement with hypotheses, concrete
values that meet them. -/

namespace Sys2Proof.Tests

open Sys2Proof Sys2Proof.Machine

set_option Elab.async false

/-! ### Helpers -/

/-- What a field of the next state holds. -/
def fieldOf {α : Type} (f : State → α) : Host.Outcome State Fault Refusal → Option α
  | .next t => some (f t)
  | .fault _ => none
  | .refused _ => none

/-- The reply of a next state. -/
def replyOf (o : Host.Outcome State Fault Refusal) : Option HostReply := fieldOf State.reply o

/-- The response (STATUS, VALUE). -/
def answer (status : Nat) (value : Nat) : Option HostReply :=
  some (.response (BitVec.ofNat 4 status) (BitVec.ofNat 64 value))

/-- The bits of a string of 0 and 1, its blanks left out. -/
def bits (q : String) : Bits := (q.toList.filter (· ≠ ' ')).map (· = '1')

/-- The input "ab". -/
def inputAb : Bits := bits "01100001 01100010"

/-- The state after reset, in a phase and with an input. -/
def at_ (p : Phase) (q : Bits) : State := { State.reset with phase := p, input := q }

/-- The state after `ab` was counted (rule R101, its example). -/
def counted : State :=
  { at_ .counted inputAb with
    freq := ((State.reset.freq.write 97 1).write 98 1).write 256 1, len := 2, ipos := 16 }

/-- The arena with the entries given. -/
def arena (ns : List Node) (root : Index) (s : State) : State :=
  { s with
    node := s.node.writeFrom 0 ns, nodeCount := BitVec.ofNat 10 ns.length, root := root, rootValid := true }

/-- The state after TB_BUILD for `ab` (rule R110, its example). -/
def built : State :=
  arena [⟨true, 97, 0, 0, 1⟩, ⟨true, 98, 0, 0, 1⟩, ⟨true, 256, 0, 0, 1⟩, ⟨false, 0, 0, 1, 2⟩, ⟨false, 0, 2, 3, 3⟩] 4
    { counted with phase := .built }

/-- The state after CT_GEN for `ab` (rule R120, its example). -/
def coded : State :=
  { built with
    phase := .coded
    codeValid := ((built.codeValid.write 97 true).write 98 true).write 256 true
    codeLen := ((built.codeLen.write 97 2).write 98 2).write 256 1
    codeBits := ((built.codeBits.write 97 0b01).write 98 0b11).write 256 0 }

/-- The header of the trie of `ab` (rule R130, its example). -/
def headerAb : Bits := bits "0 1100000000 0 1001100001 1001100010"

/-- Decoding with the trie of `ab` (rule R150, its example). -/
def decoding (q : Bits) : State :=
  arena [⟨false, 0, 1, 2, 0⟩, ⟨true, 256, 0, 0, 0⟩, ⟨false, 0, 3, 4, 0⟩, ⟨true, 97, 0, 0, 0⟩, ⟨true, 98, 0, 0, 0⟩] 0
    (at_ .decoding q)

/-! ### Well-formed terms: the three operands a term can have out of range -/

theorem test_rdFreq_257_ill_formed : (Instr.rdFreq 257).wellFormed = false := by decide

theorem test_rdCodelen_257_ill_formed : (Instr.rdCodelen 257).wellFormed = false := by decide

theorem test_rdCodebit_257_ill_formed : (Instr.rdCodebit 257 0).wellFormed = false := by decide

theorem test_symbol_256_well_formed : (Instr.rdCodebit 256 255).wellFormed = true := by decide

/-! ### Words written out from the fields of rule R71 (RSV, B, A, OP) and the map of rule R76 -/

theorem test_decode_control :
    decode 0b000000_00000000_0000000000_00000000 = .ok .nop ∧
    decode 0b000000_00000000_0000000000_00000001 = .ok .reset := by decide

theorem test_decode_counter :
    decode 0b000000_00000000_0000000000_00010000 = .ok .fcStart ∧
    decode 0b000000_00000000_0000000000_00010001 = .ok .fcStep ∧
    decode 0b000000_00000000_0000000000_00010010 = .ok .fcRun := by decide

theorem test_decode_builder_and_table :
    decode 0b000000_00000000_0000000000_00100000 = .ok .tbBuild ∧
    decode 0b000000_00000000_0000000000_00110000 = .ok .ctGen := by decide

theorem test_decode_writer :
    decode 0b000000_00000000_0000000000_01000000 = .ok .hwMagic ∧
    decode 0b000000_00000000_0000000000_01000001 = .ok .hwHeader := by decide

theorem test_decode_encoder :
    decode 0b000000_00000000_0000000000_01010000 = .ok .encStart ∧
    decode 0b000000_00000000_0000000000_01010001 = .ok .encStep ∧
    decode 0b000000_00000000_0000000000_01010010 = .ok .encRun := by decide

theorem test_decode_reader :
    decode 0b000000_00000000_0000000000_01100000 = .ok .dmStart ∧
    decode 0b000000_00000000_0000000000_01100001 = .ok .hrMagic ∧
    decode 0b000000_00000000_0000000000_01100010 = .ok .hrHeader := by decide

theorem test_decode_decoder :
    decode 0b000000_00000000_0000000000_01110000 = .ok .decStep ∧
    decode 0b000000_00000000_0000000000_01110001 = .ok .decRun := by decide

theorem test_decode_readback :
    decode 0b000000_00000000_0000000000_10000000 = .ok .rdStatus ∧
    decode 0b000000_00000000_0100000000_10000001 = .ok (.rdFreq 256) ∧
    decode 0b000000_00000000_0000000000_10000010 = .ok .rdLen ∧
    decode 0b000000_00000000_0000000000_10000011 = .ok .rdRoot ∧
    decode 0b000000_00000000_0000000000_10000100 = .ok .rdNcount ∧
    decode 0b000000_00000000_0000000100_10000101 = .ok (.rdNode 4) ∧
    decode 0b000000_00000000_0001100001_10000110 = .ok (.rdCodelen 97) ∧
    decode 0b000000_00000001_0001100001_10000111 = .ok (.rdCodebit 97 1) ∧
    decode 0b000000_00000000_0000000000_10001000 = .ok .rdIpos ∧
    decode 0b000000_00000000_0000000000_10001001 = .ok .rdOutlen ∧
    decode 0b000000_00000000_0000000000_10001010 = .ok .rdCursor := by decide

/-- An unassigned opcode, a reserved bit, an operand a column "0" forbids, a symbol that is none (rule R77). -/
theorem test_decode_rejects :
    decode 0b000000_00000000_0000000000_00000010 = .error (.unassignedOpcode 2) ∧
    decode 0b100000_00000000_0000000000_00000000 = .error (.reservedBits 32) ∧
    decode 0b000000_00000001_0000000000_00010000 = .error .operandNotZero ∧
    decode 0b000000_00000001_0000000000_10000001 = .error .operandNotZero ∧
    decode 0b000000_00000000_0000000001_10000000 = .error .operandNotZero ∧
    decode 0b000000_00000000_0100000001_10000110 = .error (.symbolOutOfRange 257) := by decide

/-- The example of rule R79. -/
theorem test_assemble : assembleWords "RD_CODEBIT 97, 1 ; the second bit" = some [0x00046187] := by decide +kernel

/-- The opcodes of rule R76 are all different. -/
theorem test_opcodes_differ :
    ([Instr.nop, .reset, .fcStart, .fcStep, .fcRun, .tbBuild, .ctGen, .hwMagic, .hwHeader, .encStart, .encStep, .encRun,
      .dmStart, .hrMagic, .hrHeader, .decStep, .decRun, .rdStatus, .rdFreq 0, .rdLen, .rdRoot, .rdNcount, .rdNode 0,
      .rdCodelen 0, .rdCodebit 0 0, .rdIpos, .rdOutlen, .rdCursor].map Instr.opcode).Nodup := by decide

/-! ### One command each, with the values of the rule's own example where it has one -/

/-- Rule R170: in ERROR too. -/
theorem test_nop : replyOf (exec .nop { at_ .error [] with errcode := 3 }) = answer 0 0 := by decide +kernel

/-- Rule R171, its example. -/
theorem test_reset : fieldOf (fun t => (t.reply, t.phase, t.errcode, t.input))
    (exec .reset { at_ .error inputAb with errcode := 3, errcmd := 0x70, len := 9 }) =
    some (.response 0 0, .idle, 0, inputAb) := by decide +kernel

/-- Rule R100, its example. -/
theorem test_fcStart : fieldOf (fun t => (t.reply, t.phase, t.ipos, t.len)) (exec .fcStart { at_ .idle inputAb with len := 9 }) =
    some (.response 0 0, .counting, 0, 0) := by decide +kernel

/-- Rule R101, its example: the first byte. -/
theorem test_fcStep_byte : fieldOf (fun t => (t.reply, t.phase, t.freqAt 97, t.freqAt 98, t.len, t.ipos))
    (exec .fcStep (at_ .counting inputAb)) = some (.response 0 97, .counting, 1, 0, 1, 8) := by decide +kernel

/-- Rule R101: the partial byte at the end is not counted. -/
theorem test_fcStep_end : fieldOf (fun t => (t.reply, t.phase, t.freqAt 256, t.len, t.ipos))
    (exec .fcStep (at_ .counting (bits "0110000"))) = some (.response 0 256, .counted, 1, 0, 7) := by decide +kernel

/-- Rule R102 on "ab". -/
theorem test_fcRun : fieldOf (fun t => (t.reply, t.phase, [t.freqAt 97, t.freqAt 98, t.freqAt 256, t.len], t.ipos))
    (exec .fcRun (at_ .counting inputAb)) = some (.response 0 2, .counted, [1, 1, 1, 2], 16) := by decide +kernel

/-- Rule R110, its example. -/
theorem test_tbBuild :
    fieldOf (fun t => (t.reply, t.phase, t.rootValid, [t.root, t.nodeCount], [t.nodeAt 2, t.nodeAt 3, t.nodeAt 4]))
      (exec .tbBuild counted) =
    some (.response 0 4, .built, true, [4, 5], [⟨true, 256, 0, 0, 1⟩, ⟨false, 0, 0, 1, 2⟩, ⟨false, 0, 2, 3, 3⟩]) := by
  decide +kernel

/-- Rule R111: the lighter node goes left, here the sentinel's (95_test_vectors.md section 1.7). -/
theorem test_tbBuild_order : fieldOf (fun t => (t.nodeAt 2).left)
    (exec .tbBuild { at_ .counted [] with freq := (State.reset.freq.write 65 1000).write 256 1, len := 1000 }) =
    some 1 := by decide +kernel

/-- Rule R120, its example. -/
theorem test_ctGen : fieldOf (fun t => (t.reply, t.phase, [t.codeOf 256, t.codeOf 97, t.codeOf 98], t.codeValidAt 65))
    (exec .ctGen built) = some (.response 0 3, .coded, [bits "0", bits "10", bits "11"], false) := by decide +kernel

/-- Rule R160, its example. -/
theorem test_hwMagic : fieldOf (fun t => (t.reply, t.phase, t.out)) (exec .hwMagic coded) =
    some (.response 0 0xFACE8201, .magicOut, bits "11111010110011101000001000000001") := by decide +kernel

/-- Rule R130, its example. -/
theorem test_hwHeader : fieldOf (fun t => (t.reply, t.phase, t.out)) (exec .hwHeader { coded with phase := .magicOut }) =
    some (.response 0 32, .headerOut, headerAb) := by decide +kernel

/-- Rule R140. -/
theorem test_encStart : fieldOf (fun t => (t.reply, t.phase, t.ipos)) (exec .encStart { coded with phase := .headerOut }) =
    some (.response 0 0, .encoding, 0) := by decide +kernel

/-- Rule R141, its example: the first byte. -/
theorem test_encStep : fieldOf (fun t => (t.reply, t.phase, t.out))
    (exec .encStep { coded with phase := .encoding, ipos := 0 }) =
    some (.response 0 97, .encoding, bits "10") := by decide +kernel

/-- Rule R141: a byte without a code. -/
theorem test_encStep_noCode : fieldOf (fun t => (t.reply, t.errcode, t.errcmd, t.out, t.ipos))
    (exec .encStep { coded with phase := .encoding, ipos := 0, input := bits "01000001", out := [true] }) =
    some (.response 5 0, 5, 0x51, [], 8) := by decide +kernel

/-- Rule R142, its example. -/
theorem test_encRun : fieldOf (fun t => (t.reply, t.phase, t.out))
    (exec .encRun { coded with phase := .encoding, ipos := 0 }) =
    some (.response 0 5, .encDone, bits "10110") := by decide +kernel

/-- Rule R161: OUT of the job before is gone. -/
theorem test_dmStart : fieldOf (fun t => (t.reply, t.phase, t.out, t.nodeCount))
    (exec .dmStart { coded with phase := .encDone, out := [true] }) = some (.response 0 0, .dmReady, [], 0) := by
  decide +kernel

/-- Rule R162, its first example. -/
theorem test_hrMagic : fieldOf (fun t => (t.reply, t.phase, t.ipos))
    (exec .hrMagic (at_ .dmReady (bits "11111010110011101000001000000001 1100"))) =
    some (.response 0 0xFACE8201, .dmMagicOk, 32) := by decide +kernel

/-- Rule R162, its second example: 32 zero bits. -/
theorem test_hrMagic_bad : fieldOf (fun t => (t.reply, t.phase, t.errcode, t.errcmd, t.ipos))
    (exec .hrMagic (at_ .dmReady (List.replicate 32 false))) = some (.response 1 0, .error, 1, 0x61, 32) := by
  decide +kernel

/-- Rule R133, its example: nodes in preorder. -/
theorem test_hrHeader : fieldOf (fun t => (t.reply, t.phase, t.ipos, t.rootValid, t.node.cells.take 6))
    (exec .hrHeader (at_ .dmMagicOk (headerAb ++ bits "10110"))) =
    some (.response 0 5, .decoding, 32, true,
      [⟨false, 0, 1, 2, 0⟩, ⟨true, 256, 0, 0, 0⟩, ⟨false, 0, 3, 4, 0⟩, ⟨true, 97, 0, 0, 0⟩, ⟨true, 98, 0, 0, 0⟩,
        ⟨false, 0, 0, 0, 0⟩]) := by decide +kernel

/-- Rule R133, error 4: one leaf that is not the sentinel's. -/
theorem test_hrHeader_byte_leaf : fieldOf (fun t => (t.reply, t.errcode, t.rootValid, t.nodeCount))
    (exec .hrHeader (at_ .dmMagicOk (bits "1001100001"))) = some (.response 2 0, 2, false, 1) := by decide +kernel

/-- Rule R150, its example: the first symbol. -/
theorem test_decStep : fieldOf (fun t => (t.reply, t.phase, t.ipos, t.cursor, t.out)) (exec .decStep (decoding (bits "10110"))) =
    some (.response 0 97, .decoding, 2, 0, bits "01100001") := by decide +kernel

/-- Rule R150: the cursor stays on the node it reached when the bits run out. -/
theorem test_decStep_truncated : fieldOf (fun t => (t.reply, t.errcmd, t.ipos, t.cursor, t.out))
    (exec .decStep (decoding (bits "1"))) = some (.response 3 0, 0x70, 1, 2, []) := by decide +kernel

/-- Rule R151, its example; a bit of padding is not read, and the cursor stays on the sentinel's leaf. -/
theorem test_decRun : fieldOf (fun t => (t.reply, t.phase, t.out, t.ipos, t.cursor))
    (exec .decRun (decoding (bits "10110 1"))) = some (.response 0 2, .decDone, inputAb, 5, 1) := by decide +kernel

/-- Rule R151 on the one-leaf trie: no bit is read (95_test_vectors.md section 1.6). -/
theorem test_decRun_no_bits : fieldOf (fun t => (t.reply, t.phase, t.ipos))
    (exec .decRun (arena [⟨true, 256, 0, 0, 0⟩] 0 (at_ .decoding []))) = some (.response 0 0, .decDone, 0) := by
  decide +kernel

/-- Rule R173, its example. -/
theorem test_rdStatus : replyOf (exec .rdStatus { at_ .error [] with errcode := 1, errcmd := 0x61 }) =
    answer 0 0x611F := by decide +kernel

/-- Rule R174, its example. -/
theorem test_rdFreq : replyOf (exec (.rdFreq 256) counted) = answer 0 1 := by decide +kernel

/-- Rule R175, its example. -/
theorem test_rdLen : replyOf (exec .rdLen { at_ .counted [] with len := 11 }) = answer 0 11 := by decide +kernel

/-- Rule R176, its example. -/
theorem test_rdRoot : replyOf (exec .rdRoot built) = answer 0 4 := by decide +kernel

/-- Rule R177, its example. -/
theorem test_rdNcount : replyOf (exec .rdNcount built) = answer 0 5 := by decide +kernel

/-- Rule R180, its examples. -/
theorem test_rdNode : replyOf (exec (.rdNode 4) built) = answer 0 0xC0300800 ∧
    replyOf (exec (.rdNode 2) built) = answer 0 0x40000201 := by decide +kernel

/-- Rule R180: the first unallocated entry. -/
theorem test_rdNode_unallocated : replyOf (exec (.rdNode 5) built) = answer 7 0 := by decide +kernel

/-- Rule R181, its examples. -/
theorem test_rdCodelen : replyOf (exec (.rdCodelen 97) coded) = answer 0 0x202 ∧
    replyOf (exec (.rdCodelen 65) coded) = answer 0 0 := by decide +kernel

/-- Rule R182, its examples: the code "10". -/
theorem test_rdCodebit : replyOf (exec (.rdCodebit 97 0) coded) = answer 0 1 ∧
    replyOf (exec (.rdCodebit 97 1) coded) = answer 0 0 := by decide +kernel

/-- Rule R182: a bit past the code's end. -/
theorem test_rdCodebit_past_end : replyOf (exec (.rdCodebit 97 2) coded) = answer 7 0 := by decide +kernel

/-- Rule R183, its example. -/
theorem test_rdIpos : replyOf (exec .rdIpos { decoding [] with ipos := 64 }) = answer 0 64 := by decide +kernel

/-- Rule R184, on the 5 bits of rule R142's example. -/
theorem test_rdOutlen : replyOf (exec .rdOutlen { coded with out := bits "10110" }) = answer 0 5 := by decide +kernel

/-- Rule R185, its example. -/
theorem test_rdCursor : replyOf (exec .rdCursor { at_ .error [] with cursor := 2 }) = answer 0 2 := by decide +kernel

/-- Rule R202: an illegal word comes before the phase, and phase ERROR before both (95_test_vectors.md section 2.9). -/
theorem test_step_illegal_word : fieldOf (fun t => (t.reply, t.phase, t.errcode, t.errcmd))
    (step { State.reset with pending := [.issue 0x00000113] }) = some (.response 7 0, .error, 7, 0x13) := by decide +kernel

/-- Rule R203: the second error is not recorded. -/
theorem test_step_in_error : fieldOf (fun t => (t.reply, t.phase, t.errcode, t.errcmd))
    (step { at_ .error [] with errcode := 3, errcmd := 0x71, pending := [.issue 0x00000013] }) =
    some (.response 7 0, .error, 3, 0x71) := by decide +kernel

/-- Rule R231: power-on empties IN. -/
theorem test_step_powerOn : fieldOf (fun t => (t.reply, t.phase, t.input))
    (step { at_ .decoding inputAb with pending := [.powerOn] }) = some (.silent, .idle, []) := by decide +kernel

/-- The word placed by withFetchWord is what the next step executes. -/
theorem test_withFetchWord : fieldOf (fun t => (t.reply, t.phase)) (step (State.reset.withFetchWord 32 0x10)) =
    some (.response 0 0, .counting) := by decide +kernel

/-- Rule R160 on an HCORE whose MAGIC is 0x00000001 (rule R9). -/
theorem test_magic_argument : fieldOf (fun t => (t.reply, t.out))
    ((coreWith 1).step { at_ .coded [] with pending := [.issue 0x40] }) =
    some (.response 0 1, bits "0000000000000000 0000000000000001") := by decide +kernel

theorem test_decodeTableWord : decodeTableWord 32 0x00046187 = some (.rdCodebit 97 1) ∧
    decodeTableWord 32 0x13 = none := by decide

/-! ### Values that meet the hypotheses of the statements, clause by clause -/

/-- The trie of `ab`. -/
def trieAb : Trie := .node (.leaf 256) (.node (.leaf 97) (.leaf 98))

theorem built_holds : built.holds trieAb built.root := by
  simp only [State.holds, trieAb]
  decide +kernel

theorem decoding_holds (q : Bits) : (decoding q).holds trieAb 0 :=
  (holds_congr (t := decoding q) (s := decoding []) rfl).mpr (by
    simp only [State.holds, trieAb]
    decide +kernel)

theorem witness_StepExecutesIssuedCommand : ∃ (s : State) (w : Word) (rest : List HostMove) (i : Instr),
    s.pending = .issue w :: rest ∧ decode w = .ok i :=
  ⟨{ State.reset with pending := [.issue 0x00046187] }, _, _, .rdCodebit 97 1, rfl, by decide⟩

theorem witness_DecodeEncodeAgree :
    (∃ i : Instr, i.wellFormed = true) ∧ ∃ (w : Word) (i : Instr), decode w = .ok i :=
  ⟨⟨.rdCodebit 256 255, by decide⟩, 0x00010086, .rdCodelen 256, by decide⟩

/-- The last legal and the first illegal operand of each kind, outside ERROR. -/
theorem witness_IllegalWordsAreRefused :
    legalWordOfRule77 0x00010081 coded ∧ ¬ legalWordOfRule77 0x00010181 coded ∧
    legalWordOfRule77 0x00000485 coded ∧ ¬ legalWordOfRule77 0x00000585 coded ∧
    legalWordOfRule77 0x00046187 coded ∧ ¬ legalWordOfRule77 0x00086187 coded ∧
    ¬ legalWordOfRule77 0x00004187 coded ∧ ¬ legalWordOfRule77 0x04000000 coded ∧
    ¬ legalWordOfRule77 0x00000013 coded ∧ ¬ legalWordOfRule77 0x00000110 coded ∧ coded.phase ≠ .error := by
  unfold legalWordOfRule77
  refine ⟨?_, ?_, ?_, ?_, ?_, ?_, ?_, ?_, ?_, ?_, ?_⟩ <;> decide +kernel

theorem witness_IllegalWordsAreRefused_error : ∃ (s : State) (w : Word) (rest : List HostMove),
    s.pending = .issue w :: rest ∧ ¬ legalWordOfRule77 w s ∧ s.phase = .error :=
  ⟨{ at_ .error [] with pending := [.issue 0x00000013] }, _, _, rfl, by unfold legalWordOfRule77; decide, rfl⟩

theorem witness_OutOfPhaseRaisesSequence : ∃ (i : Instr) (s : State),
    operandsLegal i s = true ∧ s.phase ≠ .error ∧ s.phase ∉ legalPhasesOfRule23 i :=
  ⟨.fcStep, counted, rfl, by decide, by decide⟩

theorem nop_next (s : State) : exec .nop s = .next { s with reply := .response 0 0 } := by
  rw [exec_eq_command, command_runs_always rfl rfl fun _ => rfl]; rfl

theorem witness_SuccessFollowsThePhaseTable : ∃ (i : Instr) (s t : State) (v : Value),
    exec i s = .next t ∧ t.reply = .response 0 v := ⟨.nop, State.reset, _, 0, nop_next _, rfl⟩

theorem witness_ErrorPhaseHaltsJobCommands : ∃ (i : Instr) (s : State), s.phase = .error ∧
    i ∈ [Instr.fcStart, .fcStep, .fcRun, .tbBuild, .ctGen, .hwMagic, .hwHeader, .encStart, .encStep, .encRun, .dmStart,
      .hrMagic, .hrHeader, .decStep, .decRun] := ⟨.dmStart, at_ .error [], rfl, by decide⟩

/-- In phase ERROR: an illegal word, a legal one that is halted, and the last legal one that is not. -/
theorem witness_ErrorPhaseHaltsJobCommands_words :
    (∃ (s : State) (w : Word) (rest : List HostMove), s.pending = .issue w :: rest ∧ s.phase = .error ∧
      ¬ legalWordOfRule77 w s) ∧
    (∃ (s : State) (w : Word) (rest : List HostMove), s.pending = .issue w :: rest ∧ s.phase = .error ∧
      legalWordOfRule77 w s ∧ ¬ (w.toNat % 2 ^ 8 ≤ 1 ∨ 0x80 ≤ w.toNat % 2 ^ 8)) ∧
    ∃ (s : State) (w : Word) (rest : List HostMove), s.pending = .issue w :: rest ∧ s.phase = .error ∧
      legalWordOfRule77 w s ∧ (w.toNat % 2 ^ 8 ≤ 1 ∨ 0x80 ≤ w.toNat % 2 ^ 8) := by
  unfold legalWordOfRule77
  exact ⟨⟨{ at_ .error [] with pending := [.issue 0x0000008B] }, 0x0000008B, [], rfl, rfl, by decide⟩,
    ⟨{ at_ .error [] with pending := [.issue 0x00000071] }, 0x00000071, [], rfl, rfl, by decide, by decide⟩,
    { at_ .error [] with pending := [.issue 0x0000008A] }, 0x0000008A, [], rfl, rfl, by decide, by decide⟩

/-- For every command without operands, a word with its opcode and A = 1, outside phase ERROR and in it. -/
theorem witness_illegalWhen_plain :
    ∀ op ∈ [0x00, 0x01, 0x10, 0x11, 0x12, 0x20, 0x30, 0x40, 0x41, 0x50, 0x51, 0x52, 0x60, 0x61, 0x62, 0x70, 0x71, 0x80,
      0x82, 0x83, 0x84, 0x88, 0x89, 0x8A], ∀ p ∈ [Phase.idle, .error],
    ∃ (s : State) (w : Word) (rest : List HostMove), s.pending = .issue w :: rest ∧ w.toNat % 2 ^ 8 = op ∧
      w.toNat / 2 ^ 8 ≠ 0 ∧ s.phase = p := by
  intro op hop p _
  have hlt : op < 256 := by
    have : ∀ op ∈ [0x00, 0x01, 0x10, 0x11, 0x12, 0x20, 0x30, 0x40, 0x41, 0x50, 0x51, 0x52, 0x60, 0x61, 0x62, 0x70, 0x71,
      0x80, 0x82, 0x83, 0x84, 0x88, 0x89, 0x8A], op < 256 := by decide
    exact this op hop
  refine ⟨{ at_ p [] with pending := [.issue (BitVec.ofNat 32 (op + 256))] }, _, [], rfl, ?_, ?_, rfl⟩ <;>
    rw [BitVec.toNat_ofNat] <;> omega

/-- The first illegal A, and B = 1 or RSV = 1, of each command with operands (phases as in the last witness). -/
theorem witness_illegalWhen_operands :
    (256 < (257 : Nat) % 2 ^ 10 ∧ (256 + 2 ^ 10 : Nat) / 2 ^ 10 ≠ 0) ∧
    built.nodeCount.toNat ≤ 5 % 2 ^ 10 ∧
    coded.codeValidAt (65 % 2 ^ 10) = false ∧
    (coded.codeLenAt ((97 + 2 * 2 ^ 10) % 2 ^ 10)).toNat ≤ (97 + 2 * 2 ^ 10) / 2 ^ 10 % 2 ^ 8 ∧
    (97 + 2 ^ 18 : Nat) / 2 ^ 18 ≠ 0 := by decide +kernel

/-- For every command without operands that opens, advances or ends a job, a phase that is not legal. -/
theorem witness_plainCommand : ∀ legal ∈ [[Phase.idle, .encDone, .decDone], [.counting], [.counted], [.built], [.coded],
      [.magicOut], [.headerOut], [.encoding], [.dmReady], [.dmMagicOk], [.decoding]],
    ∃ s : State, s.phase ≠ .error ∧ s.phase ∉ legal := by
  intro legal hl
  have h : ∀ legal ∈ [[Phase.idle, .encDone, .decDone], [.counting], [.counted], [.built], [.coded],
      [.magicOut], [.headerOut], [.encoding], [.dmReady], [.dmMagicOk], [.decoding]],
      ∃ p ∈ [Phase.counting, .counted], p ≠ .error ∧ p ∉ legal := by decide
  obtain ⟨p, -, hp⟩ := h legal hl
  exact ⟨at_ p [], hp⟩

theorem sequence_next : exec .fcStep State.reset = .next (enterError 0x11 .sequence State.reset) := by
  rw [exec_eq_command, command_sequence rfl (by decide) rfl]; rfl

theorem witness_ErrorEntryRecordsTheError : ∃ (i : Instr) (s t : State),
    exec i s = .next t ∧ s.phase ≠ .error ∧ t.phase = .error := ⟨.fcStep, State.reset, _, sequence_next, by decide, rfl⟩

theorem witness_StatusIsTheOutcome : (∃ (i : Instr) (s t : State), exec i s = .next t ∧ s.phase ≠ .error) ∧
    ∃ (i : Instr) (s t : State), exec i s = .next t ∧ s.phase = .error :=
  ⟨⟨.fcStep, State.reset, _, sequence_next, by decide⟩, .nop, at_ .error [], _, nop_next _, rfl⟩

/-- Both ways out of ERROR. -/
theorem witness_OnlyResetOrPowerOnLeavesError : ∀ m ∈ [HostMove.issue 1, .powerOn], ∃ s t : State,
    s.pending = [m] ∧ s.phase = .error ∧ step s = .next t ∧ t.phase ≠ .error := by
  intro m hm
  have h : ∀ m ∈ [HostMove.issue 1, .powerOn],
      fieldOf State.phase (step { at_ .error [] with pending := [m] }) = some .idle := by decide +kernel
  have h := h m hm
  refine ⟨{ at_ .error [] with pending := [m] }, ?_⟩
  cases hs : step { at_ .error [] with pending := [m] } with
  | next t => rw [hs] at h; exact ⟨t, rfl, rfl, rfl, by simp only [fieldOf, Option.some.injEq] at h; simp [h]⟩
  | fault f => rw [hs] at h; cases h
  | refused r => rw [hs] at h; cases h

theorem witness_CommandsKeepInput : ∃ (i : Instr) (s t : State), exec i s = .next t :=
  ⟨.fcStep, State.reset, _, sequence_next⟩

theorem witness_PowerOnValues : ∃ (s : State) (rest : List HostMove), s.pending = .powerOn :: rest :=
  ⟨{ coded with pending := [.powerOn] }, _, rfl⟩

theorem bits_of_length (n : Nat) : ∃ q : Bits, q.length = n := ⟨List.replicate n true, List.length_replicate⟩

/-- The longest OUT. -/
theorem witness_RegisterReadbacks : ∃ s : State, s.out.length = Config.outMaxBits ∧ s.out.length ≤ Config.outMaxBits :=
  let ⟨q, hq⟩ := bits_of_length Config.outMaxBits
  ⟨{ State.reset with out := q }, hq, hq.le⟩

theorem witness_RdFreqReadsOneSlot : (256 : OperandA).toNat ≤ 256 ∧ 256 < (257 : OperandA).toNat ∧
    counted.phase ≠ .error ∧ (at_ .error []).phase = .error := by decide

theorem witness_RdNodeReadsAllocatedEntries : (4 : OperandA).toNat < built.nodeCount.toNat ∧
    built.nodeCount.toNat ≤ (5 : OperandA).toNat := by decide

theorem witness_RdCodelenReadsLengthAndValidity : (256 : OperandA).toNat ≤ 256 ∧ 256 < (257 : OperandA).toNat := by decide

theorem witness_RdCodebitReadsOneBit :
    ((97 : OperandA).toNat ≤ 256 ∧ coded.codeValidAt (97 : OperandA).toNat = true ∧
      (1 : OperandB).toNat < (coded.codeLenAt (97 : OperandA).toNat).toNat) ∧
    256 < (257 : OperandA).toNat ∧ coded.codeValidAt (65 : OperandA).toNat = false ∧
    (coded.codeLenAt (97 : OperandA).toNat).toNat ≤ (2 : OperandB).toNat := by decide +kernel

/-- One bit too many, and just enough. -/
theorem witness_ReadBitsFollowsRule53 : (at_ .counting inputAb).input.length ≤ Config.inMaxBits ∧ 0 < 17 ∧
    (at_ .counting inputAb).input.length < (at_ .counting inputAb).ipos.toNat + 17 ∧
    (at_ .counting inputAb).ipos.toNat + 16 ≤ (at_ .counting inputAb).input.length := by decide

theorem witness_AllocFollowsRule29 : (∃ s : State, s.nodeCount.toNat = 513) ∧
    ∃ s : State, s.nodeCount.toNat = 512 ∧ s.nodeCount.toNat < 513 :=
  ⟨⟨{ State.reset with nodeCount := 513 }, rfl⟩, { State.reset with nodeCount := 512 }, by decide⟩

/-- The longest load, one bit more, and a load during a job. -/
theorem witness_HostLoadsInputBetweenJobs :
    (∃ (s : State) (q : Bits) (rest : List HostMove), s.pending = .loadIn q :: rest ∧
      s.phase ∈ [.idle, .encDone, .decDone, .error] ∧ q.length = 2 ^ 48 - 1 ∧ q.length ≤ 2 ^ 48 - 1) ∧
    (∃ (s : State) (q : Bits) (rest : List HostMove), s.pending = .loadIn q :: rest ∧
      s.phase ∈ [.idle, .encDone, .decDone, .error] ∧ 2 ^ 48 - 1 < q.length) ∧
    ∃ (s : State) (q : Bits) (rest : List HostMove), s.pending = .loadIn q :: rest ∧
      s.phase ∉ [.idle, .encDone, .decDone, .error] := by
  obtain ⟨q, hq⟩ := bits_of_length (2 ^ 48 - 1)
  obtain ⟨r, hr⟩ := bits_of_length (2 ^ 48)
  exact ⟨⟨{ at_ .error [] with pending := [.loadIn q] }, q, [], rfl, by simp [at_], hq, hq.le⟩,
    ⟨{ at_ .encDone [] with pending := [.loadIn r] }, r, [], rfl, by simp [at_], by omega⟩,
    { at_ .counting [] with pending := [.loadIn []] }, [], [], rfl, by simp [at_]⟩

theorem witness_HostReadsOutWhenDone :
    (∃ (s : State) (rest : List HostMove), s.pending = .readOut :: rest ∧ s.phase ∈ [.encDone, .decDone]) ∧
    ∃ (s : State) (rest : List HostMove), s.pending = .readOut :: rest ∧ s.phase ∉ [.encDone, .decDone] :=
  ⟨⟨{ at_ .decDone [] with pending := [.readOut] }, _, rfl, by decide⟩,
    { at_ .encoding [] with pending := [.readOut] }, _, rfl, by decide⟩

theorem witness_IdleKeepsEverything : ∃ s : State, s.pending = [] := ⟨coded, rfl⟩

theorem witness_FcStartOpensAJob : (∃ s : State, s.phase ∈ [.idle, .encDone, .decDone]) ∧
    ∃ s : State, s.phase ∉ [.idle, .encDone, .decDone, .error] := ⟨⟨at_ .encDone [], by decide⟩, coded, by decide⟩

/-- The end of data one bit short of a byte, the last byte that fits, and the first that does not. -/
theorem witness_FcStepCountsOneByte :
    ((at_ .counting (bits "0110000")).phase = .counting ∧
      (at_ .counting (bits "0110000")).input.length < (at_ .counting (bits "0110000")).ipos.toNat + 8) ∧
    (∃ (s : State) (b : BitVec 8), s.phase = .counting ∧ (s.input.drop s.ipos.toNat).take 8 = msbFirst b ∧
      s.len.toNat ≠ 2 ^ 32 - 1) ∧
    ∃ (s : State) (b : BitVec 8), s.phase = .counting ∧ (s.input.drop s.ipos.toNat).take 8 = msbFirst b ∧
      s.len.toNat = 2 ^ 32 - 1 :=
  ⟨by decide, ⟨{ at_ .counting inputAb with len := 0xFFFFFFFE }, 97, by decide⟩,
    { at_ .counting inputAb with len := 0xFFFFFFFF }, 97, by decide⟩

/-- Two bytes and seven bits more, up to the last byte that can be counted. -/
theorem witness_FcRunCountsTheRest : ∃ (s : State) (bs : List (BitVec 8)) (rest : Bits), s.phase = .counting ∧
    s.input.length ≤ Config.inMaxBits ∧ s.input.drop s.ipos.toNat = bs.flatMap msbFirst ++ rest ∧ rest.length < 8 ∧
    s.len.toNat + bs.length ≤ 2 ^ 32 - 1 :=
  ⟨{ at_ .counting (inputAb ++ bits "0110000") with len := 0xFFFFFFFD }, [97, 98], bits "0110000", by decide⟩

theorem witness_TbBuildMergesTheLeastTwo : counted.phase = .counted ∧ counted.usedSymbols ≠ [] ∧
    ({ at_ .counted [] with freq := State.reset.freq.write 256 1 } : State).usedSymbols ≠ [] := by decide +kernel

theorem counted_inv : counted.CountInv :=
  ⟨fun h => absurd h (by decide), fun _ => by decide +kernel⟩

theorem witness_BuiltTriesHaveRule112 : ∃ s : State, s.phase = .counted ∧ s.CountInv := ⟨counted, rfl, counted_inv⟩

theorem witness_CtGenRecordsEveryPath : ∃ (s : State) (trie : Trie), s.phase = .built ∧ s.holds trie s.root ∧
    trie.symbols.Nodup ∧ (∀ sym ∈ trie.symbols, sym ≤ 256) ∧ trie.depth ≤ 256 :=
  ⟨built, trieAb, rfl, built_holds, by decide, by decide, by decide⟩

/-- The trie of one leaf. -/
theorem witness_CodeTablesHaveRule121 : ∃ (s : State) (trie : Trie), s.phase = .built ∧ s.holds trie s.root ∧
    trie.symbols.Nodup ∧ (∀ sym ∈ trie.symbols, sym ≤ 256) ∧ trie.depth ≤ 256 :=
  ⟨arena [⟨true, 256, 0, 0, 1⟩] 0 (at_ .built []), .leaf 256, rfl,
    by simp only [State.holds]; decide +kernel, by decide, by decide, by decide⟩

theorem witness_HwMagicWritesTheMagicField : coded.phase = .coded := rfl

theorem witness_HwHeaderWritesThePreorder : ∃ (s : State) (trie : Trie), s.phase = .magicOut ∧ s.holds trie s.root :=
  ⟨{ built with phase := .magicOut }, trieAb, rfl, (holds_congr (s := built) rfl).mpr built_holds⟩

theorem witness_EncStartRewinds : (∃ s : State, s.phase = .headerOut) ∧
    ∃ s : State, s.phase ≠ .headerOut ∧ s.phase ≠ .error := ⟨⟨{ coded with phase := .headerOut }, rfl⟩, coded, by decide⟩

theorem witness_EncStepEncodesOneByte :
    (∃ s : State, s.phase = .encoding ∧ s.input.length < s.ipos.toNat + 8) ∧
    (∃ (s : State) (b : BitVec 8), s.phase = .encoding ∧ (s.input.drop s.ipos.toNat).take 8 = msbFirst b ∧
      s.codeValidAt b.toNat = true) ∧
    ∃ (s : State) (b : BitVec 8), s.phase = .encoding ∧ (s.input.drop s.ipos.toNat).take 8 = msbFirst b ∧
      s.codeValidAt b.toNat = false :=
  ⟨⟨{ coded with phase := .encoding }, by decide⟩, ⟨{ coded with phase := .encoding, ipos := 8 }, 98, by decide +kernel⟩,
    { coded with phase := .encoding, ipos := 0, input := bits "01000001" }, 65, by decide +kernel⟩

theorem witness_EncRunEncodesTheRest : ∃ (s : State) (bs : List (BitVec 8)) (rest : Bits), s.phase = .encoding ∧
    s.input.length ≤ Config.inMaxBits ∧ s.input.drop s.ipos.toNat = bs.flatMap msbFirst ++ rest ∧ rest.length < 8 ∧
    ∀ b ∈ bs, s.codeValidAt b.toNat = true :=
  ⟨{ coded with phase := .encoding, ipos := 0, input := inputAb ++ bits "0110000" }, [97, 98], bits "0110000",
    by decide +kernel⟩

theorem witness_DmStartOpensAJob : (∃ s : State, s.phase ∈ [.idle, .encDone, .decDone]) ∧
    ∃ s : State, s.phase ∉ [.idle, .encDone, .decDone, .error] :=
  ⟨⟨at_ .decDone [], by decide⟩, at_ .dmReady [], by decide⟩

/-- The magic field for any MAGIC, the configured one, one bit of it wrong, and one bit short. -/
theorem witness_HrMagicChecksTheMagicField :
    (∀ magic : BitVec 32, ((at_ .dmReady (msbFirst magic)).input.drop (at_ .dmReady (msbFirst magic)).ipos.toNat).take 32 =
      msbFirst magic) ∧
    (∃ s : State, s.phase = .dmReady ∧ (s.input.drop s.ipos.toNat).take 32 = msbFirst Config.magic) ∧
    (∃ (s : State) (v : BitVec 32), s.phase = .dmReady ∧ (s.input.drop s.ipos.toNat).take 32 = msbFirst v ∧
      v ≠ Config.magic) ∧
    ∃ s : State, s.phase = .dmReady ∧ s.input.length < s.ipos.toNat + 32 :=
  ⟨fun magic => by simp [at_, State.reset], ⟨at_ .dmReady (msbFirst Config.magic), by decide⟩,
    ⟨at_ .dmReady (msbFirst (Config.magic ^^^ 1)), Config.magic ^^^ 1, by decide⟩,
    at_ .dmReady (List.replicate 31 true), by decide⟩

/-- For every MAGIC, 32 bits that are another value's. -/
theorem witness_HrMagicChecksTheMagicField_other : ∀ magic : BitVec 32, ∃ (s : State) (v : BitVec 32),
    s.phase = .dmReady ∧ (s.input.drop s.ipos.toNat).take 32 = msbFirst v ∧ v ≠ magic := fun magic =>
  ⟨at_ .dmReady (msbFirst (magic + 1)), magic + 1, rfl, by simp [at_, State.reset], by simp⟩

theorem witness_MagicIsAnArgumentWithADefault : ∃ i : Instr, i ≠ .hwMagic ∧ i ≠ .hrMagic := ⟨.nop, by decide⟩

theorem witness_HrHeaderRebuildsTheTrie : ∃ (s : State) (trie : Trie) (rest : Bits), s.phase = .dmMagicOk ∧
    s.input.length ≤ Config.inMaxBits ∧ acceptedTrie trie ∧ s.input.drop s.ipos.toNat = trie.header ++ rest :=
  ⟨at_ .dmMagicOk (headerAb ++ [true]), trieAb, [true], rfl, by decide, ⟨by decide, by decide, by decide⟩, by decide⟩

/-- A header that is accepted, and the empty input, which is none. -/
theorem witness_HrHeaderAcceptsExactlyHeaders : ∀ q ∈ [headerAb, []],
    (at_ .dmMagicOk q).phase = .dmMagicOk ∧ (at_ .dmMagicOk q).input.length ≤ Config.inMaxBits := by decide

theorem witness_DecStepRecoversOneSymbol :
    (∃ (s : State) (trie : Trie) (sym : Nat) (q rest : Bits), s.phase = .decoding ∧ s.input.length ≤ Config.inMaxBits ∧
      s.holds trie s.cursor ∧ (sym, q) ∈ trie.codes ∧ s.input.drop s.ipos.toNat = q ++ rest ∧ sym ≠ 256) ∧
    (∃ (s : State) (trie : Trie) (q rest : Bits), s.phase = .decoding ∧ s.input.length ≤ Config.inMaxBits ∧
      s.holds trie s.cursor ∧ (256, q) ∈ trie.codes ∧ s.input.drop s.ipos.toNat = q ++ rest) ∧
    ∃ (s : State) (trie : Trie) (sym : Nat) (q more : Bits), s.phase = .decoding ∧ s.input.length ≤ Config.inMaxBits ∧
      s.holds trie s.cursor ∧ (sym, q ++ more) ∈ trie.codes ∧ more ≠ [] ∧ s.input.drop s.ipos.toNat = q :=
  ⟨⟨decoding (bits "11"), trieAb, 98, bits "11", [], rfl, by decide, decoding_holds _, by decide, by decide, by decide⟩,
    ⟨decoding (bits "01"), trieAb, bits "0", bits "1", rfl, by decide, decoding_holds _, by decide, by decide⟩,
    decoding (bits "1"), trieAb, 97, bits "1", bits "0", rfl, by decide, decoding_holds _, by decide, by decide,
    by decide⟩

theorem witness_DecRunRecoversTheBody : ∃ (s : State) (trie : Trie) (cs : List (Nat × Bits)) (q rest : Bits),
    s.phase = .decoding ∧ s.input.length ≤ Config.inMaxBits ∧ s.cursor = s.root ∧ s.holds trie s.root ∧
    (∀ c ∈ cs, c ∈ trie.codes ∧ c.1 ≠ 256) ∧ (256, q) ∈ trie.codes ∧
    s.input.drop s.ipos.toNat = (cs.flatMap fun c => c.2) ++ (q ++ rest) :=
  ⟨decoding (bits "101101"), trieAb, [(97, bits "10"), (98, bits "11")], bits "0", bits "1", rfl, by decide, rfl,
    decoding_holds _, by decide, by decide, by decide⟩

theorem counting_trieInv : (at_ .counting inputAb).TrieInv :=
  ⟨by decide, fun h => absurd h (by decide), fun h => absurd h (by decide)⟩

theorem decoding_trieInv (q : Bits) (h : q.length ≤ Config.inMaxBits) : (decoding q).TrieInv :=
  ⟨h, fun h => absurd (show Phase.decoding.hasBuiltTrie = true from h) (by decide), fun _ => ⟨rfl, trieAb, decoding_holds q, by decide, by decide⟩⟩

theorem encoding_trieInv : ({ coded with phase := .encoding, ipos := 0 } : State).TrieInv :=
  ⟨by decide, fun _ => ⟨trieAb, (holds_congr (s := built) rfl).mpr built_holds, by decide +kernel, by
      simp only [State.weighs, trieAb]
      decide +kernel, by decide +kernel⟩,
    fun h => absurd h (by decide)⟩

/-- One state for each of the three run forms. -/
theorem witness_RunFormsRepeatTheirStepForms : (∃ s : State, s.TrieInv ∧ s.phase = .counting) ∧
    (∃ s : State, s.TrieInv ∧ s.phase = .encoding) ∧ ∃ s : State, s.TrieInv ∧ s.phase = .decoding :=
  ⟨⟨_, counting_trieInv, rfl⟩, ⟨_, encoding_trieInv, rfl⟩, decoding (bits "10110"), decoding_trieInv _ (by decide), rfl⟩

theorem witness_CompressWritesTheStream : ∃ (s : State) (bs : List (BitVec 8)) (rest : Bits),
    s.phase ∈ [.idle, .encDone, .decDone] ∧ s.input = bs.flatMap msbFirst ++ rest ∧ rest.length < 8 ∧
    bs.length ≤ 2 ^ 32 - 1 := ⟨at_ .idle (inputAb ++ bits "0110000"), [97, 98], bits "0110000", by decide⟩

/-- The empty input and MAGIC = 0; and after its stream (42 bits, 95_test_vectors.md section 1.6) there is room for padding. -/
theorem witness_DecompressUndoesCompress : (at_ .idle []).phase ∈ [.idle, .encDone, .decDone] ∧
    (at_ .idle []).input = [].flatMap (msbFirst (n := 8)) ∧
    fieldOf (fun t => (t.out.length, decide ((t.out ++ List.replicate 6 false).length ≤ Config.inMaxBits)))
      (execAll (execWith 0) compressCommands (at_ .idle [])) = some (42, true) := by decide +kernel

theorem witness_DecompressionAlwaysEnds : ∃ s : State, s.phase ∈ [.idle, .encDone, .decDone] ∧
    s.input.length ≤ Config.inMaxBits := ⟨at_ .decDone inputAb, by decide⟩

/-- A decompression job that was just opened. -/
def ready : State := { at_ .dmReady inputAb with pending := [.issue 0x00000080] }

theorem ready_inv : ready.Inv where
  control := ⟨by decide, by decide, by decide, by decide, by decide⟩
  arena := ⟨by decide, fun i _ => RegFile.read_fill _ _⟩
  count := ⟨fun h => absurd h (by decide), fun h => absurd h (by decide)⟩
  trie := ⟨by decide, fun h => absurd h (by decide), fun h => absurd h (by decide)⟩
  code := ⟨fun h => absurd h (by decide), fun h => absurd h (by decide), fun sym k _ => by
    show ((RegFile.fill Config.nsym (0 : CodeBits)).read 0 sym).getLsbD k = false
    rw [RegFile.read_fill]; simp⟩

theorem ready_next : ∃ t, step ready = .next t := ⟨_, rfl⟩

theorem witness_StepKeepsControl : ∃ s t : State, s.ControlInv ∧ step s = .next t :=
  let ⟨t, h⟩ := ready_next; ⟨ready, t, ready_inv.control, h⟩

theorem witness_StepKeepsTheInvariants : ∃ s t : State, s.Inv ∧ step s = .next t :=
  let ⟨t, h⟩ := ready_next; ⟨ready, t, ready_inv, h⟩

theorem witness_EveryWordIsAnswered : ∃ (s : State) (w : Word) (rest : List HostMove),
    s.Inv ∧ s.pending = .issue w :: rest := ⟨ready, _, _, ready_inv, rfl⟩

end Sys2Proof.Tests
end

section
/-! PROOFS. The machine with MAGIC as an argument against the machine at the default (00_scope.md rules R9, R19). -/

namespace Sys2Proof.Machine

@[simp] theorem execWith_default (i : Instr) (s : State) : execWith Config.magic i s = exec i s := by
  cases i <;> rfl

theorem stepWith_default : stepWith Config.magic = step := by
  funext s
  simp only [stepWith, step, funext₂ execWith_default]

theorem coreWith_default : coreWith = Sys2Proof.core := by
  simp only [coreWith, Sys2Proof.core, stepWith_default]

/-- A command whose pseudocode does not look at MAGIC is the command at the default. -/
theorem execWith_other {i : Instr} (hw : i ≠ .hwMagic) (hr : i ≠ .hrMagic) (magic : BitVec 32) (s : State) :
    execWith magic i s = exec i s := by
  rw [execWith_eq_command, bodyWith_other hw hr, exec_eq_command]

/-- Settles O55: the default is what the configuration says, the machine at the default is the machine of `exec`, and
a command other than HW_MAGIC and HR_MAGIC has pseudocode without MAGIC. -/
theorem magicIsAnArgumentWithADefault : Obligations.MagicIsAnArgumentWithADefault :=
  ⟨rfl, execWith_default, congrFun stepWith_default, coreWith_default, fun _ => ⟨rfl, rfl⟩,
    fun magic _ s hw hr => execWith_other hw hr magic s⟩

end Sys2Proof.Machine
end

section
/-! PROOFS. Alloc (10_state.md rule R29), the phases of a command (rule R23) and what no command writes (rules R36,
R51). -/

namespace Sys2Proof.Machine

/-- Settles O24: the two cases of Alloc, and the arena read after one write. -/
theorem allocFollowsRule29 : Obligations.AllocFollowsRule29 := by
  intro s n
  refine ⟨fun h => alloc_full h, fun h => ⟨_, alloc_run (Nat.ne_of_lt h), rfl, index_add (k := 1) (by omega),
    RegFile.read_write_same _ _ _ h, fun i hi => RegFile.read_write_other _ _ _ fun e => ?_⟩⟩
  exact hi (BitVec.eq_of_toNat_eq e.symm)

/-! ### The phase table -/

/-- The machine's table of legal phases is the second column of rule R23. -/
theorem legalIn_iff_mem (i : Instr) (p : Phase) : legalIn i p = true ↔ p ∈ legalPhasesOfRule23 i := by
  cases i <;> simp [legalIn, legalPhasesOfRule23, Phase.opensJob] <;> cases p <;> simp

/-- Phase ERROR admits exactly the commands that every phase admits (rule R203). -/
theorem legalIn_error (i : Instr) : legalIn i .error = runsInError i := by cases i <;> rfl

/-- Settles O6: outside the phases of rule R23 the frame of a command answers Sequence. -/
theorem outOfPhaseRaisesSequence : Obligations.OutOfPhaseRaisesSequence := by
  intro i s ho he hp
  have hl : legalIn i s.phase = false := by rwa [← legalIn_iff_mem, Bool.not_eq_true] at hp
  rw [exec_eq_command, command_sequence ho he hl]
  rfl

/-- All that a command can do when it answers a next state: refuse, enter ERROR from a state in phase, or run its
pseudocode in a phase that admits it. -/
theorem exec_next_legal {i : Instr} {s t : State} (h : exec i s = .next t) :
    t = illegalWord i.opcode s ∨ t = respond haltedStatus 0 s ∨ t = enterError i.opcode .sequence s ∨
      legalIn i s.phase = true ∧
        ((∃ v u, bodyOf i s = .ok v u ∧ t = respond okStatus v u) ∨
          ∃ e u, bodyOf i s = .error (.raised e) u ∧ t = enterError i.opcode e u) := by
  rw [exec_eq_command] at h
  rcases command_next h with ⟨-, h⟩ | ⟨-, -, -, h⟩ | ⟨-, -, -, h⟩ | ⟨-, herr, hl, h⟩
  · exact .inl h
  · exact .inr (.inl h)
  · exact .inr (.inr (.inl h))
  · refine .inr (.inr (.inr ⟨?_, h⟩))
    by_cases he : s.phase = .error
    · rw [he, legalIn_error]; exact herr he
    · exact hl he

/-- Settles O12: the pseudocode of a command keeps IN and the host's moves, and so do the answer and the error entry. -/
theorem commandsKeepInput : Obligations.CommandsKeepInput := by
  intro i s t h
  have hill : ∀ op, (illegalWord op s).input = s.input ∧ (illegalWord op s).pending = s.pending := fun op => by
    unfold illegalWord; split_ifs <;> exact ⟨rfl, rfl⟩
  rcases exec_next h with ⟨-, rfl⟩ | ⟨-, -, -, rfl⟩ | ⟨-, -, -, rfl⟩ |
    ⟨-, -, -, ⟨v, u, -, hq, rfl⟩ | ⟨e, u, -, hq, rfl⟩⟩
  · exact hill _
  · exact ⟨rfl, rfl⟩
  · exact ⟨rfl, rfl⟩
  · exact ⟨hq.input, hq.pending⟩
  · exact ⟨hq.input, hq.pending⟩

/-- Where the pseudocode runs to its end, it leaves a state with `Q`. -/
def Ends {α : Type} (Q : State → Prop) (c : Cmd α) : Prop := ∀ s v u, c s = .ok v u → Q u

/-- The last part of the pseudocode says in which state it ends. -/
theorem Ends.bind {α β : Type} {Q : State → Prop} {x : Cmd α} {f : α → Cmd β} (hf : ∀ a, Ends Q (f a)) :
    Ends Q (x >>= f) := by
  intro s v u h
  obtain ⟨a, t, -, h⟩ := bind_eq_ok.mp h
  exact hf a t v u h

theorem Ends.raise {α : Type} {Q : State → Prop} (e : Error) : Ends Q (raise e : Cmd α) := fun _ _ _ h => nomatch h

/-- A pseudocode whose last lines write registers and answer. -/
theorem Ends.update {α : Type} {Q : State → Prop} {g : State → State} {f : Unit → Cmd α} (hg : ∀ s, Q (g s))
    (hf : ∀ s v u, f () s = .ok v u → u = s) : Ends Q (update g >>= f) := by
  intro s v u h
  rw [hf (g s) v u h]
  exact hg s

/-- TB_BUILD ends with a root in phase BUILT. -/
theorem Ends.tbBuildBody : Ends (fun u => u.phase = .built ∧ u.rootValid = true) tbBuildBody :=
  .bind fun _ => .bind fun _ => .bind fun _ => .bind fun _ =>
    .update (fun _ => ⟨rfl, rfl⟩) fun _ _ _ h => by cases h; rfl

/-- HR_HEADER ends with a root in phase DECODING. -/
theorem Ends.hrHeaderBody : Ends (fun u => u.phase = .decoding ∧ u.rootValid = true) hrHeaderBody := by
  refine .bind fun _ => .bind fun _ => .bind fun _ => ?_
  split_ifs
  · exact .raise _
  · exact .update (fun _ => ⟨rfl, rfl⟩) fun _ _ _ h => by cases h; rfl

/-- A step form from phase `p` stays in `p` or leaves it for `q`. -/
theorem stepForm_phase {p q : Phase} {c : Cmd Nat}
    (hc : ∀ s v u, c s = .ok v u → u.phase = s.phase ∨ u.phase = q) {s u : State} {v : Value} (hs : s.phase = p)
    (h : (do let n ← c; pure (BitVec.ofNat 64 n)) s = .ok v u) : u.phase ∈ [p, q] := by
  obtain ⟨n, t, h, h'⟩ := bind_eq_ok.mp h
  cases h'
  rcases hc _ _ _ h with e | e <;> simp [e, hs]

/-- A run form from phase `p` leaves the phase `q` that its step form leaves `p` for. -/
theorem runForm_phase {p q : Phase} {c : Cmd Nat}
    (hc : ∀ s v u, c s = .ok v u → u.phase = s.phase ∨ u.phase = q) {s u : State} {v : Value} {fuel : Nat}
    {f : Nat → Cmd Value} (hf : ∀ n t w u, f n t = .ok w u → u = t) (hs : s.phase = p)
    (h : (runWhile p c fuel 0 >>= f) s = .ok v u) : u.phase ∈ [q] := by
  obtain ⟨n, t, h, h'⟩ := bind_eq_ok.mp h
  rw [hf n t v u h']
  exact List.mem_singleton.mpr (runWhile_phase hc h (.inl hs))

/-- A command that runs to its end leaves a phase of the third column of rule R23. -/
theorem bodyOf_phase {i : Instr} {s u : State} {v : Value} (hl : legalIn i s.phase = true)
    (h : bodyOf i s = .ok v u) : u.phase ∈ successPhasesOfRule23 s.phase i := by
  have one : ∀ p, Ends (fun u => u.phase = p) (bodyOf i) → u.phase ∈ [p] :=
    fun p hp => List.mem_singleton.mpr (hp s v u h)
  cases i with
  | nop | rdStatus | rdFreq a | rdLen | rdRoot | rdNcount | rdNode a | rdCodelen a | rdCodebit a b | rdIpos | rdOutlen
  | rdCursor => cases h; exact List.mem_singleton_self _
  | reset | fcStart | dmStart | hwMagic | encStart => cases h; exact List.mem_singleton_self _
  | fcStep =>
    have hp : s.phase = .counting := of_decide_eq_true hl
    exact stepForm_phase (fun _ _ _ => fcStepBody_phase) hp h
  | encStep =>
    have hp : s.phase = .encoding := of_decide_eq_true hl
    exact stepForm_phase (fun _ _ _ => encStepBody_phase) hp h
  | decStep =>
    have hp : s.phase = .decoding := of_decide_eq_true hl
    exact stepForm_phase (fun _ _ _ => decStepBody_phase) hp h
  | fcRun =>
    exact runForm_phase (fun _ _ _ => fcStepBody_phase) (fun _ _ _ _ h => by cases h; rfl) (of_decide_eq_true hl) h
  | encRun =>
    exact runForm_phase (fun _ _ _ => encStepBody_phase) (fun _ _ _ _ h => by cases h; rfl) (of_decide_eq_true hl) h
  | decRun =>
    exact runForm_phase (fun _ _ _ => decStepBody_phase) (fun _ _ _ _ h => by cases h; rfl) (of_decide_eq_true hl) h
  | tbBuild => exact one .built fun s v u h => (Ends.tbBuildBody s v u h).1
  | hrHeader => exact one .decoding fun s v u h => (Ends.hrHeaderBody s v u h).1
  | ctGen =>
    exact one .coded (.bind fun _ => .bind fun _ => .bind fun _ =>
      .update (fun _ => rfl) fun _ _ _ h => by cases h; rfl)
  | hwHeader =>
    exact one .headerOut (.bind fun _ => .bind fun _ => .update (fun _ => rfl) fun _ _ _ h => by cases h; rfl)
  | hrMagic =>
    refine one .dmMagicOk (.bind fun o => ?_)
    cases o with
    | none => exact .raise _
    | some w =>
      dsimp only
      split_ifs
      · exact .raise _
      · exact .update (fun _ => rfl) fun _ _ _ h => by cases h; rfl

theorem errorCode_ne_zero (e : Error) : e.code ≠ okStatus := by cases e <;> decide

/-- Settles O7: STATUS 0 comes only from a pseudocode that ran to its end, in a phase that admits it. -/
theorem successFollowsThePhaseTable : Obligations.SuccessFollowsThePhaseTable := by
  intro i s t v h hr
  rcases exec_next_legal h with rfl | rfl | rfl | ⟨hl, ⟨w, u, hb, rfl⟩ | ⟨e, u, -, rfl⟩⟩
  · unfold illegalWord at hr
    split_ifs at hr <;> cases hr
  · cases hr
  · cases hr
  · exact ⟨(legalIn_iff_mem i _).mp hl, bodyOf_phase (u := u) hl hb⟩
  · exact absurd (HostReply.response.inj hr).1 (errorCode_ne_zero e)

end Sys2Proof.Machine
end

section
/-! PROOFS. What a command's pseudocode keeps wherever it ends, at its last line or at a `raise` (00_scope.md rule R14):
the registers it never writes, and what holds in every phase (10_state.md rules R28, R31, R36). -/

namespace Sys2Proof.Machine

variable {α β : Type} {P : State → Prop} {s t : State}

/-! ### Keeping a predicate -/

/-- The state in which the pseudocode ended. -/
def endState : EStateM.Result Stop State α → State
  | .ok _ t => t
  | .error _ t => t

/-- The pseudocode keeps `P`, wherever it ends. -/
def Keeps (P : State → Prop) (c : Cmd α) : Prop := ∀ s, P s → P (endState (c s))

/-- … where its first part keeps `P`, and its second part keeps it after the results of the first. -/
theorem Keeps.bind_of {x : Cmd α} {f : α → Cmd β} (hx : Keeps P x)
    (hf : ∀ s a t, P s → x s = .ok a t → P (endState (f a t))) : Keeps P (x >>= f) := by
  intro s hs
  cases h : x s with
  | ok a t => rw [bind_ok h]; exact hf s a t hs h
  | error e t =>
    have := hx s hs
    rw [bind_error h]
    rwa [h] at this

theorem Keeps.bind {x : Cmd α} {f : α → Cmd β} (hx : Keeps P x) (hf : ∀ a, Keeps P (f a)) : Keeps P (x >>= f) :=
  hx.bind_of fun s a t hs h => hf a t (by have := hx s hs; rwa [h] at this)

/-- … where the first part, when it answers, leads to a stronger predicate that the second part keeps. -/
theorem Keeps.bind_into {x : Cmd α} {f : α → Cmd β} (hx : Keeps P x)
    (hf : ∀ s a t, P s → x s = .ok a t → ∃ Q : State → Prop, Q t ∧ (∀ u, Q u → P u) ∧ Keeps Q (f a)) :
    Keeps P (x >>= f) :=
  hx.bind_of fun s a t hs h => by
    obtain ⟨Q, ht, hQ, hk⟩ := hf s a t hs h
    exact hQ _ (hk t ht)

theorem Keeps.pure (a : α) : Keeps P (pure a : Cmd α) := fun _ h => h

theorem Keeps.raise (e : Error) : Keeps P (raise e : Cmd α) := fun _ h => h

theorem Keeps.stuck (e : Fault) : Keeps P (stuck e : Cmd α) := fun _ h => h

theorem Keeps.getState : Keeps P getState := fun _ h => h

theorem Keeps.update {g : State → State} (hg : ∀ s, P s → P (g s)) : Keeps P (update g) := hg

theorem Keeps.ite {c : Prop} [Decidable c] {x y : Cmd α} (hx : Keeps P x) (hy : Keeps P y) :
    Keeps P (if c then x else y) := by split_ifs <;> assumption

theorem Keeps.visitNode (i : Index) : Keeps P (visitNode i) := by
  intro s hs
  unfold Machine.visitNode
  split_ifs <;> exact hs

theorem Keeps.readBits (hi : ∀ s p, P s → P { s with ipos := p }) (n : Nat) : Keeps P (readBits n) := by
  intro s hs
  unfold Machine.readBits
  split_ifs <;> exact hi _ _ hs

/-- The loop of a run form keeps what its step keeps in the phase of the loop. -/
theorem Keeps.runWhile {p : Phase} {c : Cmd Nat} (hc : ∀ s, s.phase = p → P s → P (endState (c s))) (fuel n : Nat) :
    Keeps P (runWhile p c fuel n) := by
  induction fuel generalizing n with
  | zero => exact .bind .getState fun _ => .ite (.stuck _) (.pure _)
  | succ fuel ih =>
    intro s hs
    by_cases hp : s.phase = p
    · have hk := hc s hp hs
      cases h : c s with
      | ok v t => rw [h] at hk; rw [runWhile_round hp h]; exact ih _ t hk
      | error e t => rw [h] at hk; rw [runWhile_stop hp h]; exact hk
    · rw [runWhile_done hp]; exact hs

/-! ### Each part of the pseudocode, by the registers it writes -/

theorem Keeps.fcStepBody (hi : ∀ s p, P s → P { s with ipos := p }) (hf : ∀ s b n, P s → P (s.setFreq b n))
    (hl : ∀ s n, P s → P { s with len := n }) (hp : ∀ s, P s → P { s with phase := .counted }) :
    Keeps P fcStepBody := by
  refine .bind (.readBits hi 8) fun o => ?_
  cases o with
  | none => exact .bind (.update fun s hs => hp _ (hf s _ _ hs)) fun _ => .pure _
  | some b =>
    exact .bind .getState fun _ => .ite (.raise _)
      (.bind (.update fun s hs => hl _ _ (hf s _ _ hs)) fun _ => .pure _)

theorem Keeps.allocLeaves (ha : ∀ n, Keeps P (alloc n)) (cs : List Count) (sym : Nat) (q : List Index) :
    Keeps P (allocLeaves cs sym q) := by
  induction cs generalizing sym q with
  | nil => exact .pure _
  | cons c cs ih =>
    unfold Machine.allocLeaves
    exact .ite (.bind (ha _) fun _ => ih _ _) (ih _ _)

theorem Keeps.extractMin (q : List Index) : Keeps P (extractMin q) := by
  cases q with
  | nil => exact .stuck _
  | cons i q => exact .bind .getState fun _ => .pure _

theorem Keeps.mergeAll (ha : ∀ n, Keeps P (alloc n)) (k : Nat) (q : List Index) : Keeps P (mergeAll k q) := by
  induction k generalizing q with
  | zero => exact .stuck _
  | succ k ih =>
    match q with
    | [] => exact .stuck _
    | [r] => exact .pure _
    | x :: y :: q =>
      exact .bind (.extractMin _) fun _ => .bind (.extractMin _) fun _ => .bind (.visitNode _) fun _ =>
        .bind (.visitNode _) fun _ => .bind (ha _) fun _ => ih _

theorem Keeps.tbBuildBody (hc : ∀ s, P s → P (clearArena s)) (ha : ∀ n, Keeps P (alloc n))
    (hr : ∀ s r, P s → P { s with root := r, rootValid := true, phase := .built }) : Keeps P tbBuildBody :=
  .bind (.update hc) fun _ => .bind .getState fun _ => .bind (.allocLeaves ha _ _ _) fun _ =>
    .bind (.mergeAll ha _ _) fun _ => .bind (.update fun s => hr s _) fun _ => .pure _

theorem Keeps.visit (hs : ∀ s sym q, P s → P (s.setCode sym q)) (d : Nat) (i : Index) (q : Bits) (n : Nat) :
    Keeps P (visit d i q n) := by
  induction d generalizing i q n with
  | zero => exact .stuck _
  | succ d ih =>
    exact .bind (.visitNode _) fun _ => .ite (.bind (.update fun s => hs s _ _) fun _ => .pure _)
      (.bind (ih _ _ _) fun _ => ih _ _ _)

theorem Keeps.writeTrie (ho : ∀ s q, P s → P { s with out := q }) (d : Nat) (i : Index) : Keeps P (writeTrie d i) := by
  have hw : ∀ n v, Keeps P (writeBits n v) := fun _ _ => .update fun s => ho s _
  induction d generalizing i with
  | zero => exact .stuck _
  | succ d ih =>
    exact .bind (.visitNode _) fun _ => .ite (.bind (hw _ _) fun _ => hw _ _)
      (.bind (hw _ _) fun _ => .bind (ih _) fun _ => ih _)

theorem Keeps.encStepBody (hi : ∀ s p, P s → P { s with ipos := p }) (ho : ∀ s q, P s → P { s with out := q })
    (hp : ∀ s, P s → P { s with phase := .encDone }) : Keeps P encStepBody := by
  have he : ∀ sym, Keeps P (emitCode sym) := fun _ => .update fun s => ho s _
  refine .bind (.readBits hi 8) fun o => ?_
  cases o with
  | none => exact .bind (he _) fun _ => .bind (.update hp) fun _ => .pure _
  | some b => exact .bind .getState fun _ => .ite (.bind (he _) fun _ => .pure _) (.raise _)

theorem Keeps.walk (hi : ∀ s p, P s → P { s with ipos := p }) (hc : ∀ s i, P s → P { s with cursor := i }) (d : Nat) :
    Keeps P (walk d) := by
  induction d with
  | zero => exact .stuck _
  | succ d ih =>
    refine .bind .getState fun _ => .bind (.visitNode _) fun _ => .ite (.pure _) (.bind (.readBits hi 1) fun r => ?_)
    cases r with
    | none => exact .raise _
    | some r => exact .bind (.update fun s => hc s _) fun _ => ih

theorem Keeps.decStepBody (hi : ∀ s p, P s → P { s with ipos := p }) (hc : ∀ s i, P s → P { s with cursor := i })
    (ho : ∀ s q, P s → P { s with out := q }) (hp : ∀ s, P s → P { s with phase := .decDone }) :
    Keeps P decStepBody :=
  .bind .getState fun _ => .bind (.walk hi hc _) fun _ => .ite (.bind (.update hp) fun _ => .pure _)
    (.bind (.update fun s => ho s _) fun _ => .bind (.update fun s => hc s _) fun _ => .pure _)

/-! ### The registers of the job -/

/-- The registers of the job: every field but the control registers, CURSOR, the ports and the host's side, which are
blanked. -/
def State.job (s : State) : State :=
  { s with
    phase := .idle, errcode := 0, errcmd := 0, cursor := 0, ipos := 0, out := [], input := [], pending := []
    reply := .silent }

/-- A state with the same registers of the job differs in the blanked fields only. -/
theorem eq_of_job (h : t.job = s.job) : t = { s with
    phase := t.phase, errcode := t.errcode, errcmd := t.errcmd, cursor := t.cursor, ipos := t.ipos, out := t.out
    input := t.input, pending := t.pending, reply := t.reply } := by
  cases s; cases t
  simpa [State.job] using h

/-- The commands that write no register of the job. -/
def keepsJob : Instr → Bool
  | .reset | .fcStart | .fcStep | .fcRun | .tbBuild | .ctGen | .dmStart | .hrHeader => false
  | _ => true

theorem bodyOf_keeps_job {i : Instr} (h : keepsJob i = true) (x : State) : Keeps (fun t => t.job = x) (bodyOf i) := by
  have hi : ∀ (s : State) p, s.job = x → ({ s with ipos := p } : State).job = x := fun _ _ h => h
  have ho : ∀ (s : State) q, s.job = x → ({ s with out := q } : State).job = x := fun _ _ h => h
  have hc : ∀ (s : State) i, s.job = x → ({ s with cursor := i } : State).job = x := fun _ _ h => h
  have hp : ∀ p, ∀ s : State, s.job = x → ({ s with phase := p } : State).job = x := fun _ _ h => h
  cases i with
  | nop | rdStatus | rdFreq a | rdLen | rdRoot | rdNcount | rdNode a | rdCodelen a | rdCodebit a b | rdIpos | rdOutlen
  | rdCursor => exact fun _ h => h
  | hwMagic | encStart => exact fun _ h => h
  | hwHeader =>
    exact .bind .getState fun _ => .bind (.writeTrie ho _ _) fun _ => .bind (.update (hp _)) fun _ =>
      .bind .getState fun _ => .pure _
  | encStep => exact .bind (.encStepBody hi ho (hp _)) fun _ => .pure _
  | encRun =>
    exact .bind .getState fun _ => .bind (.runWhile (fun s _ => Keeps.encStepBody hi ho (hp _) s) _ _) fun _ =>
      .bind .getState fun _ => .pure _
  | hrMagic =>
    refine .bind (.readBits hi 32) fun o => ?_
    cases o with
    | none => exact .raise _
    | some w => exact .ite (.raise _) (.bind (.update (hp _)) fun _ => .pure _)
  | decStep => exact .bind (.decStepBody hi hc ho (hp _)) fun _ => .pure _
  | decRun =>
    exact .bind .getState fun _ => .bind (.runWhile (fun s _ => Keeps.decStepBody hi hc ho (hp _) s) _ _) fun _ =>
      .pure _
  | reset | fcStart | fcStep | fcRun | tbBuild | ctGen | dmStart | hrHeader => cases h

end Sys2Proof.Machine
end

section
/-! PROOFS. What every step keeps, from what the pseudocode of the commands keeps; and the agreement of the control
registers with PHASE (10_state.md rules R24, R40 item 5, 60_exceptions.md rule R201, 70_reset_and_hazards.md rule
R230). -/

namespace Sys2Proof.Machine

variable {P : State → Prop} {s t u : State} {i : Instr} {v : Value}

/-! ### Steps -/

/-- What is to be shown of `P` for every step to keep it: the host's side does not matter to it, it outlives the load of
IN between jobs, power-on and the error entry, and the pseudocode of a command in a phase that admits it keeps it. -/
structure StepKeeps (P : State → Prop) : Prop where
  host : ∀ (s : State) rest r, P s → P { s with pending := rest, reply := r }
  load : ∀ (s : State) q, P s → s.phase.betweenJobs = true → q.length ≤ Config.inMaxBits → P { s with input := q }
  powerOn : ∀ s, P (powerOn s)
  entry : ∀ s op e, P s → P (enterError op e s)
  runs : ∀ i s v u, P s → legalIn i s.phase = true → bodyOf i s = .ok v u → P u
  raises : ∀ i s e u, P s → legalIn i s.phase = true → bodyOf i s = .error (.raised e) u → P (enterError i.opcode e u)

theorem StepKeeps.respond (h : StepKeeps P) (st : Status) (v : Value) (hs : P s) : P (respond st v s) :=
  h.host s s.pending _ hs

theorem StepKeeps.illegalWord (h : StepKeeps P) (op : Opcode) (hs : P s) : P (illegalWord op s) := by
  unfold Machine.illegalWord
  split_ifs
  · exact h.respond _ _ hs
  · exact h.entry _ _ _ hs

theorem StepKeeps.exec (h : StepKeeps P) (hs : P s) (he : exec i s = .next t) : P t := by
  rcases exec_next_legal he with rfl | rfl | rfl | ⟨hl, ⟨v, u, hb, rfl⟩ | ⟨e, u, hb, rfl⟩⟩
  · exact h.illegalWord _ hs
  · exact h.respond _ _ hs
  · exact h.entry _ _ _ hs
  · exact h.respond _ _ (h.runs _ _ _ _ hs hl hb)
  · exact h.raises _ _ _ _ hs hl hb

theorem loadIn_next {q : Bits} (h : loadIn q s = .next t) :
    s.phase.betweenJobs = true ∧ q.length ≤ Config.inMaxBits ∧ t = { s with input := q, reply := .silent } := by
  unfold loadIn at h
  by_cases hp : s.phase.betweenJobs = true
  · by_cases hl : q.length ≤ Config.inMaxBits
    · rw [if_pos hp, if_pos hl] at h
      exact ⟨hp, hl, (Host.Outcome.next.inj h).symm⟩
    · rw [if_pos hp, if_neg hl] at h
      nomatch h
  · rw [if_neg hp] at h
    nomatch h

theorem readOut_next (h : readOut s = .next t) : t = { s with reply := .outBits s.out } := by
  unfold readOut at h
  by_cases hp : s.phase.resultReady = true
  · rw [if_pos hp] at h
    exact (Host.Outcome.next.inj h).symm
  · rw [if_neg hp] at h
    nomatch h

theorem StepKeeps.makeMove (h : StepKeeps P) (hs : P s) {m : HostMove}
    (hm : Machine.makeMove Machine.exec m s = .next t) : P t := by
  cases m with
  | issue w =>
    unfold Machine.makeMove executeWord at hm
    cases hd : decode w with
    | ok i => simp only [hd] at hm; exact h.exec hs hm
    | error e => simp only [hd] at hm; cases hm; exact h.illegalWord _ hs
  | loadIn q =>
    obtain ⟨hp, hl, rfl⟩ := loadIn_next hm
    exact h.host { s with input := q } s.pending .silent (h.load s q hs hp hl)
  | readOut =>
    rw [readOut_next hm]
    exact h.host s s.pending _ hs
  | powerOn =>
    cases hm
    exact h.powerOn s

/-- The next step keeps `P`. -/
theorem StepKeeps.step (h : StepKeeps P) (hs : P s) (ht : step s = .next t) : P t := by
  unfold Machine.step stepBy takeMove at ht
  cases hp : s.pending with
  | nil => simp only [hp] at ht; cases ht; exact hs
  | cons m rest => simp only [hp] at ht; exact h.makeMove (h.host s rest s.reply hs) ht

/-! ### ROOT_VALID and OUT -/

/-- RESET, FC_START and DM_START: the commands that call ResetState(). -/
def resets : Instr → Bool
  | .reset | .fcStart | .dmStart => true
  | _ => false

/-- The phases in which there is a trie: ROOT_VALID in each of them (rule R40 item 5). -/
def Phase.hasTrie (p : Phase) : Bool := p.hasBuiltTrie || p.hasParsedTrie

/-- The changes of phase that the commands which write no register of the job can make (rule R23). -/
def jobMoves : List (Phase × Phase) :=
  [(.coded, .magicOut), (.magicOut, .headerOut), (.headerOut, .encoding), (.encoding, .encDone), (.dmReady, .dmMagicOk),
    (.decoding, .decDone)]

theorem jobMoves_of_success {p q : Phase} (hj : keepsJob i = true) (hl : legalIn i p = true)
    (hq : q ∈ successPhasesOfRule23 p i) : q = p ∨ (p, q) ∈ jobMoves := by
  cases i with
  | nop | rdStatus | rdFreq a | rdLen | rdRoot | rdNcount | rdNode a | rdCodelen a | rdCodebit a b | rdIpos | rdOutlen
  | rdCursor => exact .inl (List.mem_singleton.mp hq)
  | reset | fcStart | fcStep | fcRun | tbBuild | ctGen | dmStart | hrHeader => cases hj
  | hwMagic | hwHeader | encStart | encStep | encRun | hrMagic | decStep | decRun =>
    simp only [legalIn, decide_eq_true_eq] at hl
    subst hl
    revert q
    decide

/-- FC_STEP, FC_RUN and CT_GEN write neither ROOT_VALID nor OUT. -/
theorem bodyOf_keeps_rootValid_out (hi : i ∈ [.fcStep, .fcRun, .ctGen]) (x : Bool × Bits) :
    Keeps (fun t => (t.rootValid, t.out) = x) (bodyOf i) := by
  have hfc : Keeps (fun t => (t.rootValid, t.out) = x) fcStepBody :=
    .fcStepBody (fun _ _ h => h) (fun _ _ _ h => h) (fun _ _ h => h) (fun _ h => h)
  simp only [List.mem_cons, List.not_mem_nil, or_false] at hi
  rcases hi with rfl | rfl | rfl
  · exact .bind hfc fun _ => .pure _
  · exact .bind .getState fun _ => .bind (.runWhile (fun s _ => hfc s) _ _) fun _ => .pure _
  · exact .bind (.update fun _ h => h) fun _ => .bind .getState fun _ =>
      .bind (.visit (fun _ _ _ h => h) _ _ _ _) fun _ => .bind (.update fun _ h => h) fun _ => .pure _

/-- A pseudocode that runs to its end has kept what it keeps. -/
theorem Keeps.of_ok {α : Type} {c : Cmd α} {a : α} (h : Keeps P c) (hc : c s = .ok a t) (hs : P s) : P t := by
  have := h s hs
  rwa [hc] at this

theorem Keeps.of_error {α : Type} {c : Cmd α} {e : Stop} (h : Keeps P c) (hc : c s = .error e t) (hs : P s) : P t := by
  have := h s hs
  rwa [hc] at this

/-- The job's registers after a command that does not write them. -/
theorem job_eq_of_ok (hj : keepsJob i = true) (hb : bodyOf i s = .ok v u) : u.job = s.job :=
  (bodyOf_keeps_job hj s.job).of_ok hb rfl

/-- FC_STEP, FC_RUN and CT_GEN, where they run to their end: the phase before, the phase after, and what they leave. -/
theorem pass_of_ok (hi : i ∈ [.fcStep, .fcRun, .ctGen]) (hl : legalIn i s.phase = true) (hb : bodyOf i s = .ok v u) :
    u.rootValid = s.rootValid ∧ u.out = s.out ∧ s.phase.mayHaveOutput = false ∧ u.phase.hasTrie = s.phase.hasTrie := by
  obtain ⟨hr, ho⟩ := Prod.mk.inj ((bodyOf_keeps_rootValid_out hi (s.rootValid, s.out)).of_ok hb rfl)
  have hu := bodyOf_phase hl hb
  refine ⟨hr, ho, ?_⟩
  generalize u.phase = q at *
  generalize s.phase = p at *
  simp only [List.mem_cons, List.not_mem_nil, or_false] at hi
  rcases hi with rfl | rfl | rfl <;>
    · simp only [legalIn, decide_eq_true_eq] at hl
      subst hl
      revert q
      decide

/-- Where ROOT_VALID says whether the phase has a trie, it does so after every command that does not reset. -/
theorem rootValid_of_ok (hr : resets i = false) (hl : legalIn i s.phase = true) (hb : bodyOf i s = .ok v u)
    (hs : s.rootValid = s.phase.hasTrie) : u.rootValid = u.phase.hasTrie := by
  by_cases hj : keepsJob i = true
  · have hu : u.job.rootValid = s.job.rootValid := by rw [job_eq_of_ok hj hb]
    change u.rootValid = s.rootValid at hu
    have hm : ∀ m ∈ jobMoves, m.2.hasTrie = m.1.hasTrie := by decide
    rw [hu, hs]
    rcases jobMoves_of_success hj hl (bodyOf_phase hl hb) with e | e
    · rw [e]
    · exact (hm _ e).symm
  · cases i with
    | reset | fcStart | dmStart => cases hr
    | tbBuild =>
      obtain ⟨hp, hv⟩ := Ends.tbBuildBody _ _ _ hb
      rw [hp, hv]; rfl
    | hrHeader =>
      obtain ⟨hp, hv⟩ := Ends.hrHeaderBody _ _ _ hb
      rw [hp, hv]; rfl
    | fcStep | fcRun | ctGen =>
      obtain ⟨hv, -, -, ht⟩ := pass_of_ok (by simp) hl hb
      rw [hv, ht, hs]
    | _ => exact absurd rfl hj

/-- OUT is left empty by every command that ends in a phase that has written nothing. -/
theorem out_of_ok (hr : resets i = false) (hl : legalIn i s.phase = true) (hb : bodyOf i s = .ok v u)
    (hs : s.phase.mayHaveOutput = false → s.out = []) (hu : u.phase.mayHaveOutput = false) : u.out = [] := by
  have hq := bodyOf_phase hl hb
  cases i with
  | nop | rdStatus | rdFreq a | rdLen | rdRoot | rdNcount | rdNode a | rdCodelen a | rdCodebit a b | rdIpos | rdOutlen
  | rdCursor => cases hb; exact hs hu
  | reset | fcStart | dmStart => cases hr
  | fcStep | fcRun | ctGen =>
    obtain ⟨-, ho, hp, -⟩ := pass_of_ok (by simp) hl hb
    rw [ho, hs hp]
  | tbBuild =>
    have ho : Keeps (fun t => t.out = s.out) tbBuildBody :=
      .tbBuildBody (fun _ h => h) (fun n t h => by unfold alloc; split_ifs <;> exact h) fun _ _ h => h
    rw [ho.of_ok hb rfl, hs (by rw [of_decide_eq_true hl]; rfl)]
  | hrMagic =>
    have ho : Keeps (fun t => t.out = s.out) (bodyOf .hrMagic) := by
      refine .bind (.readBits (fun _ _ h => h) 32) fun o => ?_
      cases o with
      | none => exact .raise _
      | some w => exact .ite (.raise _) (.bind (.update fun _ h => h) fun _ => .pure _)
    rw [ho.of_ok hb rfl, hs (by rw [of_decide_eq_true hl]; rfl)]
  | hwMagic | hwHeader | encStart | encStep | encRun | hrHeader | decStep | decRun =>
    simp only [successPhasesOfRule23] at hq
    exfalso
    generalize u.phase = q at hq hu
    revert q
    decide

/-! ### The control registers -/

theorem controlInv_reset : State.reset.ControlInv := ⟨by decide, by decide, by decide, by decide, by decide⟩

/-- The control registers agree with PHASE after ResetState(), in each of the phases it is left for. -/
theorem controlInv_resetState {p : Phase} (hp : p ∈ [.idle, .counting, .dmReady]) :
    ({ resetState s with phase := p } : State).ControlInv := by
  have hq : p ≠ .error ∧ p.hasBuiltTrie = false ∧ p.hasParsedTrie = false := by revert p; decide
  obtain ⟨he, hb, ht⟩ := hq
  exact ⟨controlInv_reset.errcode_le, by simpa [State.reset] using he, fun _ => rfl,
    fun _ => by simp [State.reset, hb, ht], fun _ => rfl⟩

/-- ROOT_VALID is a function of PHASE outside phase ERROR. -/
theorem State.ControlInv.rootValid_eq (h : s.ControlInv) (he : s.phase ≠ .error) : s.rootValid = s.phase.hasTrie := by
  rw [Bool.eq_iff_iff, h.rootValid_iff he, Phase.hasTrie, Bool.or_eq_true]

/-- The control registers outside phase ERROR, from what a command's pseudocode keeps of the error registers. -/
theorem State.ControlInv.of_quiet (h : s.ControlInv) (he : s.phase ≠ .error) (hq : Quiet s u)
    (hr : u.rootValid = u.phase.hasTrie) (ho : u.phase.mayHaveOutput = false → u.out = []) : u.ControlInv := by
  have hcode : s.errcode = 0 := by
    by_contra hc
    exact he (h.error_iff.mpr hc)
  have hzero : u.errcode = 0 ∧ u.errcmd = 0 := by
    rcases hq.errors with ⟨h1, h2⟩ | hz
    · exact ⟨h1.trans hcode, h2.trans (h.errcmd_zero he)⟩
    · exact hz
  have hu : u.phase ≠ .error := fun e => he (hq.noError e)
  refine ⟨by rw [hzero.1]; decide, ⟨fun e => absurd e hu, fun e => absurd hzero.1 e⟩, fun _ => hzero.2, fun _ => ?_, ho⟩
  rw [hr, Phase.hasTrie, Bool.or_eq_true]

/-- The error entry sets the control registers, whatever they held (rule R201). -/
theorem controlInv_enterError (op : Opcode) (e : Error) : (enterError op e s).ControlInv where
  errcode_le := by rw [enterError_errcode]; cases e <;> decide
  error_iff := ⟨fun _ => errorCode_ne_zero e, fun _ => rfl⟩
  errcmd_zero h := absurd rfl h
  rootValid_iff h := absurd rfl h
  out_empty _ := rfl

/-- A command that runs to its end in phase ERROR changes nothing, or is RESET. -/
theorem ok_in_error (he : s.phase = .error) (hl : legalIn i s.phase = true) (hb : bodyOf i s = .ok v u) :
    u = s ∨ u = resetState s := by
  rw [he, legalIn_error] at hl
  cases i with
  | reset => cases hb; exact .inr rfl
  | nop | rdStatus | rdFreq a | rdLen | rdRoot | rdNcount | rdNode a | rdCodelen a | rdCodebit a b | rdIpos | rdOutlen
  | rdCursor => cases hb; exact .inl rfl
  | _ => cases hl

theorem State.ControlInv.runs (h : s.ControlInv) (hl : legalIn i s.phase = true) (hb : bodyOf i s = .ok v u) :
    u.ControlInv := by
  by_cases he : s.phase = .error
  · rcases ok_in_error he hl hb with rfl | rfl
    · exact h
    · exact controlInv_resetState (p := .idle) (by decide)
  · cases hr : resets i with
    | false =>
      exact h.of_quiet he ((quiet_bodyOf i).1 _ _ _ hb) (rootValid_of_ok hr hl hb (h.rootValid_eq he))
        (out_of_ok hr hl hb h.out_empty)
    | true =>
      cases i with
      | reset => cases hb; exact controlInv_resetState (p := .idle) (by decide)
      | fcStart => cases hb; exact controlInv_resetState (p := .counting) (by decide)
      | dmStart => cases hb; exact controlInv_resetState (p := .dmReady) (by decide)
      | _ => cases hr

theorem stepKeeps_controlInv : StepKeeps State.ControlInv where
  host _ _ _ h := ⟨h.errcode_le, h.error_iff, h.errcmd_zero, h.rootValid_iff, h.out_empty⟩
  load _ _ h _ _ := ⟨h.errcode_le, h.error_iff, h.errcmd_zero, h.rootValid_iff, h.out_empty⟩
  powerOn _ := ⟨controlInv_reset.errcode_le, controlInv_reset.error_iff, controlInv_reset.errcmd_zero,
    controlInv_reset.rootValid_iff, controlInv_reset.out_empty⟩
  entry _ op e _ := controlInv_enterError op e
  runs _ _ _ _ h hl hb := h.runs hl hb
  raises i _ e _ _ _ _ := controlInv_enterError i.opcode e

/-- Settles O52: the error entry and ResetState() set the control registers as PHASE asks, and every other command that
runs to its end follows the phase table. -/
theorem stepKeepsControl : Obligations.StepKeepsControl := fun _ _ hs ht => stepKeeps_controlInv.step hs ht

end Sys2Proof.Machine
end

section
/-! PROOFS. What holds in every phase, ERROR included: the arena above NODE_COUNT (10_state.md rule R28), the length of
IN (rule R36) and the bits above a code (rule R31). -/

namespace Sys2Proof.Machine

variable {s t u : State} {i : Instr} {v : Value} {trie : Trie}

/-- What holds between commands whatever PHASE is, and so outlives an error. -/
structure State.Lasting (s : State) : Prop where
  arena : s.ArenaInv
  input_le : s.input.length ≤ Config.inMaxBits
  bits_above : ∀ sym k, (s.codeLenAt sym).toNat ≤ k → (s.codeBitsAt sym).getLsbD k = false

theorem State.Inv.lasting (h : s.Inv) : s.Lasting := ⟨h.arena, h.trie.input_le, h.code.bits_above⟩

theorem State.ArenaInv.congr (h : s.ArenaInv) (hn : t.node = s.node) (hc : t.nodeCount = s.nodeCount) : t.ArenaInv where
  count_le := by rw [hc]; exact h.count_le
  unallocated i hi := by
    rw [hc] at hi
    unfold State.nodeAt
    rw [hn]
    exact h.unallocated i hi

theorem State.Lasting.congr (h : s.Lasting) (hn : t.node = s.node) (hc : t.nodeCount = s.nodeCount)
    (hi : t.input = s.input) (hl : t.codeLen = s.codeLen) (hb : t.codeBits = s.codeBits) : t.Lasting where
  arena := h.arena.congr hn hc
  input_le := by rw [hi]; exact h.input_le
  bits_above := by
    unfold State.codeLenAt State.codeBitsAt
    rw [hl, hb]
    exact h.bits_above

theorem arenaInv_clearArena : (clearArena s).ArenaInv := ⟨by simp, fun i _ => RegFile.read_fill _ i.toNat⟩

theorem State.Lasting.clearArena (h : s.Lasting) : (clearArena s).Lasting :=
  ⟨arenaInv_clearArena, h.input_le, h.bits_above⟩

theorem clearCodes_bitsAt (sym : Nat) : (clearCodes s).codeBitsAt sym = 0 := RegFile.read_fill _ _

theorem lasting_resetState (h : s.input.length ≤ Config.inMaxBits) : (resetState s).Lasting where
  arena := (arenaInv_clearArena (s := s)).congr rfl rfl
  input_le := h
  bits_above sym k _ := by
    have : (resetState s).codeBitsAt sym = 0 := clearCodes_bitsAt (s := s) sym
    rw [this]; simp

theorem lasting_reset : State.reset.Lasting :=
  (lasting_resetState (s := State.reset) (by decide)).congr rfl rfl rfl rfl rfl

/-! ### The arena -/

/-- Alloc counts the entry that it writes. -/
theorem alloc_ok {n : Node} {j : Index} (h : s.ArenaInv) (ha : alloc n s = .ok j t) :
    j = s.nodeCount ∧ t.nodeCount.toNat = s.nodeCount.toNat + 1 ∧ t.ArenaInv ∧
      t = { s with node := t.node, nodeCount := t.nodeCount } := by
  have hle := h.count_le
  by_cases hn : s.nodeCount.toNat = Config.nodeCap
  · rw [alloc_full hn] at ha
    cases ha
  · have hlt : s.nodeCount.toNat < 513 := Nat.lt_of_le_of_ne hle hn
    obtain ⟨w, hw, hf, hc, -, ho⟩ := (allocFollowsRule29 s n).2 hlt
    cases ha.symm.trans hw
    refine ⟨rfl, hc, ⟨by rw [hc]; exact hlt, fun i hi => ?_⟩, hf⟩
    rw [hc] at hi
    rw [ho i (by rintro rfl; omega)]
    exact h.unallocated i (by omega)

/-- Alloc keeps what holds in every phase, and never lowers NODE_COUNT. -/
theorem alloc_endState (h : s.Lasting) (n : Node) :
    (endState (alloc n s)).Lasting ∧ s.nodeCount.toNat ≤ (endState (alloc n s)).nodeCount.toNat := by
  by_cases hn : s.nodeCount.toNat = Config.nodeCap
  · rw [alloc_full hn]
    exact ⟨h, le_refl _⟩
  · obtain ⟨-, hc, harena, -⟩ := alloc_ok h.arena (alloc_run hn (n := n))
    rw [alloc_run hn]
    exact ⟨⟨harena, h.input_le, h.bits_above⟩, hc.ge.trans' (Nat.le_succ _)⟩

/-- Writing fields of an allocated entry leaves the others unallocated. -/
theorem State.Lasting.setNode (h : s.Lasting) {j : Index} (hj : j.toNat < s.nodeCount.toNat) (n : Node) :
    (s.setNode j n).Lasting where
  arena := ⟨h.arena.count_le, fun i hi => by
    have hne : j.toNat ≠ i.toNat := by have : s.nodeCount.toNat ≤ i.toNat := hi; omega
    exact (RegFile.read_write_other _ _ _ hne).trans (h.arena.unallocated i hi)⟩
  input_le := h.input_le
  bits_above := h.bits_above

/-- What holds in every phase holds, and at least `n` entries are allocated. -/
def Allocated (n : Nat) (s : State) : Prop := s.Lasting ∧ n ≤ s.nodeCount.toNat

theorem Keeps.changeNode_allocated {j : Index} {n : Nat} (hj : j.toNat < n) (f : Node → Node) :
    Keeps (Allocated n) (changeNode j f) :=
  fun _ h => ⟨h.1.setNode (hj.trans_le h.2) _, h.2⟩

/-- Parse writes only entries that it allocated. -/
theorem Keeps.parse (d n : Nat) : Keeps (Allocated n) (parse d) := by
  have hi : ∀ n (s : State) p, Allocated n s → Allocated n { s with ipos := p } :=
    fun n s p h => ⟨h.1.congr rfl rfl rfl rfl rfl, h.2⟩
  induction d generalizing n with
  | zero => exact .stuck _
  | succ d ih =>
    refine .bind (.readBits (hi n) 1) fun o => ?_
    cases o with
    | none => exact .raise _
    | some b =>
      have ha : Keeps (Allocated n) (alloc Node.zero) := fun s h =>
        ⟨(alloc_endState h.1 _).1, h.2.trans (alloc_endState h.1 _).2⟩
      refine .bind_into ha fun s j t hs h => ?_
      obtain ⟨rfl, hc, harena, hf⟩ := alloc_ok hs.1.arena h
      have ht : t.Lasting := by have := (alloc_endState hs.1 Node.zero).1; rwa [h] at this
      refine ⟨Allocated (s.nodeCount.toNat + 1), ⟨ht, hc.ge⟩,
        fun u hu => ⟨hu.1, hs.2.trans (Nat.le_of_succ_le hu.2)⟩, ?_⟩
      have hw := fun f => Keeps.changeNode_allocated (j := s.nodeCount) (n := s.nodeCount.toNat + 1) (by omega) f
      refine .ite (.bind (.readBits (hi _) 9) fun o => ?_)
        (.bind (ih _) fun _ => .bind (hw _) fun _ => .bind (ih _) fun _ => .bind (hw _) fun _ => .pure _)
      cases o with
      | none => exact .raise _
      | some w => exact .ite (.raise _) (.bind (hw _) fun _ => .pure _)

/-! ### The commands -/

/-- What holds in every phase is about the registers of the job and the length of IN. -/
theorem State.Lasting.of_job (h : s.Lasting) (hj : t.job = s.job) (hi : t.input.length ≤ Config.inMaxBits) :
    t.Lasting where
  arena := by rw [eq_of_job hj]; exact h.arena.congr rfl rfl
  input_le := hi
  bits_above := by rw [eq_of_job hj]; exact h.bits_above

/-- No command writes IN, wherever its pseudocode ends (rules R36, R51). -/
theorem endState_input (i : Instr) (s : State) : (endState (bodyOf i s)).input = s.input := by
  cases h : bodyOf i s with
  | ok v u => exact ((quiet_bodyOf i).1 s v u h).input
  | error e u => exact ((quiet_bodyOf i).2 s e u h).input

/-- Every command but CT_GEN keeps what holds in every phase, wherever its pseudocode ends. -/
theorem bodyOf_keeps_lasting (hi : i ≠ .ctGen) : Keeps State.Lasting (bodyOf i) := by
  have hfc : Keeps State.Lasting fcStepBody :=
    .fcStepBody (fun _ _ h => h.congr rfl rfl rfl rfl rfl) (fun _ _ _ h => h.congr rfl rfl rfl rfl rfl)
      (fun _ _ h => h.congr rfl rfl rfl rfl rfl) (fun _ h => h.congr rfl rfl rfl rfl rfl)
  by_cases hj : keepsJob i = true
  · exact fun s h => h.of_job (bodyOf_keeps_job hj s.job s rfl) (by rw [endState_input]; exact h.input_le)
  · cases i with
    | ctGen => exact absurd rfl hi
    | reset => exact fun s h => lasting_resetState h.input_le
    | fcStart | dmStart => exact fun s h => (lasting_resetState h.input_le).congr rfl rfl rfl rfl rfl
    | fcStep => exact .bind hfc fun _ => .pure _
    | fcRun => exact .bind .getState fun _ => .bind (.runWhile (fun s _ => hfc s) _ _) fun _ => .pure _
    | tbBuild =>
      exact .tbBuildBody (fun _ h => h.clearArena) (fun n s h => (alloc_endState h n).1)
        fun _ _ h => h.congr rfl rfl rfl rfl rfl
    | hrHeader =>
      refine .bind (.update fun _ h => h.clearArena) fun _ => .bind ?_ fun _ => .bind (.visitNode _) fun _ =>
        .ite (.raise _) (.bind (.update fun _ h => h.congr rfl rfl rfl rfl rfl) fun _ =>
          .bind .getState fun _ => .pure _)
      exact fun s h => (Keeps.parse _ 0 s ⟨h, Nat.zero_le _⟩).1
    | _ => exact absurd rfl hj

end Sys2Proof.Machine
end

section
/-! PROOFS. The counts (10_state.md rule R40 item 1) through the counting pass (40_frequency_counter.md rules R101,
R102). -/

namespace Sys2Proof.Machine

variable {s t u : State}

theorem byteTotal_eq_sum (s : State) : s.byteTotal = ∑ b ∈ Finset.range 256, (s.freqAt b).toNat := rfl

theorem byteTotal_congr (h : ∀ b < 256, t.freqAt b = s.freqAt b) : t.byteTotal = s.byteTotal := by
  rw [byteTotal_eq_sum, byteTotal_eq_sum]
  exact Finset.sum_congr rfl fun b hb => by rw [h b (Finset.mem_range.mp hb)]

theorem freqAt_le_byteTotal {b : Nat} (hb : b < 256) : (s.freqAt b).toNat ≤ s.byteTotal := by
  rw [byteTotal_eq_sum]
  exact Finset.single_le_sum (f := fun b => (s.freqAt b).toNat) (fun _ _ => Nat.zero_le _) (Finset.mem_range.mpr hb)

/-- One more of one byte is one more byte. -/
theorem byteTotal_succ {b : Nat} (hb : b < 256) (h : (t.freqAt b).toNat = (s.freqAt b).toNat + 1)
    (ho : ∀ a < 256, a ≠ b → t.freqAt a = s.freqAt a) : t.byteTotal = s.byteTotal + 1 := by
  have hm := Finset.mem_range.mpr hb
  rw [byteTotal_eq_sum, byteTotal_eq_sum, ← Finset.add_sum_erase _ _ hm,
    ← Finset.add_sum_erase _ (fun b => (s.freqAt b).toNat) hm, h]
  have hrest : ∑ a ∈ (Finset.range 256).erase b, (t.freqAt a).toNat =
      ∑ a ∈ (Finset.range 256).erase b, (s.freqAt a).toNat :=
    Finset.sum_congr rfl fun a ha => by
      obtain ⟨hne, ha⟩ := Finset.mem_erase.mp ha
      rw [ho a (Finset.mem_range.mp ha) hne]
  rw [hrest]; omega

/-- Fewer than 8 bits of IN are left, or a byte and what follows it. -/
theorem next_byte (s : State) : s.input.length < s.ipos.toNat + 8 ∨
    ∃ (b : BitVec 8) (rest : Bits), s.input.drop s.ipos.toNat = msbFirst b ++ rest := by
  by_cases h : s.input.length < s.ipos.toNat + 8
  · exact .inl h
  · obtain ⟨b, hb⟩ := exists_msbFirst (n := 8) (q := (s.input.drop s.ipos.toNat).take 8) (by simp; omega)
    exact .inr ⟨b, _, by rw [← hb, List.take_append_drop]⟩

/-- FC_STEP keeps the counts. -/
theorem fcStepBody_keeps_countInv (hp : s.phase = .counting) (h : s.CountInv) : (endState (fcStepBody s)).CountInv := by
  obtain ⟨h256, htotal⟩ := h.counting hp
  rcases next_byte s with hl | ⟨b, rest, hq⟩
  · rw [fcStepBody_eod hl]
    refine ⟨nofun, fun _ => ⟨?_, (byteTotal_congr fun b hb => ?_).trans htotal⟩⟩
    · exact congrArg BitVec.toNat (RegFile.read_write_same s.freq 0 1 (by decide))
    · exact RegFile.read_write_other _ _ _ (by omega)
  · by_cases hn : s.len.toNat = Config.maxLen
    · rw [fcStepBody_full hq hn]
      exact ⟨h.counting, h.counted⟩
    · rw [fcStepBody_byte hq hn]
      have hb := b.isLt
      have hle := freqAt_le_byteTotal (s := s) hb
      have hlen := s.len.isLt
      simp only [Config.maxLen] at hn
      refine ⟨fun _ => ⟨?_, ?_⟩, fun (hc : s.phase.hasCounts = true) => by rw [hp] at hc; cases hc⟩
      · exact (congrArg BitVec.toNat (RegFile.read_write_other s.freq 0 _ (by omega))).trans h256
      · have hs : (s.len + 1).toNat = s.len.toNat + 1 := by rw [BitVec.toNat_add]; simp; omega
        have hf : (s.freqAt b.toNat + 1).toNat = (s.freqAt b.toNat).toNat + 1 := by rw [BitVec.toNat_add]; simp; omega
        show _ = (s.len + 1).toNat
        rw [hs, ← htotal]
        refine byteTotal_succ hb ?_ fun a _ ha => RegFile.read_write_other _ _ _ (Ne.symm ha)
        rw [← hf]
        exact congrArg BitVec.toNat (RegFile.read_write_same s.freq 0 _ (by simp only [Config.nsym]; omega))

/-- FC_STEP and FC_RUN keep the counts. -/
theorem countInv_of_ok {i : Instr} {v : Value} (hi : i = .fcStep ∨ i = .fcRun) (hl : legalIn i s.phase = true)
    (hb : bodyOf i s = .ok v u) (h : s.CountInv) : u.CountInv := by
  rcases hi with rfl | rfl
  · obtain ⟨n, t, h1, h2⟩ := bind_eq_ok.mp hb
    cases h2
    have := fcStepBody_keeps_countInv (of_decide_eq_true hl) h
    rwa [h1] at this
  · have hk : Keeps State.CountInv (bodyOf .fcRun) := .bind .getState fun _ =>
      .bind (.runWhile (fun s hp h => fcStepBody_keeps_countInv hp h) _ _) fun _ => .pure _
    exact hk.of_ok hb h

end Sys2Proof.Machine
end

section
/-! PROOFS. The trie that TB_BUILD leaves (41_trie_builder.md rules R110, R112), the code table that CT_GEN leaves
(42_code_table.md rules R120, R121), and the trie that HR_HEADER leaves (43_header_codec.md rule R133), as rule R40 items
2 to 4 of 10_state.md ask. -/

namespace Sys2Proof.Machine

variable {s t u : State} {trie : Trie} {v : Value}

/-! ### TB_BUILD -/

theorem mem_usedSymbols {sym : Nat} : sym ∈ s.usedSymbols ↔ sym ≤ Config.sentinel ∧ 0 < (s.freqAt sym).toNat := by
  simp only [State.usedSymbols, List.mem_filter, List.mem_range, decide_eq_true_eq, Config.nsym, Config.sentinel]
  omega

theorem usedSymbols_nodup (s : State) : s.usedSymbols.Nodup := List.nodup_range.filter _

theorem leafOf_sym_toNat {sym : Nat} (h : sym ∈ s.usedSymbols) (c : Count) : (leafOf (sym, c)).sym.toNat = sym := by
  have := (mem_usedSymbols.mp h).1
  simp only [Config.sentinel] at this
  simp only [leafOf, BitVec.toNat_ofNat]
  omega

theorem leafOf_weight_toNat (sym : Nat) (c : Count) : (leafOf (sym, c)).weight.toNat = c.toNat := by
  have := c.isLt
  simp only [leafOf, BitVec.toNat_setWidth]
  omega

/-- The members of the queue that TB_BUILD merges are the entries of the used symbols, in order. -/
theorem leafQueue_map {α : Type} (f : Node → α) :
    s.leafQueue.map (fun i => f (s.withLeaves.nodeAt i)) =
      s.usedSymbols.map fun sym => f (leafOf (sym, s.freqAt sym)) := by
  have hlen := usedSymbols_length s
  apply List.ext_getElem (by simp)
  intro k h1 h2
  have hk : k < s.usedSymbols.length := by simpa using h1
  have hi : (BitVec.ofNat 10 k).toNat = k := by rw [BitVec.toNat_ofNat]; omega
  simp only [State.leafQueue, List.getElem_map, List.getElem_range, State.nodeAt, hi, withLeaves_read s hk]

/-- A member of that queue is the leaf of a used symbol. -/
theorem exists_leafOf {i : Index} (hi : i ∈ s.leafQueue) :
    ∃ sym ∈ s.usedSymbols, s.withLeaves.nodeAt i = leafOf (sym, s.freqAt sym) := by
  have := List.mem_map_of_mem (f := fun i => s.withLeaves.nodeAt i) hi
  rw [leafQueue_map (fun n => n)] at this
  obtain ⟨sym, hs, he⟩ := List.mem_map.mp this
  exact ⟨sym, hs, he.symm⟩

/-- On counts with the sentinel's 1 and the bytes' sum LEN, TB_BUILD builds a trie of the used symbols whose weights are
counts and sums of counts, LEN + 1 at the root. -/
theorem tbBuildBody_builds (h256 : (s.freqAt 256).toNat = 1) (htotal : s.byteTotal = s.len.toNat)
    (hb : tbBuildBody s = .ok v u) :
    u.freq = s.freq ∧ u.len = s.len ∧ ∃ trie : Trie, u.holds trie u.root ∧ trie.symbols.Perm s.usedSymbols ∧
      u.weighs trie u.root ∧ (u.nodeAt u.root).weight.toNat = s.len.toNat + 1 := by
  have hu : s.usedSymbols ≠ [] := List.ne_nil_of_mem (mem_usedSymbols.mpr ⟨le_refl _, by rw [h256]; decide⟩)
  obtain ⟨r, t, hrun, -, ht, -, -, -, hbody⟩ := tbBuildBody_total hu
  cases hb.symm.trans hbody
  have hfreq : t.freq = s.freq := by rw [ht]; rfl
  have hlen : t.len = s.len := by rw [ht]; rfl
  have htries : ∀ i ∈ s.leafQueue, s.withLeaves.holds (.leaf (s.withLeaves.nodeAt i).sym) i ∧
      s.withLeaves.weighs (.leaf (s.withLeaves.nodeAt i).sym) i := fun i hi => by
    obtain ⟨sym, hs, he⟩ := exists_leafOf hi
    have hlt := (merging_withLeaves hu).lt hi
    refine ⟨⟨?_, by rw [he]; rfl, rfl⟩, ?_⟩
    · have hc : s.withLeaves.nodeCount.toNat ≤ 257 := by
        have := usedSymbols_length s
        simp only [State.withLeaves, BitVec.toNat_ofNat]; omega
      simp only [Config.nodeCap]; omega
    · rw [State.weighs, he, leafOf_weight_toNat, leafOf_sym_toNat hs]; rfl
  have hweight : s.withLeaves.totalWeight s.leafQueue = s.len.toNat + 1 := by
    rw [State.totalWeight, leafQueue_map fun n => n.weight.toNat]
    simp only [leafOf_weight_toNat]
    rw [sum_usedSymbols, htotal, h256]
  obtain ⟨trie, hh, hw, hp, hr⟩ := mergeAll_tries (merging_withLeaves hu)
    (fun i => .leaf (s.withLeaves.nodeAt i).sym) htries (by rw [hweight]; have := s.len.isLt; omega)
    (by rw [leafQueue_length]; exact hrun)
  refine ⟨hfreq, hlen, trie, (holds_congr (by rfl)).mpr hh, ?_, (weighs_congr (by rfl) (by rfl)).mpr hw,
    hr.trans hweight⟩
  have hsyms : (s.leafQueue.flatMap fun i => (Trie.leaf (s.withLeaves.nodeAt i).sym).symbols) = s.usedSymbols := by
    simp only [Trie.symbols]
    rw [← List.map_eq_flatMap, leafQueue_map fun n => n.sym.toNat]
    exact (List.map_congr_left fun sym hs => leafOf_sym_toNat hs _).trans (List.map_id _)
  rwa [hsyms] at hp

/-! ### CT_GEN -/

/-- The codes of a trie of the used symbols fit CODE_BITS. -/
theorem code_length_le_of_perm (hp : trie.symbols.Perm s.usedSymbols) {c : Nat × Bits} (hc : c ∈ trie.codes) :
    c.2.length ≤ 256 := by
  have h1 := Trie.code_length_le hc
  have h2 := trie.depth_lt_leaves
  have h3 := usedSymbols_length s
  rw [hp.length_eq] at h2
  omega

/-- In a table that holds the codes of a trie of the used symbols, an entry is valid exactly for a used symbol, no code
begins another, and the bits above a code are 0. -/
theorem setCodes_table (hp : trie.symbols.Perm s.usedSymbols) {t : State}
    (ht : t = (clearCodes s).setCodes trie.codes) :
    (∀ sym ≤ Config.sentinel, (t.codeValidAt sym = true ↔ 0 < (t.freqAt sym).toNat)) ∧
    (∀ a b, a ≠ b → t.codeValidAt a = true → t.codeValidAt b = true → ¬ t.codeOf a <+: t.codeOf b) ∧
    ∀ sym k, (t.codeLenAt sym).toNat ≤ k → (t.codeBitsAt sym).getLsbD k = false := by
  have hn : (trie.codes.map Prod.fst).Nodup := by rw [Trie.codes_fst]; exact hp.nodup_iff.mpr (usedSymbols_nodup s)
  have hfreq : t.freq = s.freq := by rw [ht, setCodes_frame]; rfl
  have hle : ∀ c ∈ trie.codes, c.1 ≤ 256 := fun c hc =>
    (mem_usedSymbols.mp (hp.mem_iff.mp (Trie.mem_symbols_of_mem_codes hc))).1
  have hin : ∀ c ∈ trie.codes, t.codeValidAt c.1 = true ∧
      t.codeOf c.1 = c.2 := fun c hc => by
    rw [ht]
    exact ⟨(setCodes_read hn hc (hle c hc)).1, setCodes_codeOf hn hc (hle c hc) (code_length_le_of_perm hp hc)⟩
  have hout : ∀ sym ∉ trie.symbols, t.codeValidAt sym = false ∧
      t.codeBitsAt sym = 0 := fun sym hs => by
    obtain ⟨h1, -, h3⟩ := setCodes_read_other (s := clearCodes s) trie.codes (by rwa [Trie.codes_fst])
    rw [ht]
    exact ⟨h1.trans (RegFile.read_fill _ _), h3.trans (RegFile.read_fill _ _)⟩
  have hcode : ∀ sym, t.codeValidAt sym = true → ∃ q, (sym, q) ∈ trie.codes :=
    fun sym hv => Trie.exists_code (by by_contra hs; rw [(hout sym hs).1] at hv; cases hv)
  refine ⟨fun sym hs => ?_, fun a b hab ha hb hpre => ?_, fun sym k hk => ?_⟩
  · have hused : 0 < (t.freqAt sym).toNat ↔ sym ∈ trie.symbols := by
      rw [hp.mem_iff, mem_usedSymbols, State.freqAt, hfreq]
      exact (and_iff_right hs).symm
    rw [hused]
    refine ⟨fun hv => ?_, fun hm => ?_⟩
    · obtain ⟨q, hq⟩ := hcode sym hv
      exact Trie.mem_symbols_of_mem_codes hq
    · obtain ⟨q, hq⟩ := Trie.exists_code hm
      exact (hin _ hq).1
  · obtain ⟨p, hpa⟩ := hcode a ha
    obtain ⟨q, hqb⟩ := hcode b hb
    rw [(hin _ hpa).2, (hin _ hqb).2] at hpre
    exact hab (congrArg Prod.fst (Trie.code_prefix hpa hqb hpre))
  · by_cases hs : sym ∈ trie.symbols
    · obtain ⟨q, hq⟩ := Trie.exists_code hs
      obtain ⟨-, hl, hb⟩ := setCodes_read (s := clearCodes s) hn hq (hle _ hq)
      have hq256 := code_length_le_of_perm hp hq
      rw [ht, hl, BitVec.toNat_ofNat, Nat.mod_eq_of_lt (by omega)] at hk
      rw [ht, hb]
      exact packCode_above q hk
    · rw [(hout sym hs).2]; simp

/-! ### HR_HEADER -/

/-- Parse, where it answers on an empty arena, answers the root of a trie of symbols. -/
theorem parse_holds {r : Index} (hl : s.input.length ≤ Config.inMaxBits)
    (h : parse (Config.nodeCap + 1) (clearArena s) = .ok r t) :
    ∃ trie : Trie, t.holds trie r ∧ ∀ sym ∈ trie.symbols, sym ≤ Config.sentinel := by
  have h0 : (clearArena s).nodeCount.toNat = 0 := rfl
  rcases parse_total (s := clearArena s) (d := Config.nodeCap + 1) hl (by simp) (by simp) with
    ⟨trie, rest, hq, hs, hc⟩ | ⟨e, w, he, -, -⟩
  · have hdepth := trie.depth_lt_leaves
    have hsize := trie.size_eq
    rw [h0, Nat.zero_add] at hc
    have hrun := parse_run (s := clearArena s) (d := Config.nodeCap + 1) hl (by rw [h0]; omega) hs
      (by simp only [Config.nodeCap] at hc ⊢; omega) hq
    cases h.symm.trans hrun
    refine ⟨trie, holds_preorder (n := 0) (by omega) fun k hk => ?_, hs⟩
    exact RegFile.read_writeFrom _ _ _ (by simpa using hk) (by rw [h0]; omega)
  · cases h.symm.trans he

/-- HR_HEADER, where it runs to its end, leaves CURSOR at the root of a trie of symbols that is not a byte's leaf. -/
theorem hrHeaderBody_holds (hl : s.input.length ≤ Config.inMaxBits) (hb : hrHeaderBody s = .ok v u) :
    u.cursor = u.root ∧ ∃ trie : Trie, u.holds trie u.root ∧ trie.rootIsSentinelOrInternal = true ∧
      ∀ sym ∈ trie.symbols, sym ≤ Config.sentinel := by
  rw [hrHeaderBody, update_bind] at hb
  obtain ⟨r, t, hparse, hb⟩ := bind_eq_ok.mp hb
  obtain ⟨trie, hh, hs⟩ := parse_holds hl hparse
  rw [bind_ok (visitNode_run (holds_lt hh) t)] at hb
  split_ifs at hb with hcheck
  · cases hb
  · cases hb
    refine ⟨rfl, trie, (holds_congr (by rfl)).mpr hh, ?_, hs⟩
    cases trie with
    | leaf sym =>
      obtain ⟨-, hleaf, hsym⟩ := hh
      rw [hleaf, hsym] at hcheck
      simpa [Trie.rootIsSentinelOrInternal] using hcheck
    | node l r => rfl

end Sys2Proof.Machine
end

section
/-! PROOFS. What holds between commands (10_state.md rule R40, with rules R24, R28 and R31), at reset and after every
step. -/

namespace Sys2Proof.Machine

variable {s t u : State} {i : Instr} {v : Value}

/-! ### By phase -/

/-- In the phases without counts nothing is asked of them. -/
theorem countInv_of_phase (hp : s.phase ∈ [.idle, .dmReady, .decoding, .error]) : s.CountInv := by
  have hq : ∀ p ∈ [Phase.idle, .dmReady, .decoding, .error], p ≠ .counting ∧ p.hasCounts = false := by decide
  obtain ⟨h1, h2⟩ := hq _ hp
  exact ⟨fun h => absurd h h1, fun h => (nomatch h2.symm.trans h)⟩

/-- In the phases without a trie only the counts are asked for beside what holds in every phase. -/
theorem State.Lasting.inv (h : s.Lasting) (hc : s.ControlInv) (hn : s.CountInv)
    (hp : s.phase ∈ [.idle, .counting, .counted, .dmReady, .error]) : s.Inv := by
  have hq : ∀ p ∈ [Phase.idle, .counting, .counted, .dmReady, .error],
      p.hasBuiltTrie = false ∧ p.hasCodes = false ∧ p ≠ .decoding := by decide
  obtain ⟨h1, h2, h3⟩ := hq _ hp
  exact ⟨hc, h.arena, hn, ⟨h.input_le, fun h => (nomatch h1.symm.trans h), fun h => absurd h h3⟩,
    ⟨fun h => (nomatch h2.symm.trans h), fun h => (nomatch h2.symm.trans h), h.bits_above⟩⟩

theorem State.Lasting.enterError (h : s.Lasting) (op : Opcode) (e : Error) : (enterError op e s).Inv := by
  have hl : (Machine.enterError op e s).Lasting := h.congr rfl rfl rfl rfl rfl
  exact hl.inv (controlInv_enterError op e) (countInv_of_phase (by simp)) (by simp)

theorem inv_reset : State.reset.Inv := lasting_reset.inv controlInv_reset (countInv_of_phase (by decide)) (by decide)

/-- Settles O51: reset leaves phase IDLE, with the arena and the code table empty. -/
theorem resetHasTheInvariants : Obligations.ResetHasTheInvariants := inv_reset

/-! ### Commands that write no register of the job -/

/-- What rule R40 asks of a state in phase `q` beside what it asks in every phase, it asks in phase `p` too. -/
abbrev Phase.AsksNoMore (q p : Phase) : Prop :=
  (q = .counting → p = .counting) ∧ (q.hasCounts = true → p.hasCounts = true) ∧
    (q.hasBuiltTrie = true → p.hasBuiltTrie = true) ∧ (q.hasCodes = true → p.hasCodes = true) ∧
    (q = .decoding → p = .decoding)

theorem asksNoMore_of_jobMoves {p q : Phase} (h : q = p ∨ (p, q) ∈ jobMoves) : q.AsksNoMore p := by
  have hm : ∀ m ∈ jobMoves, m.2.AsksNoMore m.1 := by decide
  rcases h with rfl | h
  · exact ⟨id, id, id, id, id⟩
  · exact hm _ h

/-- What holds between commands is kept where the registers of the job are, on the moves of PHASE of the commands that
write none of them. -/
theorem State.Inv.of_job (h : s.Inv) (hj : u.job = s.job) (hin : u.input.length ≤ Config.inMaxBits) (hc : u.ControlInv)
    (hp : u.phase = s.phase ∨ (s.phase, u.phase) ∈ jobMoves) (hcur : u.phase = .decoding → u.cursor = u.root) :
    u.Inv := by
  obtain ⟨hcounting, hcounts, hbuilt, hcodes, hdecoding⟩ := asksNoMore_of_jobMoves hp
  have hu := eq_of_job hj
  have hl := h.lasting.of_job hj hin
  refine ⟨hc, hl.arena, ⟨fun p => ?_, fun p => ?_⟩, ⟨hin, fun p => ?_, fun p => ⟨hcur p, ?_⟩⟩,
    ⟨fun p => ?_, fun p => ?_, hl.bits_above⟩⟩
  · rw [hu]; exact h.count.counting (hcounting p)
  · rw [hu]; exact h.count.counted (hcounts p)
  · obtain ⟨trie, hh, hs, hw, hr⟩ := h.trie.built (hbuilt p)
    rw [hu]
    exact ⟨trie, (holds_congr (by rfl)).mpr hh, hs, (weighs_congr (by rfl) (by rfl)).mpr hw, hr⟩
  · obtain ⟨-, trie, hh, hs⟩ := h.trie.parsed (hdecoding p)
    rw [hu]
    exact ⟨trie, (holds_congr (by rfl)).mpr hh, hs⟩
  · rw [hu]; exact h.code.valid_iff (hcodes p)
  · rw [hu]; exact h.code.prefix_free (hcodes p)

/-- DEC_STEP, where it stays in phase DECODING, puts CURSOR back at the root (rule R150). -/
theorem Ends.decStepBody : Ends (fun u => u.phase = .decoding → u.cursor = u.root) decStepBody := by
  refine .bind fun _ => .bind fun nd => ?_
  split_ifs
  · exact .update (fun _ => nofun) fun _ _ _ h => by cases h; rfl
  · exact .bind fun _ => .update (fun _ _ => rfl) fun _ _ _ h => by cases h; rfl

theorem cursor_of_ok (hj : keepsJob i = true) (hl : legalIn i s.phase = true) (hb : bodyOf i s = .ok v u)
    (hs : s.phase = .decoding → s.cursor = s.root) (hp : u.phase = .decoding) : u.cursor = u.root := by
  have hq := bodyOf_phase hl hb
  rw [hp] at hq
  cases i with
  | nop | rdStatus | rdFreq a | rdLen | rdRoot | rdNcount | rdNode a | rdCodelen a | rdCodebit a b | rdIpos | rdOutlen
  | rdCursor => cases hb; exact hs hp
  | decStep =>
    obtain ⟨n, t, h, h'⟩ := bind_eq_ok.mp hb
    cases h'
    exact Ends.decStepBody _ _ _ h hp
  | hwMagic | hwHeader | encStart | encStep | encRun | hrMagic | decRun => simp [successPhasesOfRule23] at hq
  | reset | fcStart | fcStep | fcRun | tbBuild | ctGen | dmStart | hrHeader => cases hj

/-! ### Commands that write registers of the job -/

/-- FC_START leaves empty counts (rule R100). -/
theorem countInv_fcStart (s : State) : ({ resetState s with phase := .counting } : State).CountInv where
  counting _ := ⟨congrArg BitVec.toNat (RegFile.read_fill (n := Config.nsym) (0 : Count) 256),
    (byteTotal_eq_sum _).trans
      (Finset.sum_eq_zero fun b _ => congrArg BitVec.toNat (RegFile.read_fill (n := Config.nsym) (0 : Count) b))⟩
  counted h := by cases h

theorem State.Inv.tbBuild (h : s.Inv) (hp : s.phase = .counted) (hb : tbBuildBody s = .ok v u) (hc : u.ControlInv)
    (hl : u.Lasting) : u.Inv := by
  obtain ⟨h256, htotal⟩ := h.count.counted (by rw [hp]; rfl)
  obtain ⟨hfreq, hlen, trie, hh, hs, hw, hr⟩ := tbBuildBody_builds h256 htotal hb
  have hu := (Ends.tbBuildBody s v u hb).1
  have hno : u.phase ≠ .counting ∧ u.phase.hasCodes = false ∧ u.phase ≠ .decoding := by rw [hu]; decide
  obtain ⟨hcounting, hcodes, hdecoding⟩ := hno
  have hcounts : u.freqAt = s.freqAt := by funext sym; rw [State.freqAt, State.freqAt, hfreq]
  refine ⟨hc, hl.arena, ⟨fun p => absurd p hcounting, fun _ => ?_⟩,
    ⟨hl.input_le, fun _ => ⟨trie, hh, ?_, hw, ?_⟩, fun p => absurd p hdecoding⟩,
    ⟨fun p => (nomatch hcodes.symm.trans p), fun p => (nomatch hcodes.symm.trans p), hl.bits_above⟩⟩
  · rw [hcounts, hlen, byteTotal_congr fun b _ => congrFun hcounts b]
    exact ⟨h256, htotal⟩
  · rw [State.usedSymbols, hcounts]; exact hs
  · rw [hlen]; exact hr

theorem State.Inv.ctGen (h : s.Inv) (hp : s.phase = .built) (hb : ctGenBody s = .ok v u) (hc : u.ControlInv) :
    u.Inv := by
  obtain ⟨trie, hh, hs, hw, hr⟩ := h.trie.built (by rw [hp]; rfl)
  cases hb.symm.trans (ctGenBody_run hh)
  obtain ⟨hvalid, hprefix, habove⟩ := setCodes_table hs rfl
  rw [setCodes_frame] at hc hvalid hprefix habove ⊢
  refine ⟨hc, h.arena.congr rfl rfl, ⟨nofun, fun _ => h.count.counted (by rw [hp]; rfl)⟩, ⟨h.trie.input_le, fun _ =>
    ⟨trie, (holds_congr (by rfl)).mpr hh, hs, (weighs_congr (by rfl) (by rfl)).mpr hw, hr⟩, nofun⟩,
    ⟨fun _ => hvalid, fun _ a _ b _ => hprefix a b, habove⟩⟩

theorem State.Inv.hrHeader (h : s.Inv) (hb : hrHeaderBody s = .ok v u) (hc : u.ControlInv) (hl : u.Lasting) :
    u.Inv := by
  have hu := (Ends.hrHeaderBody s v u hb).1
  have hno : u.phase.hasBuiltTrie = false ∧ u.phase.hasCodes = false := by rw [hu]; decide
  obtain ⟨hbuilt, hcodes⟩ := hno
  exact ⟨hc, hl.arena, countInv_of_phase (by simp [hu]),
    ⟨hl.input_le, fun p => (nomatch hbuilt.symm.trans p), fun _ => hrHeaderBody_holds h.trie.input_le hb⟩,
    ⟨fun p => (nomatch hcodes.symm.trans p), fun p => (nomatch hcodes.symm.trans p), hl.bits_above⟩⟩

/-- A command whose pseudocode runs to its end keeps what holds between commands. -/
theorem State.Inv.runs (h : s.Inv) (hl : legalIn i s.phase = true) (hb : bodyOf i s = .ok v u) : u.Inv := by
  have hc := h.control.runs hl hb
  have hu := bodyOf_phase hl hb
  have hlast : i ≠ .ctGen → u.Lasting := fun hi => (bodyOf_keeps_lasting hi).of_ok hb h.lasting
  have hphases : ∀ p ∈ [Phase.counting, .counted], p ∈ [.idle, .counting, .counted, .dmReady, .error] := by decide
  by_cases hj : keepsJob i = true
  · have hi : i ≠ .ctGen := by rintro rfl; cases hj
    exact h.of_job (job_eq_of_ok hj hb) (hlast hi).input_le hc (jobMoves_of_success hj hl hu)
      (cursor_of_ok hj hl hb fun p => (h.trie.parsed p).1)
  · cases i with
    | reset => cases hb; exact (hlast nofun).inv hc (countInv_of_phase (by simp [State.reset])) (by simp [State.reset])
    | fcStart => cases hb; exact (hlast nofun).inv hc (countInv_fcStart s) (by simp)
    | dmStart => cases hb; exact (hlast nofun).inv hc (countInv_of_phase (by simp)) (by simp)
    | fcStep =>
      exact (hlast nofun).inv hc (countInv_of_ok (.inl rfl) hl hb h.count) (hphases _ hu)
    | fcRun =>
      exact (hlast nofun).inv hc (countInv_of_ok (.inr rfl) hl hb h.count) (hphases _ (List.mem_cons_of_mem _ hu))
    | tbBuild => exact h.tbBuild (of_decide_eq_true hl) hb hc (hlast nofun)
    | ctGen => exact h.ctGen (of_decide_eq_true hl) hb hc
    | hrHeader => exact h.hrHeader hb hc (hlast nofun)
    | _ => exact absurd rfl hj

/-- A command whose pseudocode raises leaves what holds in every phase: CT_GEN, whose descent follows a trie, raises
nothing. -/
theorem State.Inv.raises (h : s.Inv) (hl : legalIn i s.phase = true) {e : Error}
    (hb : bodyOf i s = .error (.raised e) u) : (enterError i.opcode e u).Inv := by
  by_cases hi : i = .ctGen
  · subst hi
    have hp : s.phase = .built := of_decide_eq_true hl
    obtain ⟨trie, hh, -⟩ := h.trie.built (by rw [hp]; rfl)
    cases hb.symm.trans (ctGenBody_run hh)
  · exact ((bodyOf_keeps_lasting hi).of_error hb h.lasting).enterError _ _

theorem stepKeeps_inv : StepKeeps State.Inv where
  host _ _ _ h := h.of_job rfl h.trie.input_le (stepKeeps_controlInv.host _ _ _ h.control) (.inl rfl)
    fun p => (h.trie.parsed p).1
  load _ _ h hp hq := h.of_job rfl hq (stepKeeps_controlInv.load _ _ h.control hp hq) (.inl rfl)
    fun p => (h.trie.parsed p).1
  powerOn s := inv_reset.of_job rfl (Nat.zero_le _) (stepKeeps_controlInv.powerOn s) (.inl rfl) nofun
  entry _ op e h := h.lasting.enterError op e
  runs _ _ _ _ h hl hb := h.runs hl hb
  raises _ _ _ _ h hl hb := h.raises hl hb

/-- Settles O53: each part of the invariant is kept by the commands that write its registers, the phase table says when
it is asked for, and only what holds in every phase is asked for after an error. -/
theorem stepKeepsTheInvariants : Obligations.StepKeepsTheInvariants := fun _ _ hs ht => stepKeeps_inv.step hs ht

end Sys2Proof.Machine
end

section
/-! PROOFS. The host's moves one by one (20_memory.md rules R52, R57, R68), and what the port primitives read and write
(rules R53, R55, R56). -/

namespace Sys2Proof.Machine

variable {s : State} {m : HostMove} {rest : List HostMove}

/-! ### The host's moves -/

/-- A step makes the host's next move, which is then no longer to be made. -/
theorem step_of_pending (hp : s.pending = m :: rest) : step s = makeMove exec m { s with pending := rest } := by
  simp only [step, stepBy, takeMove, hp]

/-- Settles O3: the move is to issue the word, and executing a word that decodes is executing its command. -/
theorem stepExecutesIssuedCommand : Obligations.StepExecutesIssuedCommand := by
  intro s w rest i hp hd
  rw [step_of_pending hp]
  simp only [makeMove, executeWord, hd]

theorem betweenJobs_iff_mem (p : Phase) : p.betweenJobs = true ↔ p ∈ [.idle, .encDone, .decDone, .error] := by
  cases p <;> decide

theorem resultReady_iff_mem (p : Phase) : p.resultReady = true ↔ p ∈ [.encDone, .decDone] := by
  cases p <;> decide

/-- Settles O25: a load is looked at for its phase first and for its length second (rule R68). -/
theorem hostLoadsInputBetweenJobs : Obligations.HostLoadsInputBetweenJobs := by
  intro s q rest hp
  rw [step_of_pending hp, ← betweenJobs_iff_mem]
  refine ⟨fun hj hq => ?_, fun hj hq => ?_, fun hj => if_neg hj⟩
  · exact (if_pos hj).trans (if_pos hq)
  · exact (if_pos hj).trans (if_neg (Nat.not_le.mpr hq))

/-- Settles O26: a read of OUT is looked at for its phase alone (rule R57). -/
theorem hostReadsOutWhenDone : Obligations.HostReadsOutWhenDone := by
  intro s rest hp
  rw [step_of_pending hp, ← resultReady_iff_mem]
  exact ⟨fun hr => if_pos hr, fun hr => if_neg hr⟩

/-! ### The port primitives -/

/-- Settles O23: WriteBits is stated by recursion on the bits left to write, EmitCode by the bits of the code. -/
theorem writesAppendToOut : Obligations.WritesAppendToOut :=
  ⟨fun s n v => by rw [writeBits_run, bitsOfNat_eq_map], fun _ _ => rfl⟩

/-- Bits as a number, bit by bit. -/
theorem natOfBits_eq_sum (q : Bits) :
    natOfBits q = ∑ k ∈ Finset.range q.length, (q.getD k false).toNat * 2 ^ (q.length - 1 - k) := by
  induction q with
  | nil => rfl
  | cons b q ih =>
    rw [natOfBits, ih, List.length_cons, Finset.sum_range_succ', add_comm]
    simp only [List.getD_cons_succ, List.getD_cons_zero, Nat.add_sub_cancel, Nat.sub_zero]
    congr 1
    exact Finset.sum_congr rfl fun k _ => by rw [Nat.sub_add_eq, Nat.sub_right_comm]

/-- IPOS does not wrap where it stays inside IN (rule R36). -/
theorem ipos_add {n : Nat} (hl : s.input.length ≤ Config.inMaxBits) (h : s.ipos.toNat + n ≤ s.input.length) :
    (s.ipos + BitVec.ofNat 48 n).toNat = s.ipos.toNat + n := by
  simp only [Config.inMaxBits] at hl
  rw [BitVec.toNat_add, BitVec.toNat_ofNat]
  omega

/-- The bits that ReadBits takes from IN, as a number. -/
theorem natOfBits_take_drop {n : Nat} (h : s.ipos.toNat + n ≤ s.input.length) :
    natOfBits ((s.input.drop s.ipos.toNat).take n) =
      ∑ k ∈ Finset.range n, (s.input.getD (s.ipos.toNat + k) false).toNat * 2 ^ (n - 1 - k) := by
  have hn : ((s.input.drop s.ipos.toNat).take n).length = n := by rw [List.length_take, List.length_drop]; omega
  rw [natOfBits_eq_sum, hn]
  refine Finset.sum_congr rfl fun k hk => ?_
  have hk := Finset.mem_range.mp hk
  simp only [List.getD_eq_getElem?_getD, List.getElem?_take_of_lt hk, List.getElem?_drop]

/-- Settles O22: the two cases of ReadBits; after EOD nothing is left to read. -/
theorem readBitsFollowsRule53 : Obligations.ReadBitsFollowsRule53 := by
  intro s n hl hn
  refine ⟨fun h => ?_, fun h => ?_⟩
  · have hend : (BitVec.ofNat 48 s.input.length).toNat = s.input.length := by
      simp only [Config.inMaxBits] at hl
      rw [BitVec.toNat_ofNat]; omega
    refine ⟨_, readBits_eod h, rfl, hend, fun m hm => readBits_eod ?_⟩
    show s.input.length < (BitVec.ofNat 48 s.input.length).toNat + m
    omega
  · exact ⟨_, _, readBits_some h, rfl, ipos_add hl h, natOfBits_take_drop h⟩

end Sys2Proof.Machine
end

section
/-! PROOFS. Pseudocode that comes to an end, at its last line or at a `raise`, and not in a stuck state (20_memory.md rule
R52, 70_reset_and_hazards.md rules R235, R239). -/

namespace Sys2Proof.Machine

variable {α β : Type} {s t : State} {Q : α → State → Prop} {E : Error → Prop}

/-! ### Coming to an end -/

/-- From `s` the pseudocode runs to its end, with `Q` of its answer and the state it leaves, or raises an error with
`E`. -/
def Answers (c : Cmd α) (s : State) (Q : α → State → Prop) (E : Error → Prop) : Prop :=
  (∃ a t, c s = .ok a t ∧ Q a t) ∨ ∃ e t, c s = .error (.raised e) t ∧ E e

theorem Answers.ok {c : Cmd α} {a : α} (h : c s = .ok a t) (hQ : Q a t) : Answers c s Q E := .inl ⟨a, t, h, hQ⟩

theorem Answers.raises {c : Cmd α} {e : Error} (h : c s = .error (.raised e) t) (hE : E e) : Answers c s Q E :=
  .inr ⟨e, t, h, hE⟩

/-- A pseudocode with the same result comes to the same end. -/
theorem Answers.of_eq {c d : Cmd α} (h : c s = d t) (hd : Answers d t Q E) : Answers c s Q E := by
  unfold Answers
  rwa [h]

theorem Answers.imp {c : Cmd α} {Q' : α → State → Prop} {E' : Error → Prop} (h : Answers c s Q E)
    (hQ : ∀ a t, Q a t → Q' a t) (hE : ∀ e, E e → E' e) : Answers c s Q' E' := by
  obtain ⟨a, t, h, hq⟩ | ⟨e, t, h, he⟩ := h
  · exact .ok h (hQ a t hq)
  · exact .raises h (hE e he)

theorem Answers.weaken {c : Cmd α} (h : Answers c s Q E) : Answers c s (fun _ _ => True) fun _ => True :=
  h.imp (fun _ _ _ => trivial) fun _ _ => trivial

theorem Answers.bind {x : Cmd α} {f : α → Cmd β} {R : β → State → Prop} (hx : Answers x s Q E)
    (hf : ∀ a t, Q a t → Answers (f a) t R E) : Answers (x >>= f) s R E := by
  obtain ⟨a, t, h, hq⟩ | ⟨e, t, h, he⟩ := hx
  · exact .of_eq (bind_ok h) (hf a t hq)
  · exact .raises (bind_error h) he

theorem Answers.getState_bind {f : State → Cmd β} {R : β → State → Prop} (h : Answers (f s) s R E) :
    Answers (getState >>= f) s R E := h

theorem Answers.readBits (n : Nat) : Answers (readBits n) s (fun _ t => t = { s with ipos := t.ipos }) E := by
  by_cases h : s.input.length < s.ipos.toNat + n
  · exact .ok (readBits_eod h) rfl
  · exact .ok (readBits_some (Nat.not_lt.mp h)) rfl

/-- The loop of a run form comes to an end where each round keeps `I`, stays in the phase of the loop and lowers `μ`, or
leaves that phase with `J`; `μ` rounds are enough. -/
theorem Answers.runWhile {p : Phase} {c : Cmd Nat} {I J : State → Prop} (μ : State → Nat)
    (hc : ∀ s, s.phase = p → I s →
      Answers c s (fun _ t => (t.phase = p ∧ I t ∧ μ t < μ s) ∨ (t.phase ≠ p ∧ J t)) E)
    {fuel : Nat} (n : Nat) (hp : s.phase = p) (hI : I s) (hf : μ s < fuel) :
    Answers (runWhile p c fuel n) s (fun _ t => J t) E := by
  induction fuel generalizing s n with
  | zero => omega
  | succ fuel ih =>
    obtain ⟨v, t, h, hround⟩ | ⟨e, t, h, he⟩ := hc s hp hI
    · refine .of_eq (runWhile_round hp h) ?_
      obtain ⟨hpt, hIt, hlt⟩ | ⟨hpt, hJ⟩ := hround
      · exact ih _ hpt hIt (by omega)
      · exact .ok (runWhile_done hpt) hJ
    · exact .raises (runWhile_stop hp h) he

/-! ### The counting and the encoding pass -/

/-- Bits that were read are no longer unread. -/
theorem unread_add {q rest : Bits} (hl : s.input.length ≤ Config.inMaxBits)
    (hq : s.input.drop s.ipos.toNat = q ++ rest) (h0 : 0 < q.length) (hi : t.input = s.input)
    (hp : t.ipos = s.ipos + BitVec.ofNat 48 q.length) : t.unread + q.length = s.unread := by
  have hlen := congrArg List.length hq
  rw [List.length_drop, List.length_append] at hlen
  rw [State.unread, State.unread, hi, hp, (drop_after rfl hl hq h0).1]
  omega

/-- A byte that was read leaves fewer whole bytes. -/
theorem unread_byte {b : BitVec 8} {rest : Bits} (hl : s.input.length ≤ Config.inMaxBits)
    (hq : s.input.drop s.ipos.toNat = msbFirst b ++ rest) (hi : t.input = s.input) (hp : t.ipos = s.ipos + 8) :
    t.unread / 8 < s.unread / 8 := by
  have h := unread_add hl hq (by simp) hi (by rw [hp, msbFirst_length]; rfl)
  rw [msbFirst_length] at h
  omega

/-- A round of a pass over IN, byte by byte: a byte is read and PHASE kept, or PHASE becomes `q`. -/
def byteRound (q : Phase) (s t : State) : Prop :=
  (t.phase = s.phase ∧ t.input = s.input ∧ t.unread / 8 < s.unread / 8) ∨ t.phase = q

theorem fcStepBody_answers (hl : s.input.length ≤ Config.inMaxBits) :
    Answers fcStepBody s (fun _ t => byteRound .counted s t) fun _ => True := by
  rcases next_byte s with h | ⟨b, rest, hq⟩
  · exact .ok (fcStepBody_eod h) (.inr rfl)
  · by_cases hn : s.len.toNat = Config.maxLen
    · exact .raises (fcStepBody_full hq hn) trivial
    · exact .ok (fcStepBody_byte hq hn) (.inl ⟨rfl, rfl, unread_byte hl hq rfl rfl⟩)

theorem encStepBody_answers (hl : s.input.length ≤ Config.inMaxBits) :
    Answers encStepBody s (fun _ t => byteRound .encDone s t) fun _ => True := by
  rcases next_byte s with h | ⟨b, rest, hq⟩
  · exact .ok (encStepBody_eod h) (.inr rfl)
  · cases hv : s.codeValidAt b.toNat with
    | false => exact .raises (encStepBody_noCode hq hv) trivial
    | true => exact .ok (encStepBody_byte hq hv) (.inl ⟨rfl, rfl, unread_byte hl hq rfl rfl⟩)

/-- A pass over IN, byte by byte, comes to an end within the bound of FC_RUN and ENC_RUN (rules R102, R142). -/
theorem Answers.bytePass {p q : Phase} {c : Cmd Nat} (hpq : q ≠ p)
    (hc : ∀ s, s.input.length ≤ Config.inMaxBits → Answers c s (fun _ t => byteRound q s t) fun _ => True)
    (hp : s.phase = p) (hl : s.input.length ≤ Config.inMaxBits) :
    Answers (Machine.runWhile p c (s.unread / 8 + 1) 0) s (fun _ _ => True) fun _ => True := by
  refine .runWhile (I := fun s => s.input.length ≤ Config.inMaxBits) (J := fun _ => True) (fun s => s.unread / 8)
    (fun s hp hl => (hc s hl).imp (fun _ t h => ?_) fun _ h => h) 0 hp hl (by omega)
  obtain ⟨hph, hin, hlt⟩ | hph := h
  · exact .inl ⟨hph.trans hp, by rwa [hin], hlt⟩
  · exact .inr ⟨by rwa [hph], trivial⟩

/-! ### The decoding pass -/

/-- Between two symbols of a body: CURSOR is at the root of a trie, no leaf of a byte (rule R133), and whole bytes have
come to OUT behind `x`. -/
structure BetweenSymbols (x : Bits) (s : State) : Prop where
  input_le : s.input.length ≤ Config.inMaxBits
  cursor : s.cursor = s.root
  trie : ∃ trie : Trie, s.holds trie s.root ∧ trie.rootIsSentinelOrInternal = true
  out : ∃ bs : List (BitVec 8), s.out = x ++ bs.flatMap msbFirst

/-- In a trie whose root is no leaf of a byte, only the sentinel's code can be empty. -/
theorem code_length_pos {trie : Trie} {sym : Nat} {q : Bits} (hr : trie.rootIsSentinelOrInternal = true)
    (hc : (sym, q) ∈ trie.codes) (hs : sym ≠ Config.sentinel) : 0 < q.length := by
  cases trie with
  | leaf s =>
    simp only [Trie.codes, List.mem_singleton, Prod.mk.injEq] at hc
    exact absurd (hc.1.trans (of_decide_eq_true hr)) hs
  | node l r =>
    simp only [Trie.codes, List.mem_append, List.mem_map, Prod.mk.injEq] at hc
    obtain ⟨d, -, -, rfl⟩ | ⟨d, -, -, rfl⟩ := hc <;> exact Nat.succ_pos _

/-- DEC_STEP recovers a symbol from one bit or more, or ends the pass, or raises MalformedBody. -/
theorem decStepBody_answers {x : Bits} (h : BetweenSymbols x s) :
    Answers decStepBody s (fun _ t => (t.phase = s.phase ∧ BetweenSymbols x t ∧ t.unread < s.unread) ∨
      (t.phase = .decDone ∧ ∃ bs : List (BitVec 8), t.out = x ++ bs.flatMap msbFirst)) (· = .malformedBody) := by
  obtain ⟨hl, hcur, ⟨trie, hroot, hr⟩, bs, hout⟩ := h
  have hh : s.holds trie s.cursor := by rwa [hcur]
  rcases codes_complete trie (s.input.drop s.ipos.toNat) with ⟨⟨sym, q⟩, hc, rest, hq⟩ | ⟨sym, more, hm, hc⟩
  · by_cases hs : sym = Config.sentinel
    · subst hs
      exact .ok (decStepBody_sentinel hl hh hc hq) (.inr ⟨rfl, bs, hout⟩)
    · have h0 := code_length_pos hr hc hs
      refine .ok (decStepBody_symbol hl hh hc hq hs) (.inl ⟨rfl, ⟨hl, rfl, ⟨trie, ?_, hr⟩,
        bs ++ [BitVec.ofNat 8 sym], ?_⟩, ?_⟩)
      · exact (holds_congr (by rfl)).mpr hroot
      · simp [hout, bitsOfNat_eight]
      · have := unread_add hl hq h0 (t := { s with ipos := s.ipos + BitVec.ofNat 48 q.length }) rfl rfl
        exact Nat.lt_of_lt_of_eq (Nat.lt_add_of_pos_right h0) this
  · exact .raises (decStepBody_truncated hl hh hc hm rfl) rfl

/-- DEC_RUN ends the pass with whole bytes behind what was in OUT, or raises MalformedBody, within its bound. -/
theorem decRunBody_answers {x : Bits} (hp : s.phase = .decoding) (h : BetweenSymbols x s) :
    Answers decRunBody s (fun _ t => t.phase = .decDone ∧ ∃ bs : List (BitVec 8), t.out = x ++ bs.flatMap msbFirst)
      (· = .malformedBody) := by
  refine .getState_bind (.bind (.runWhile (I := BetweenSymbols x)
    (J := fun t => t.phase = .decDone ∧ ∃ bs : List (BitVec 8), t.out = x ++ bs.flatMap msbFirst) State.unread
    (fun s hp h => (decStepBody_answers h).imp (fun _ t h => ?_) fun _ h => h) 0 hp h (by omega))
    fun _ _ h => .ok rfl h)
  obtain ⟨hph, hsym, hlt⟩ | ⟨hph, hout⟩ := h
  · exact .inl ⟨hph.trans hp, hsym, hlt⟩
  · exact .inr ⟨by rw [hph]; nofun, hph, hout⟩

/-! ### The stream reader -/

/-- HR_MAGIC accepts the magic field or raises InvalidFormat, and writes neither IN nor OUT. -/
theorem hrMagicBody_answers (magic : BitVec 32) : Answers (hrMagicBody magic) s
    (fun _ t => t.phase = .dmMagicOk ∧ t.input = s.input ∧ t.out = s.out) (· = .invalidFormat) := by
  refine .bind (.readBits 32) fun o t ht => ?_
  cases o with
  | none => exact .raises rfl rfl
  | some v =>
    by_cases hv : v ≠ magic.toNat
    · exact .raises (congrFun (if_pos hv) t) rfl
    · exact .ok (congrFun (if_neg hv) t) ⟨rfl, by rw [ht], by rw [ht]⟩

/-- Parse on an empty arena answers entry 0, or raises MalformedHeader or CapacityExceeded, and writes neither IN nor
OUT. -/
theorem parse_answers (hl : s.input.length ≤ Config.inMaxBits) : Answers (parse (Config.nodeCap + 1)) (clearArena s)
    (fun i t => i = 0 ∧ t.input = s.input ∧ t.out = s.out) fun e => e = .malformedHeader ∨ e = .capacityExceeded := by
  rcases parse_total (s := clearArena s) (d := Config.nodeCap + 1) hl (by simp) (by simp) with
    ⟨trie, rest, hq, hs, hc⟩ | ⟨e, t, h, -, he⟩
  · have hdepth := trie.depth_lt_leaves
    have hsize := trie.size_eq
    have hd : trie.depth < Config.nodeCap + 1 := by omega
    exact .ok (parse_run hl hc hs hd hq) ⟨rfl, rfl, rfl⟩
  · exact .raises h (he.imp_right And.left)

/-- HR_HEADER ends between symbols of a body, nothing written to OUT, or raises MalformedHeader or CapacityExceeded. -/
theorem hrHeaderBody_answers (hl : s.input.length ≤ Config.inMaxBits) : Answers hrHeaderBody s
    (fun _ t => t.phase = .decoding ∧ BetweenSymbols s.out t)
    fun e => e = .malformedHeader ∨ e = .capacityExceeded := by
  have h : Answers hrHeaderBody s (fun _ t => t.input = s.input ∧ t.out = s.out)
      fun e => e = .malformedHeader ∨ e = .capacityExceeded := by
    refine .bind (.ok rfl rfl) (Q := fun _ t => t = clearArena s) fun _ _ ht => ht ▸ ?_
    refine .bind (parse_answers hl) fun i t ⟨hi, hin, hout⟩ => ?_
    subst hi
    refine .of_eq (bind_ok (visitNode_run (by decide) t)) ?_
    split_ifs
    · exact .raises rfl (.inl rfl)
    · exact .ok rfl ⟨hin, hout⟩
  obtain ⟨v, u, hb, hin, hout⟩ | ⟨e, u, hb, he⟩ := h
  · obtain ⟨hcur, trie, hh, hr, -⟩ := hrHeaderBody_holds hl hb
    exact .ok hb ⟨(Ends.hrHeaderBody s v u hb).1, by rwa [hin], hcur, ⟨trie, hh, hr⟩, [], by simp [hout]⟩
  · exact .raises hb he

/-! ### Decompression -/

/-- The end of a decompression job: DEC_DONE with whole bytes in OUT, or an error of the stream (rule R58). -/
def decompressionEnded (t : State) : Prop :=
  (t.succeeded = true ∧ t.phase = .decDone ∧ ∃ bs : List (BitVec 8), t.out = bs.flatMap msbFirst) ∨
    (t.succeeded = false ∧ t.phase = .error ∧ t.errcode ∈ [1, 2, 3, 4] ∧ t.out = [])

/-- The errors of a stream that is decompressed. -/
def streamErrors : List Error := [.invalidFormat, .malformedHeader, .malformedBody, .capacityExceeded]

theorem decompressionEnded_enterError {e : Error} (he : e ∈ streamErrors) (op : Opcode) :
    decompressionEnded (enterError op e s) := by
  have hc : ∀ e ∈ streamErrors, e.code ∈ ([1, 2, 3, 4] : List Status) := by decide
  exact .inr ⟨decide_eq_false (errorCode_ne_zero e), rfl, hc e he, rfl⟩

/-- A command at the head of a sequence of commands: where its pseudocode comes to an end, the sequence goes on from its
answer, or the job has ended with an error of the stream. -/
theorem execAll_decompression {magic : BitVec 32} {i : Instr} {rest : List Instr} {Q : Value → State → Prop}
    (ho : operandsLegal i s = true) (he : s.phase ≠ .error) (hl : legalIn i s.phase = true)
    (hb : Answers (bodyWith magic i) s Q (· ∈ streamErrors))
    (hrest : ∀ v u, Q v u → ∃ t, execAll (execWith magic) rest (respond 0 v u) = .next t ∧ decompressionEnded t) :
    ∃ t, execAll (execWith magic) (i :: rest) s = .next t ∧ decompressionEnded t := by
  obtain ⟨v, u, h, hq⟩ | ⟨e, u, h, hs⟩ := hb
  · obtain ⟨t, ht, hend⟩ := hrest v u hq
    exact ⟨t, by simp only [execAll, execWith_runs h ho he hl]; exact ht, hend⟩
  · have hfail : (enterError i.opcode e u).succeeded = false := decide_eq_false (errorCode_ne_zero e)
    exact ⟨enterError i.opcode e u, by simp [execAll, execWith_raises h ho he hl, hfail],
      decompressionEnded_enterError hs _⟩

/-- Settles O50: each command of the sequence leaves the phase and the state that the next one starts from, or raises an
error of the stream. -/
theorem decompressionAlwaysEnds : Obligations.DecompressionAlwaysEnds := by
  intro magic s hp hin
  have hopen : ∀ p ∈ [Phase.idle, .encDone, .decDone], p ≠ .error ∧ legalIn .dmStart p = true := by decide
  obtain ⟨he, hl⟩ := hopen _ hp
  refine execAll_decompression (Q := fun _ t => t.phase = .dmReady ∧ t.input = s.input ∧ t.out = []) rfl he hl
    (.ok rfl ⟨rfl, rfl, rfl⟩) fun v a ⟨hpa, hia, hoa⟩ => ?_
  refine execAll_decompression (s := respond 0 v a) rfl (by simp [hpa]) (by simp [hpa, legalIn])
    ((hrMagicBody_answers magic).imp (fun _ _ h => h) (by simp [streamErrors])) fun w b ⟨hpb, hib, hob⟩ => ?_
  have hlb : (respond 0 w b).input.length ≤ Config.inMaxBits := by simpa [hib, hia] using hin
  refine execAll_decompression (s := respond 0 w b) rfl (by simp [hpb]) (by simp [hpb, legalIn])
    ((hrHeaderBody_answers hlb).imp (fun _ _ h => h) (by simp [streamErrors])) fun x c ⟨hpc, hc⟩ => ?_
  have hbetween : BetweenSymbols [] (respond 0 x c) := by
    obtain ⟨hi, hcur, ⟨trie, hh, hr⟩, bs, hout⟩ := hc
    exact ⟨hi, hcur, ⟨trie, (holds_congr (by rfl)).mpr hh, hr⟩, bs, by simpa [hob, hoa] using hout⟩
  refine execAll_decompression (s := respond 0 x c) rfl (by simp [hpc]) (by simp [hpc, legalIn])
    ((decRunBody_answers (s := respond 0 x c) hpc hbetween).imp (fun _ _ h => h) (by simp [streamErrors]))
    fun y d ⟨hpd, bs, hod⟩ => ⟨_, rfl, .inl ⟨rfl, hpd, bs, hod⟩⟩

/-! ### Every command -/

/-- With the invariants, the pseudocode of every command in a phase that admits it comes to an end (rule R239). -/
theorem bodyOf_answers {i : Instr} (h : s.Inv) (hl : legalIn i s.phase = true) :
    Answers (bodyOf i) s (fun _ _ => True) fun _ => True := by
  have hin := h.trie.input_le
  have hbody : s.phase = .decoding → BetweenSymbols s.out s := fun hp => by
    obtain ⟨hcur, trie, hh, hr, -⟩ := h.trie.parsed hp
    exact ⟨hin, hcur, ⟨trie, hh, hr⟩, [], by simp⟩
  cases i with
  | nop | rdStatus | rdFreq a | rdLen | rdRoot | rdNcount | rdNode a | rdCodelen a | rdCodebit a b | rdIpos | rdOutlen
  | rdCursor | reset | fcStart | dmStart | hwMagic | encStart => exact .ok rfl trivial
  | fcStep => exact .bind (fcStepBody_answers hin) fun _ _ _ => .ok rfl trivial
  | encStep => exact .bind (encStepBody_answers hin) fun _ _ _ => .ok rfl trivial
  | decStep => exact .bind (decStepBody_answers (hbody (of_decide_eq_true hl))).weaken fun _ _ _ => .ok rfl trivial
  | fcRun =>
    exact .getState_bind (.bind
      (.bytePass (q := .counted) nofun (fun _ => fcStepBody_answers) (of_decide_eq_true hl) hin)
      fun _ _ _ => .ok rfl trivial)
  | encRun =>
    exact .getState_bind (.bind
      (.bytePass (q := .encDone) nofun (fun _ => encStepBody_answers) (of_decide_eq_true hl) hin)
      fun _ _ _ => .ok rfl trivial)
  | decRun =>
    have hp : s.phase = .decoding := of_decide_eq_true hl
    exact (decRunBody_answers hp (hbody hp)).weaken
  | hrMagic => exact (hrMagicBody_answers Config.magic).weaken
  | hrHeader => exact (hrHeaderBody_answers hin).weaken
  | tbBuild =>
    have hp : s.phase = .counted := of_decide_eq_true hl
    have h256 := (h.count.counted (by rw [hp]; rfl)).1
    have hu : s.usedSymbols ≠ [] := List.ne_nil_of_mem (mem_usedSymbols.mpr ⟨le_refl _, by rw [h256]; decide⟩)
    obtain ⟨r, t, -, -, -, -, -, -, hrun⟩ := tbBuildBody_total hu
    exact .ok hrun trivial
  | ctGen =>
    have hp : s.phase = .built := of_decide_eq_true hl
    obtain ⟨trie, hh, -⟩ := h.trie.built (by rw [hp]; rfl)
    exact .ok (ctGenBody_run hh) trivial
  | hwHeader =>
    have hp : s.phase = .magicOut := of_decide_eq_true hl
    obtain ⟨trie, hh, -⟩ := h.trie.built (by rw [hp]; rfl)
    exact .getState_bind (.bind (.ok (writeTrie_run hh (holds_depth hh)) trivial) (Q := fun _ _ => True)
      fun _ _ _ => .ok rfl trivial)

/-- A response was given for the host's move. -/
def answered (o : Host.Outcome State Fault Refusal) : Prop := ∃ t st v, o = .next t ∧ t.reply = .response st v

theorem answered_illegalWord (op : Opcode) : answered (.next (illegalWord op s)) := by
  unfold illegalWord
  split_ifs <;> exact ⟨_, _, _, rfl, rfl⟩

/-- A command whose pseudocode comes to an end where the command is legal is answered (rule R202). -/
theorem command_answered {i : Instr} {body : Cmd Value}
    (h : legalIn i s.phase = true → Answers body s (fun _ _ => True) fun _ => True) : answered (command i body s) := by
  have hrun : legalIn i s.phase = true → answered (conclude i.opcode (body s)) := fun hl => by
    obtain ⟨v, t, hb, -⟩ | ⟨e, t, hb, -⟩ := h hl <;>
      · rw [hb]
        exact ⟨_, _, _, rfl, rfl⟩
  unfold command
  split_ifs with ho he hr hl
  · exact hrun (by rw [he, legalIn_error]; exact hr)
  · exact ⟨_, _, _, rfl, rfl⟩
  · exact hrun hl
  · exact ⟨_, _, _, rfl, rfl⟩
  · exact answered_illegalWord _

/-- Settles O54: a word that is no command is answered as an illegal word, and a command comes to an end wherever it is
legal. -/
theorem everyWordIsAnswered : Obligations.EveryWordIsAnswered := by
  intro s w rest h hp
  rw [step_of_pending hp]
  show answered (executeWord exec w { s with pending := rest })
  unfold executeWord
  cases hd : decode w with
  | error e => exact answered_illegalWord _
  | ok i =>
    show answered (exec i _)
    rw [exec_eq_command]
    exact command_answered (bodyOf_answers (stepKeeps_inv.host s rest s.reply h))

end Sys2Proof.Machine
end

section
/-! PROOFS. The command word (30_encoding.md rules R71, R72, R76): decoding and encoding, and the words that rule R77
finds legal. -/

namespace Sys2Proof.Machine

variable {i : Instr} {s : State} {w : Word}

/-! ### Decoding and encoding -/

/-- A well-formed command is read back from its word, command by command. -/
theorem decode_encode : (i : Instr) → i.wellFormed = true → decode (encode i) = .ok i
  | .nop => Laws.RoundTrip.nop
  | .reset => Laws.RoundTrip.reset
  | .fcStart => Laws.RoundTrip.fcStart
  | .fcStep => Laws.RoundTrip.fcStep
  | .fcRun => Laws.RoundTrip.fcRun
  | .tbBuild => Laws.RoundTrip.tbBuild
  | .ctGen => Laws.RoundTrip.ctGen
  | .hwMagic => Laws.RoundTrip.hwMagic
  | .hwHeader => Laws.RoundTrip.hwHeader
  | .encStart => Laws.RoundTrip.encStart
  | .encStep => Laws.RoundTrip.encStep
  | .encRun => Laws.RoundTrip.encRun
  | .dmStart => Laws.RoundTrip.dmStart
  | .hrMagic => Laws.RoundTrip.hrMagic
  | .hrHeader => Laws.RoundTrip.hrHeader
  | .decStep => Laws.RoundTrip.decStep
  | .decRun => Laws.RoundTrip.decRun
  | .rdStatus => Laws.RoundTrip.rdStatus
  | .rdFreq a => Laws.RoundTrip.rdFreq a
  | .rdLen => Laws.RoundTrip.rdLen
  | .rdRoot => Laws.RoundTrip.rdRoot
  | .rdNcount => Laws.RoundTrip.rdNcount
  | .rdNode a => Laws.RoundTrip.rdNode a
  | .rdCodelen a => Laws.RoundTrip.rdCodelen a
  | .rdCodebit a b => Laws.RoundTrip.rdCodebit a b
  | .rdIpos => Laws.RoundTrip.rdIpos
  | .rdOutlen => Laws.RoundTrip.rdOutlen
  | .rdCursor => Laws.RoundTrip.rdCursor

/-- A row with a symbol operand accepts only a symbol. -/
theorem isSymbol_of_symbolRow {a : OperandA} {b : OperandB} {j : Instr} (h : symbolRow i a b = .ok j) :
    isSymbol a = true := by
  unfold symbolRow at h
  split_ifs at h with ha
  exact ha

theorem isSymbol_of_codeBitRow {a : OperandA} {j : Instr} (h : codeBitRow i a = .ok j) : isSymbol a = true := by
  unfold codeBitRow at h
  split_ifs at h with ha
  exact ha

/-- The words of the commands that are not well-formed do not decode. -/
theorem wellFormed_of_decode_encode (h : decode (encode i) = .ok i) : i.wellFormed = true := by
  rw [decode_encode_eq] at h
  cases i with
  | rdFreq a | rdCodelen a => exact isSymbol_of_symbolRow h
  | rdCodebit a b => exact isSymbol_of_codeBitRow h
  | _ => rfl

/-- A word that decodes is assembled from the fields of its command. -/
theorem encode_of_decode (h : decode w = .ok i) : encode i = w := by
  obtain ⟨hop, ha, hb, hr⟩ := decode_fields h
  exact word_eq_of_fields (by rw [opField_encode, hop]) (by rw [aField_encode, ha]) (by rw [bField_encode, hb])
    (by rw [rsvField_encode, hr])

/-- Decoding inverts encoding on the well-formed commands. -/
theorem decode_eq_ok_iff : decode w = .ok i ↔ encode i = w ∧ i.wellFormed = true := by
  constructor
  · intro h
    have hw := encode_of_decode h
    exact ⟨hw, wellFormed_of_decode_encode (hw ▸ h)⟩
  · rintro ⟨rfl, h⟩
    exact decode_encode i h

/-- Settles O4: `decode` inverts `encode` on the well-formed commands, read in both directions. -/
theorem decodeEncodeAgree : Obligations.DecodeEncodeAgree :=
  ⟨decode_encode, fun _ _ => decode_eq_ok_iff.mp⟩

/-- Settles O2: the fields of a word side by side are the sum of rule R72. -/
theorem wordsAreAssembledByRule72 : Obligations.WordsAreAssembledByRule72 := by
  refine ⟨fun a b => encode_toNat _, fun a => ?_, fun a => ?_, fun a => ?_, by decide⟩
  all_goals
    rw [encode_toNat]
    simp [Instr.opcode, Instr.operandA, Instr.operandB]

/-- Settles O1: the decoder evaluated at the eleven words. -/
theorem writtenWordsDecode : Obligations.WrittenWordsDecode := by
  unfold Obligations.WrittenWordsDecode
  decide

/-! ### Rule R77 -/

/-- Operands that are legal in some state are well-formed. -/
theorem wellFormed_of_operandsLegal (h : operandsLegal i s = true) : i.wellFormed = true := by
  cases i with
  | rdFreq a | rdCodelen a => exact h
  | rdCodebit a b =>
    simp only [operandsLegal, Bool.and_eq_true] at h
    exact h.1.1
  | _ => rfl

/-- The word of a command is legal by rule R77 exactly where the command's operands are. -/
theorem legalWord_encode_iff : legalWordOfRule77 (encode i) s ↔ operandsLegal i s = true := by
  have hr : (encode i).toNat / 2 ^ 26 = 0 := by
    have := i.opcode.isLt
    have := i.operandA.isLt
    have := i.operandB.isLt
    rw [encode_toNat]
    omega
  unfold legalWordOfRule77
  rw [hr, ← opField_toNat, ← aField_toNat, ← bField_toNat, opField_encode, aField_encode, bField_encode]
  cases i with
  | rdFreq a | rdCodelen a | rdNode a | rdCodebit a b =>
    simp [Instr.opcode, Instr.operandA, Instr.operandB, operandsLegal, isSymbol, and_assoc]
  | _ => simp [Instr.opcode, Instr.operandA, Instr.operandB, operandsLegal]

/-- Every opcode of the map of rule R76, with all other fields 0, is the word of a command. -/
theorem exists_decode_opcode {op : Nat}
    (h : op ∈ [0x00, 0x01, 0x10, 0x11, 0x12, 0x20, 0x30, 0x40, 0x41, 0x50, 0x51, 0x52, 0x60, 0x61, 0x62, 0x70,
      0x71, 0x80, 0x81, 0x82, 0x83, 0x84, 0x85, 0x86, 0x87, 0x88, 0x89, 0x8A]) :
    ∃ i, decode (BitVec.ofNat 32 op) = .ok i := by
  have hok : (decode (BitVec.ofNat 32 op)).isOk = true := by
    revert op
    decide
  cases hd : decode (BitVec.ofNat 32 op) with
  | ok i => exact ⟨i, rfl⟩
  | error e => rw [hd] at hok; cases hok

/-- A word that rule R77 finds legal is the word of a command. -/
theorem exists_encode_of_legalWord (h : legalWordOfRule77 w s) : ∃ i, encode i = w := by
  obtain ⟨hop, hr, hab⟩ := h
  have hrsv : rsvField w = 0 := BitVec.eq_of_toNat_eq (by rw [rsvField_toNat, hr]; rfl)
  have built : ∀ i : Instr, i.opcode.toNat = w.toNat % 2 ^ 8 → i.operandA = aField w → i.operandB = bField w →
      ∃ i, encode i = w := fun i ho ha hb =>
    ⟨i, word_eq_of_fields (by rw [opField_encode]; exact BitVec.eq_of_toNat_eq (ho.trans (opField_toNat w).symm))
      (by rw [aField_encode, ha]) (by rw [bField_encode, hb]) (by rw [rsvField_encode, hrsv])⟩
  have bZero : w.toNat / 2 ^ 18 % 2 ^ 8 = 0 → 0 = bField w := fun h =>
    BitVec.eq_of_toNat_eq (by rw [bField_toNat, h]; rfl)
  split_ifs at hab with h1 h2 h3
  · rcases h1 with h1 | h1
    · exact built (.rdFreq (aField w)) h1.symm rfl (bZero hab.2)
    · exact built (.rdCodelen (aField w)) h1.symm rfl (bZero hab.2)
  · exact built (.rdNode (aField w)) h2.symm rfl (bZero hab.2)
  · exact built (.rdCodebit (aField w) (bField w)) h3.symm rfl rfl
  · have hw : BitVec.ofNat 32 (w.toNat % 2 ^ 8) = w := by
      apply BitVec.eq_of_toNat_eq
      rw [BitVec.toNat_ofNat]
      omega
    obtain ⟨i, hd⟩ := exists_decode_opcode hop
    exact ⟨i, (encode_of_decode hd).trans hw⟩

/-- The words that rule R77 finds legal are those of the commands with legal operands. -/
theorem legalWord_iff : legalWordOfRule77 w s ↔ ∃ i, decode w = .ok i ∧ operandsLegal i s = true := by
  constructor
  · intro h
    obtain ⟨i, rfl⟩ := exists_encode_of_legalWord h
    have ho := legalWord_encode_iff.mp h
    exact ⟨i, decode_encode i (wellFormed_of_operandsLegal ho), ho⟩
  · rintro ⟨i, hd, ho⟩
    rw [← encode_of_decode hd]
    exact legalWord_encode_iff.mpr ho

/-- Settles O5: rule R77 finds a word legal where it decodes to a command with legal operands, and any other word is
answered as illegal. -/
theorem illegalWordsAreRefused : Obligations.IllegalWordsAreRefused := by
  intro s w rest hp
  have hop : opField w = BitVec.ofNat 8 (w.toNat % 2 ^ 8) :=
    BitVec.eq_of_toNat_eq (by rw [opField_toNat, BitVec.toNat_ofNat, Nat.mod_mod])
  have hstep : ¬ legalWordOfRule77 w s →
      step s = .next (illegalWord (BitVec.ofNat 8 (w.toNat % 2 ^ 8)) { s with pending := rest }) := fun h => by
    rw [← hop]
    exact step_illegal hp fun i hd => Bool.eq_false_iff.mpr fun ho => h (legalWord_iff.mpr ⟨i, hd, ho⟩)
  refine ⟨fun h he => ?_, fun h he => ?_, legalWord_iff.mp⟩
  · rw [hstep h, illegalWord, if_neg he]
    rfl
  · rw [hstep h, illegalWord, if_pos he]
    rfl

end Sys2Proof.Machine
end

section
/-! PROOFS. The response to a command (30_encoding.md rules R73, R74). -/

namespace Sys2Proof.Machine

variable {s t : State}

/-- STATUS and VALUE of the response that takes a command from `s` to `t` (rules R73, R74). -/
def outcomeStatus (s t : State) (st : Status) (v : Value) : Prop :=
  t.reply = .response st v ∧ (st ≠ 0 → v = 0) ∧
    (s.phase ≠ .error → (st = 0 ↔ t.phase ≠ .error) ∧ (st ≠ 0 → st = t.errcode)) ∧
    (s.phase = .error → st = 0 ∨ st = 7 ∨ st = 8)

/-- A command outside phase ERROR that enters it. -/
theorem outcomeStatus_enterError (hs : s.phase ≠ .error) (op : Opcode) (e : Error) (u : State) :
    outcomeStatus s (enterError op e u) e.code 0 :=
  ⟨rfl, fun _ => rfl, fun _ => ⟨⟨fun h => absurd h (errorCode_ne_zero e), fun h => absurd rfl h⟩, fun _ => rfl⟩,
    fun h => absurd h hs⟩

theorem outcomeStatus_illegalWord (op : Opcode) : outcomeStatus s (illegalWord op s) Error.illegalCommand.code 0 := by
  unfold illegalWord
  split_ifs with he
  · exact ⟨rfl, fun _ => rfl, fun h => absurd he h, fun _ => .inr (.inl rfl)⟩
  · exact outcomeStatus_enterError he op _ s

/-- A command whose pseudocode ran to its end. -/
theorem outcomeStatus_ok {u : State} (hq : Quiet s u) (v : Value) : outcomeStatus s (respond okStatus v u) 0 v :=
  ⟨rfl, fun h => absurd rfl h, fun hs => ⟨⟨fun _ hu => hs (hq.noError hu), fun _ => rfl⟩, fun h => absurd rfl h⟩,
    fun _ => .inl rfl⟩

/-- Settles O10: by what a command can do, the refusals, the error entry and the end of its pseudocode; a `raise` comes
only outside phase ERROR. -/
theorem statusIsTheOutcome : Obligations.StatusIsTheOutcome := by
  intro i s t h
  show ∃ st v, outcomeStatus s t st v
  rcases exec_next h with ⟨-, rfl⟩ | ⟨-, he, -, rfl⟩ | ⟨-, he, -, rfl⟩ |
    ⟨-, hr, -, ⟨v, u, -, hq, rfl⟩ | ⟨e, u, hb, -, rfl⟩⟩
  · exact ⟨_, _, outcomeStatus_illegalWord _⟩
  · exact ⟨haltedStatus, 0, rfl, fun _ => rfl, fun h => absurd he h, fun _ => .inr (.inr rfl)⟩
  · exact ⟨_, _, outcomeStatus_enterError he _ _ s⟩
  · exact ⟨_, v, outcomeStatus_ok hq v⟩
  · have hs : s.phase ≠ .error := fun he => by
      obtain ⟨v, w, hok⟩ := bodyOf_runsInError (hr he) s
      cases hb.symm.trans hok
    exact ⟨_, _, outcomeStatus_enterError hs _ e u⟩

end Sys2Proof.Machine
end

section
/-! PROOFS. Headers of tries (30_encoding.md rules R80, R82): their length, and that HR_HEADER accepts those of the
accepted tries and nothing else (43_header_codec.md rule R133). -/

namespace Sys2Proof.Machine

variable {s : State}

/-- A leaf is 10 bits of a header and an internal node 1, and there is one internal node fewer than leaves. -/
theorem Trie.header_length_add_one (trie : Trie) : trie.header.length + 1 = 11 * trie.symbols.length := by
  induction trie with
  | leaf sym => simp [header, symbols]
  | node l r ihl ihr =>
    simp only [header, symbols, List.length_cons, List.length_append]
    omega

/-- Settles O37: from the length with the missing bit added. -/
theorem headerLength : Obligations.HeaderLength := fun trie => Nat.eq_sub_of_add_eq trie.header_length_add_one

/-- The bits of IN that are left begin with the header of an accepted trie. -/
def State.headerAhead (s : State) : Prop :=
  ∃ trie rest, acceptedTrie trie ∧ s.input.drop s.ipos.toNat = trie.header ++ rest

/-- HR_HEADER on the header of an accepted trie goes to DECODING and answers NODE_COUNT. -/
theorem hrHeaderBody_of_headerAhead (hl : s.input.length ≤ Config.inMaxBits) (h : s.headerAhead) :
    ∃ v u, hrHeaderBody s = .ok v u ∧ u.phase = .decoding ∧ v = u.nodeCount.setWidth 64 := by
  obtain ⟨trie, rest, ⟨hsize, hsym, hroot⟩, hq⟩ := h
  obtain ⟨-, hb⟩ := hrHeaderBody_run hl hsize hsym hroot hq
  have hv : BitVec.ofNat 64 trie.size = ((clearArena s).parsed trie).nodeCount.setWidth 64 := by
    apply BitVec.eq_of_toNat_eq
    simp [State.parsed]
    omega
  exact ⟨_, _, hb, rfl, hv⟩

/-- What HR_HEADER leaves when it raises `e`: no root, and a full arena behind CapacityExceeded (rules R29, R133). -/
def headerError (e : Error) (u : State) : Prop :=
  u.rootValid = false ∧ (e = .malformedHeader ∨ e = .capacityExceeded ∧ u.nodeCount.toNat = Config.nodeCap)

/-- HR_HEADER on the header of a single leaf that is a byte's (rule R133, error 4). -/
theorem hrHeaderBody_byteLeaf {sym : Symbol} {rest : Bits} (hl : s.input.length ≤ Config.inMaxBits)
    (hsym : sym.toNat < Config.sentinel) (hq : s.input.drop s.ipos.toNat = (Trie.leaf sym).header ++ rest) :
    hrHeaderBody s = .error (.raised .malformedHeader) ((clearArena s).parsed (.leaf sym)) := by
  have hp := parse_run (s := clearArena s) (d := Config.nodeCap + 1) (trie := .leaf sym) hl (by simp [Trie.size])
    (by simp [Trie.symbols]; omega) (by simp [Trie.depth]) hq
  have hnode : ((clearArena s).parsed (.leaf sym)).nodeAt 0 = ⟨true, sym, 0, 0, 0⟩ :=
    RegFile.read_write_same (i := 0) _ _ _ (by decide)
  rw [hrHeaderBody, update_bind, bind_ok hp]
  refine (bind_ok (visitNode_run (i := 0) (by decide) _)).trans ?_
  rw [hnode, if_pos ⟨rfl, Nat.ne_of_lt hsym⟩, raise_run]

/-- HR_HEADER on anything else raises. -/
theorem hrHeaderBody_of_not_headerAhead (hl : s.input.length ≤ Config.inMaxBits) (h : ¬ s.headerAhead) :
    ∃ e u, hrHeaderBody s = .error (.raised e) u ∧ headerError e u := by
  rcases parse_total (s := clearArena s) (d := Config.nodeCap + 1) hl (by simp) (by simp) with
    ⟨trie, rest, hq, hsym, hsize⟩ | ⟨e, u, he, hrv, hcode⟩
  · cases trie with
    | leaf sym =>
      have hne : sym.toNat ≠ Config.sentinel := fun heq =>
        h ⟨_, rest, ⟨by simp [Trie.size], hsym, decide_eq_true heq⟩, hq⟩
      have hlt : sym.toNat < Config.sentinel := Nat.lt_of_le_of_ne (hsym _ (List.mem_singleton_self _)) hne
      exact ⟨_, _, hrHeaderBody_byteLeaf hl hlt hq, rfl, .inl rfl⟩
    | node l r => exact absurd ⟨_, rest, ⟨by simpa using hsize, hsym, rfl⟩, hq⟩ h
  · refine ⟨e, u, ?_, hrv, hcode⟩
    rw [hrHeaderBody, update_bind]
    exact bind_error he

/-- Settles O44: the bits left begin with the header of an accepted trie, or they do not; Parse is total. -/
theorem hrHeaderAcceptsExactlyHeaders : Obligations.HrHeaderAcceptsExactlyHeaders := by
  intro s hp hl
  have hne : s.phase ≠ .error := by simp [hp]
  have hleg : legalIn .hrHeader s.phase = true := by simp [hp, legalIn]
  by_cases h : s.headerAhead
  · obtain ⟨_, u, hb, hph, rfl⟩ := hrHeaderBody_of_headerAhead hl h
    exact ⟨_, exec_runs .hrHeader s hb rfl hne hleg, .inl ⟨h, hph, rfl⟩⟩
  · obtain ⟨e, u, hb, hrv, hcode⟩ := hrHeaderBody_of_not_headerAhead hl h
    refine ⟨_, exec_raises .hrHeader s hb rfl hne hleg, .inr ⟨h, rfl, hrv, rfl, rfl, rfl, ?_⟩⟩
    rcases hcode with rfl | ⟨rfl, hfull⟩
    · exact .inl rfl
    · exact .inr ⟨rfl, hfull⟩

end Sys2Proof.Machine
end

section
/-! PROOFS. The commands of a job, which phase ERROR does not admit (60_exceptions.md rule R203), and the frequency
counter (40_frequency_counter.md rules R100 to R102). -/

namespace Sys2Proof.Machine

variable {i : Instr} {s u : State}

/-! ### The commands of a job -/

theorem operandsLegal_of_job (h : runsInError i = false) (s : State) : operandsLegal i s = true := by
  cases i with
  | rdFreq | rdNode | rdCodelen | rdCodebit => cases h
  | _ => rfl

theorem ne_error_of_legal_job {p : Phase} (h : runsInError i = false) (hl : legalIn i p = true) : p ≠ .error := by
  rintro rfl
  rw [legalIn_error, h] at hl
  cases hl

/-- The common lines of a command of a job: its word, its illegal words and Sequence. -/
theorem plainCommand_job (h : runsInError i = false) : plainCommand i i.opcode.toNat (legalPhasesOfRule23 i) := by
  refine plainCommand_of rfl ?_ (operandsLegal_of_job h) fun p => (legalIn_iff_mem i p).mp
  cases i with
  | rdFreq | rdNode | rdCodelen | rdCodebit => cases h
  | _ => decide

/-- A command of a job, in one of its phases, its pseudocode run to its end. -/
theorem exec_job_runs {v : Value} (h : runsInError i = false) (hl : legalIn i s.phase = true)
    (hb : bodyOf i s = .ok v u) : exec i s = .next (respond 0 v u) :=
  exec_runs i s hb (operandsLegal_of_job h s) (ne_error_of_legal_job h hl) hl

/-- A command of a job, in one of its phases, its pseudocode ended by `raise e`. -/
theorem exec_job_raises {e : Error} (h : runsInError i = false) (hl : legalIn i s.phase = true)
    (hb : bodyOf i s = .error (.raised e) u) : exec i s = .next (enterError i.opcode e u) :=
  exec_raises i s hb (operandsLegal_of_job h s) (ne_error_of_legal_job h hl) hl

/-! ### FC_START, FC_STEP and FC_RUN -/

/-- Settles O28: the pseudocode is ResetState() and the write of PHASE. -/
theorem fcStartOpensAJob : Obligations.FcStartOpensAJob :=
  ⟨plainCommand_job (i := .fcStart) rfl, fun s hp =>
    exec_job_runs (i := .fcStart) rfl ((legalIn_iff_mem .fcStart s.phase).mpr hp) rfl⟩

/-- The whole byte that comes next in IN, and what follows it. -/
theorem drop_of_take_eight {b : BitVec 8} (h : (s.input.drop s.ipos.toNat).take 8 = msbFirst b) :
    s.input.drop s.ipos.toNat = msbFirst b ++ (s.input.drop s.ipos.toNat).drop 8 := by
  rw [← h, List.take_append_drop]

/-- Settles O29: the step of the counting pass at the end of data, at a byte, and at a byte with LEN = MAX_LEN. -/
theorem fcStepCountsOneByte : Obligations.FcStepCountsOneByte := by
  have hl : ∀ {s : State}, s.phase = .counting → legalIn .fcStep s.phase = true := decide_eq_true
  refine ⟨plainCommand_job (i := .fcStep) rfl, fun s hp h => ?_, fun s b hp h hn => ?_, fun s b hp h hn => ?_⟩
  · exact exec_job_runs rfl (hl hp) (bind_ok (fcStepBody_eod h))
  · rw [← BitVec.ofNat_toNat]
    exact exec_job_runs rfl (hl hp) (bind_ok (fcStepBody_byte (drop_of_take_eight h) hn))
  · exact exec_job_raises (i := .fcStep) rfl (hl hp) (bind_error (fcStepBody_full (drop_of_take_eight h) hn))

/-- Settles O30: the loop of FC_RUN, whose bound is one more than the whole bytes left. -/
theorem fcRunCountsTheRest : Obligations.FcRunCountsTheRest := by
  refine ⟨plainCommand_job (i := .fcRun) rfl, fun s bs rest hp hl hq hr hn => ?_⟩
  have hfuel : bs.length < s.unread / 8 + 1 := by
    have hlen := congrArg List.length hq
    simp only [List.length_drop, List.length_append, flatMap_msbFirst_length] at hlen
    simp only [State.unread]
    omega
  obtain ⟨u, hrun, hu, hbytes, hsentinel⟩ := fcRun_loop bs s rest _ 0 hp hl hq hr hn hfuel
  rw [Nat.zero_add] at hrun
  refine ⟨_, exec_job_runs (i := .fcRun) rfl (decide_eq_true hp) (bind_ok hrun), ?_, hbytes, hsentinel⟩
  exact congrArg (respond 0 (BitVec.ofNat 64 bs.length)) hu

end Sys2Proof.Machine
end

section
/-! PROOFS. The run forms against their step forms (40_frequency_counter.md rule R102, 44_body_encoder.md rule R142,
45_body_decoder.md rule R151, 92_eei_decisions.md D32). Each step form answers, and its response stands in the state
that the next one starts from, where the loop of the run form has none; so the pseudocode of a step is shown not to read
it. -/

namespace Sys2Proof.Machine

variable {α β : Type} {i : Instr} {s t : State}

/-! ### What no pseudocode reads -/

/-- The same end of a pseudocode, in another state. -/
def mapState (g : State → State) : EStateM.Result Stop State α → EStateM.Result Stop State α
  | .ok a t => .ok a (g t)
  | .error e t => .error e (g t)

/-- The pseudocode does not read the latest response, and does not write one. -/
def ReplyBlind (c : Cmd α) : Prop := ∀ st v s, c (respond st v s) = mapState (respond st v) (c s)

theorem ReplyBlind.pure (a : α) : ReplyBlind (pure a : Cmd α) := fun _ _ _ => rfl

theorem ReplyBlind.raise (e : Error) : ReplyBlind (raise e : Cmd α) := fun _ _ _ => rfl

theorem ReplyBlind.stuck (f : Fault) : ReplyBlind (stuck f : Cmd α) := fun _ _ _ => rfl

theorem ReplyBlind.update {g : State → State} (h : ∀ st v s, g (respond st v s) = respond st v (g s)) :
    ReplyBlind (update g) := fun st v s => congrArg (EStateM.Result.ok ()) (h st v s)

theorem ReplyBlind.bind {x : Cmd α} {f : α → Cmd β} (hx : ReplyBlind x) (hf : ∀ a, ReplyBlind (f a)) :
    ReplyBlind (x >>= f) := by
  intro st v s
  have h := hx st v s
  cases hs : x s with
  | ok a t => rw [hs] at h; rw [bind_ok h, bind_ok hs, hf a]
  | error e t => rw [hs] at h; rw [bind_error h, bind_error hs]; rfl

theorem ReplyBlind.getState_bind {f : State → Cmd β} (hr : ∀ st v s, f (respond st v s) = f s)
    (hf : ∀ s, ReplyBlind (f s)) : ReplyBlind (getState >>= f) := fun st v s => by
  rw [Machine.getState_bind, Machine.getState_bind, hr, hf]

theorem ReplyBlind.ite {c : Prop} [Decidable c] {x y : Cmd α} (hx : ReplyBlind x) (hy : ReplyBlind y) :
    ReplyBlind (if c then x else y) := by split_ifs <;> assumption

theorem ReplyBlind.readBits (n : Nat) : ReplyBlind (readBits n) := by
  intro st v s
  by_cases h : s.input.length < s.ipos.toNat + n
  · rw [readBits_eod h, readBits_eod (s := respond st v s) h]; rfl
  · have h' := Nat.not_lt.mp h
    rw [readBits_some h', readBits_some (s := respond st v s) h']; rfl

theorem ReplyBlind.visitNode (j : Index) : ReplyBlind (visitNode j) := by
  intro st v s
  unfold Machine.visitNode
  split_ifs <;> rfl

theorem ReplyBlind.writeBits (n v : Nat) : ReplyBlind (writeBits n v) := .update fun _ _ _ => rfl

theorem ReplyBlind.emitCode (sym : Nat) : ReplyBlind (emitCode sym) := .update fun _ _ _ => rfl

theorem ReplyBlind.fcStepBody : ReplyBlind fcStepBody := by
  refine .bind (.readBits 8) fun o => ?_
  cases o with
  | none => exact .bind (.update fun _ _ _ => rfl) fun _ => .pure _
  | some b =>
    exact .getState_bind (fun _ _ _ => rfl) fun _ => .ite (.raise _)
      (.bind (.update fun _ _ _ => rfl) fun _ => .pure _)

theorem ReplyBlind.encStepBody : ReplyBlind encStepBody := by
  refine .bind (.readBits 8) fun o => ?_
  cases o with
  | none => exact .bind (.emitCode _) fun _ => .bind (.update fun _ _ _ => rfl) fun _ => .pure _
  | some b =>
    exact .getState_bind (fun _ _ _ => rfl) fun _ => .ite (.bind (.emitCode _) fun _ => .pure _) (.raise _)

theorem ReplyBlind.walk (fuel : Nat) : ReplyBlind (walk fuel) := by
  induction fuel with
  | zero => exact .stuck _
  | succ fuel ih =>
    refine .getState_bind (fun _ _ _ => rfl) fun _ => .bind (.visitNode _) fun _ => .ite (.pure _)
      (.bind (.readBits 1) fun o => ?_)
    cases o with
    | none => exact .raise _
    | some r => exact .bind (.update fun _ _ _ => rfl) fun _ => ih

theorem ReplyBlind.decStepBody : ReplyBlind decStepBody :=
  .getState_bind (fun _ _ _ => rfl) fun _ => .bind (.walk _) fun _ => .ite
    (.bind (.update fun _ _ _ => rfl) fun _ => .pure _)
    (.bind (.writeBits _ _) fun _ => .bind (.update fun _ _ _ => rfl) fun _ => .pure _)

/-! ### Repeating a step form -/

/-- A command whose pseudocode does not read the latest response does the same whatever that response was. -/
theorem exec_respond (hb : ReplyBlind (bodyOf i)) (st : Status) (v : Value) (s : State) :
    exec i (respond st v s) = exec i s := by
  have ho : operandsLegal i (respond st v s) = operandsLegal i s := by cases i <;> rfl
  have hc : conclude i.opcode (bodyOf i (respond st v s)) = conclude i.opcode (bodyOf i s) := by
    rw [hb st v s]
    rcases bodyOf i s with ⟨w, u⟩ | ⟨e | f, u⟩ <;> rfl
  rw [exec_eq_command, exec_eq_command, command, command, ho, hc]
  rfl

theorem repeatStep_respond {p : Phase} (hb : ReplyBlind (bodyOf i)) (st : Status) (v : Value) (k : Nat) (s : State) :
    repeatStep i p (k + 1) (respond st v s) = repeatStep i p (k + 1) s := by
  rw [repeatStep, repeatStep, exec_respond hb]

/-- A step that leaves the phase is the last. -/
theorem repeatStep_last {p : Phase} (h : exec i s = .next t) (ht : t.phase ≠ p) : repeatStep i p 1 s = .next t := by
  simp only [repeatStep, h, if_neg ht]

/-- After a step that keeps the phase the others follow. -/
theorem repeatStep_succ {p : Phase} (h : exec i s = .next t) (ht : t.phase = p) (k : Nat) :
    repeatStep i p (k + 1) s = repeatStep i p k t := by
  simp only [repeatStep, h, if_pos ht]

/-! ### How a pseudocode ends -/

/-- The same end of a pseudocode, with another answer. -/
def withValue (v : β) : EStateM.Result Stop State α → EStateM.Result Stop State β
  | .ok _ u => .ok v u
  | .error e u => .error e u

theorem Answers.not_stuck {c : Cmd α} {Q : α → State → Prop} {E : Error → Prop} (h : Answers c s Q E) (f : Fault)
    (u : State) : c s ≠ .error (.stuck f) u := by
  obtain ⟨a, t, h, -⟩ | ⟨e, t, h, -⟩ := h <;> simp [h]

/-- A sequence that comes to an end has a first part that does. -/
theorem Answers.first {x : Cmd α} {f : α → Cmd β} {Q : β → State → Prop} {E : Error → Prop}
    (h : Answers (x >>= f) s Q E) : Answers x s (fun _ _ => True) fun _ => True := by
  obtain ⟨b, t, h, -⟩ | ⟨e, t, h, -⟩ := h
  · obtain ⟨a, u, hx, -⟩ := bind_eq_ok.mp h
    exact .ok hx trivial
  · obtain hx | ⟨a, u, hx, -⟩ := bind_eq_error.mp h
    · exact .raises hx trivial
    · exact .ok hx trivial

/-! ### A pass and its two forms -/

/-- In a pass, from phase `p` to phase `q`, the pseudocode `c` is one round: `stepForm` does one, and `runForm` is a
command of the same phase. -/
structure Pass (runForm stepForm : Instr) (p q : Phase) (c : Cmd Nat) : Prop where
  run_job : runsInError runForm = false
  run_legal : legalIn runForm p = true
  step_job : runsInError stepForm = false
  step_legal : legalIn stepForm p = true
  step_body : bodyOf stepForm = c >>= fun v => pure (BitVec.ofNat 64 v)
  blind : ReplyBlind c
  round_phase : ∀ s v u, c s = .ok v u → u.phase = s.phase ∨ u.phase = q
  leaves : q ≠ p
  end_ne_error : q ≠ .error

theorem fcPass : Pass .fcRun .fcStep .counting .counted fcStepBody :=
  ⟨rfl, rfl, rfl, rfl, rfl, .fcStepBody, fun _ _ _ => fcStepBody_phase, nofun, nofun⟩

theorem encPass : Pass .encRun .encStep .encoding .encDone encStepBody :=
  ⟨rfl, rfl, rfl, rfl, rfl, .encStepBody, fun _ _ _ => encStepBody_phase, nofun, nofun⟩

theorem decPass : Pass .decRun .decStep .decoding .decDone decStepBody :=
  ⟨rfl, rfl, rfl, rfl, rfl, .decStepBody, fun _ _ _ => decStepBody_phase, nofun, nofun⟩

namespace Pass

variable {runForm stepForm : Instr} {p q : Phase} {c : Cmd Nat}

theorem ne_error (h : Pass runForm stepForm p q c) : p ≠ .error := ne_error_of_legal_job h.step_job h.step_legal

theorem step_blind (h : Pass runForm stepForm p q c) : ReplyBlind (bodyOf stepForm) := by
  rw [h.step_body]
  exact .bind h.blind fun _ => .pure _

/-- The step form where a round comes to its end. -/
theorem step_runs (h : Pass runForm stepForm p q c) {v : Nat} (hp : s.phase = p) (hc : c s = .ok v t) :
    exec stepForm s = .next (respond 0 (BitVec.ofNat 64 v) t) :=
  exec_job_runs h.step_job (hp ▸ h.step_legal) (by rw [h.step_body, bind_ok hc]; rfl)

/-- The step form where a round raises. -/
theorem step_raises (h : Pass runForm stepForm p q c) {e : Error} (hp : s.phase = p)
    (hc : c s = .error (.raised e) t) : exec stepForm s = .next (enterError stepForm.opcode e t) :=
  exec_job_raises h.step_job (hp ▸ h.step_legal) (by rw [h.step_body, bind_error hc])

/-- Where the loop of the run form comes to an end, the step form repeated from the same state answers for what the loop
leaves. -/
theorem repeatStep_eq_conclude (h : Pass runForm stepForm p q c) (fuel n : Nat) (hp : s.phase = p)
    (hend : ∀ f u, runWhile p c fuel n s ≠ .error (.stuck f) u) :
    ∃ k v, repeatStep stepForm p (k + 1) s = conclude stepForm.opcode (withValue v (runWhile p c fuel n s)) := by
  induction fuel generalizing s n with
  | zero => exact absurd (by rw [runWhile, getState_bind, if_pos hp, stuck_run]) (hend .endlessLoop s)
  | succ fuel ih =>
    match hc : c s with
    | .ok w t =>
      have hstep := h.step_runs hp hc
      rw [runWhile_round hp hc] at hend ⊢
      by_cases ht : t.phase = p
      · obtain ⟨k, v, hk⟩ := ih _ ht hend
        exact ⟨k + 1, v, by rw [repeatStep_succ hstep ht, repeatStep_respond h.step_blind, hk]⟩
      · exact ⟨0, _, by rw [runWhile_done ht]; exact repeatStep_last hstep ht⟩
    | .error (.raised e) t =>
      exact ⟨0, 0, by rw [runWhile_stop hp hc]; exact repeatStep_last (h.step_raises hp hc) h.ne_error.symm⟩
    | .error (.stuck f) t => exact absurd (runWhile_stop hp hc) (hend f t)

/-- The run form whose pseudocode is the loop, and a last line that only answers, has the effect of the step form
repeated, but for the response and the opcode that an error records. -/
theorem run_repeats_step (h : Pass runForm stepForm p q c) {fuel : Nat} {f : Nat → State → Value} (hp : s.phase = p)
    (hrun : bodyOf runForm s = (runWhile p c fuel 0 >>= fun n => getState >>= fun u => pure (f n u)) s)
    (hend : Answers (runWhile p c fuel 0) s (fun _ _ => True) fun _ => True) :
    ∃ n t v, repeatStep stepForm p n s = .next t ∧ t.phase ≠ p ∧
      exec runForm s = .next { t with
        errcmd := if t.phase = .error then runForm.opcode else t.errcmd,
        reply := .response (if t.phase = .error then t.errcode else 0) v } := by
  have hl : legalIn runForm s.phase = true := hp ▸ h.run_legal
  obtain ⟨k, v, hk⟩ := h.repeatStep_eq_conclude fuel 0 hp hend.not_stuck
  obtain ⟨m, u, hloop, -⟩ | ⟨e, u, hloop, -⟩ := hend <;> rw [hloop] at hk
  · have hu : u.phase = q := runWhile_phase h.round_phase hloop (.inl hp)
    have hne : (respond okStatus v u).phase ≠ .error := hu ▸ h.end_ne_error
    refine ⟨k + 1, _, f m u, hk, hu ▸ h.leaves, ?_⟩
    rw [if_neg hne, if_neg hne]
    exact exec_job_runs (u := u) h.run_job hl (hrun.trans (bind_ok hloop))
  · exact ⟨k + 1, _, 0, hk, h.ne_error.symm, exec_job_raises (u := u) h.run_job hl (hrun.trans (bind_error hloop))⟩

end Pass

theorem betweenSymbols_of_trieInv (h : s.TrieInv) (hp : s.phase = .decoding) : BetweenSymbols s.out s := by
  obtain ⟨hcur, trie, hh, hr, -⟩ := h.parsed hp
  exact ⟨h.input_le, hcur, ⟨trie, hh, hr⟩, [], by simp⟩

/-- Settles O47: the loop of each run form ends within its bound, and its rounds are the step form. -/
theorem runFormsRepeatTheirStepForms : Obligations.RunFormsRepeatTheirStepForms := by
  intro pass hpass s h hp
  simp only [List.mem_cons, List.not_mem_nil, or_false] at hpass
  obtain rfl | rfl | rfl := hpass
  · exact fcPass.run_repeats_step (f := fun n _ => BitVec.ofNat 64 n) hp rfl
      (.bytePass (q := .counted) nofun (fun _ => fcStepBody_answers) hp h.input_le)
  · exact encPass.run_repeats_step (f := fun _ u => BitVec.ofNat 64 (u.out.length - s.out.length)) hp rfl
      (.bytePass (q := .encDone) nofun (fun _ => encStepBody_answers) hp h.input_le)
  · have hend : Answers decRunBody s _ _ := decRunBody_answers hp (betweenSymbols_of_trieInv h hp)
    exact decPass.run_repeats_step (f := fun n _ => BitVec.ofNat 64 n) hp rfl
      (Answers.first (f := fun n => pure (BitVec.ofNat 64 n)) hend)

end Sys2Proof.Machine
end

section
/-! PROOFS. The trie builder (41_trie_builder.md rules R110, R111), and the properties of every trie it builds (rule
R112). -/

namespace Sys2Proof.Machine

variable {s u : State}

/-! ### TB_BUILD -/

/-- The arena TB_BUILD leaves for the counts of `s` (rules R110, R111): the leaves of the used symbols in order, the
merges, nothing above them, and the last entry alone in the queue. -/
structure BuiltArena (s u : State) : Prop where
  leaf : ∀ j (h : j < s.usedSymbols.length),
    u.node.read Node.zero j = leafOf (s.usedSymbols[j], s.freqAt s.usedSymbols[j])
  merge : ∀ j, s.usedSymbols.length ≤ j → j < 2 * s.usedSymbols.length - 1 → u.mergesLeastTwo j
  above : ∀ j, 2 * s.usedSymbols.length - 1 ≤ j → u.node.read Node.zero j = Node.zero
  queue : ∀ i, u.inQueueAt (2 * s.usedSymbols.length - 1) i → i = 2 * s.usedSymbols.length - 2

/-- TB_BUILD's pseudocode on at least one used symbol: the arena it leaves, and everything else. -/
theorem tbBuildBody_arena (hu : s.usedSymbols ≠ []) :
    ∃ u, tbBuildBody s = .ok (BitVec.ofNat 64 (2 * s.usedSymbols.length - 2)) u ∧
      u = { s with
        node := u.node, nodeCount := BitVec.ofNat 10 (2 * s.usedSymbols.length - 1),
        root := BitVec.ofNat 10 (2 * s.usedSymbols.length - 2), rootValid := true, phase := .built } ∧
      BuiltArena s u := by
  have hk := usedSymbols_length s
  obtain ⟨r, t, -, hmerging, hframe, hr, hkept, hmerges, hrun⟩ := tbBuildBody_total hu
  have hcount : t.nodeCount.toNat = 2 * s.usedSymbols.length - 1 := by
    rw [hframe, BitVec.toNat_ofNat]; omega
  have hroot : r.toNat = 2 * s.usedSymbols.length - 2 := by rw [hr, BitVec.toNat_ofNat]; omega
  have hvalue : r.setWidth 64 = BitVec.ofNat 64 (2 * s.usedSymbols.length - 2) := by
    apply BitVec.eq_of_toNat_eq
    rw [BitVec.toNat_setWidth, BitVec.toNat_ofNat, hroot]
  rw [hvalue] at hrun
  refine ⟨_, hrun, ?_, fun j h => ?_, hmerges, fun j h => ?_, fun i hi => ?_⟩
  · rw [hframe, hr]; rfl
  · exact (hkept j (.inl h)).trans (withLeaves_read s h)
  · exact (hkept j (.inr h)).trans (withLeaves_read_above s (by omega))
  · obtain ⟨x, hx, hxi⟩ := (hmerging.queue i).mp (hcount.symm ▸ hi)
    rw [List.mem_singleton.mp hx, hroot] at hxi
    exact hxi.symm

/-- Settles O31: the merge loop takes out the two least members of the queue in each of its k − 1 rounds. -/
theorem tbBuildMergesTheLeastTwo : Obligations.TbBuildMergesTheLeastTwo := by
  refine ⟨plainCommand_job (i := .tbBuild) rfl, fun s hp hu => ?_⟩
  obtain ⟨u, hrun, hframe, harena⟩ := tbBuildBody_arena hu
  refine ⟨_, exec_job_runs (i := .tbBuild) rfl (decide_eq_true hp) hrun, ?_, harena.leaf, harena.merge, harena.above⟩
  exact congrArg (respond 0 (BitVec.ofNat 64 (2 * s.usedSymbols.length - 2))) hframe

/-! ### Parents and children -/

/-- Entry `i` is an internal node and entry `j` one of its children (rule R112 item 4). -/
def State.isParent (s : State) (i j : Index) : Prop :=
  (s.nodeAt i).leaf = false ∧ ((s.nodeAt i).left = j ∨ (s.nodeAt i).right = j)

/-- The children of a merge are two different members of its queue. -/
theorem children_of_mergesLeastTwo {i : Index} (h : s.mergesLeastTwo i.toNat) :
    s.inQueueAt i.toNat (s.nodeAt i).left.toNat ∧ s.inQueueAt i.toNat (s.nodeAt i).right.toNat ∧
      (s.nodeAt i).left ≠ (s.nodeAt i).right := by
  obtain ⟨l, r, hread, hl, -, hr, hne, -⟩ := h
  rw [State.nodeAt, hread]
  exact ⟨hl, hr, hne⟩

/-- A member of the queue has no parent yet. -/
theorem not_isParent_of_inQueueAt {n : Nat} {i j : Index} (h : s.inQueueAt n j.toNat) (hi : i.toNat < n) :
    ¬ s.isParent i j := by
  rintro ⟨hleaf, hchild⟩
  obtain ⟨hl, hr⟩ := h.2 i.toNat hi hleaf
  exact hchild.elim (fun e => hl (congrArg BitVec.toNat e)) fun e => hr (congrArg BitVec.toNat e)

/-- An allocated entry that has left the queue has a parent. -/
theorem exists_isParent {n : Nat} {j : Index} (hn : n ≤ Config.nodeCap) (hj : j.toNat < n)
    (h : ¬ s.inQueueAt n j.toNat) : ∃ i : Index, i.toNat < n ∧ s.isParent i j := by
  simp only [State.inQueueAt, hj, true_and, not_forall] at h
  obtain ⟨m, hm, hleaf, hchild⟩ := h
  have hi : (BitVec.ofNat 10 m).toNat = m := by
    simp only [Config.nodeCap] at hn
    rw [BitVec.toNat_ofNat]; omega
  refine ⟨BitVec.ofNat 10 m, hi.symm ▸ hm, ?_⟩
  rw [State.isParent, State.nodeAt, hi]
  refine ⟨hleaf, ?_⟩
  by_contra hno
  rw [not_or] at hno
  exact hchild ⟨fun e => hno.1 (BitVec.eq_of_toNat_eq e), fun e => hno.2 (BitVec.eq_of_toNat_eq e)⟩

/-- Where every internal node is a merge, an entry has at most one parent: the earlier of two would have taken it out of
the queue of the later. -/
theorem isParent_unique {i i' j : Index} (hi : s.mergesLeastTwo i.toNat) (hi' : s.mergesLeastTwo i'.toNat)
    (h : s.isParent i j) (h' : s.isParent i' j) : i = i' := by
  have hqueue : ∀ {m : Index}, s.mergesLeastTwo m.toNat → s.isParent m j → s.inQueueAt m.toNat j.toNat := by
    rintro m hm ⟨-, rfl | rfl⟩
    · exact (children_of_mergesLeastTwo hm).1
    · exact (children_of_mergesLeastTwo hm).2.1
  apply BitVec.eq_of_toNat_eq
  rcases Nat.lt_trichotomy i.toNat i'.toNat with hlt | heq | hgt
  · exact absurd h (not_isParent_of_inQueueAt (hqueue hi' h') hlt)
  · exact heq
  · exact absurd h' (not_isParent_of_inQueueAt (hqueue hi h) hgt)

/-- Every internal node of the arena TB_BUILD leaves is a merge. -/
theorem BuiltArena.mergesLeastTwo (h : BuiltArena s u) {i : Index} (hi : i.toNat < 2 * s.usedSymbols.length - 1)
    (hleaf : (u.nodeAt i).leaf = false) : u.mergesLeastTwo i.toNat := by
  refine h.merge _ (Nat.le_of_not_lt fun hlt => ?_) hi
  rw [State.nodeAt, h.leaf _ hlt] at hleaf
  cases hleaf

/-- Every entry of the arena TB_BUILD leaves but the last has exactly one parent. -/
theorem BuiltArena.existsUnique_isParent (h : BuiltArena s u) {j : Index}
    (hj : j.toNat < 2 * s.usedSymbols.length - 1) (hroot : j.toNat ≠ 2 * s.usedSymbols.length - 2) :
    ∃! i : Index, i.toNat < 2 * s.usedSymbols.length - 1 ∧ u.isParent i j := by
  have hk := usedSymbols_length s
  obtain ⟨i, hi, hparent⟩ := exists_isParent (by simp only [Config.nodeCap]; omega) hj fun hq => hroot (h.queue _ hq)
  refine ⟨i, ⟨hi, hparent⟩, fun i' ⟨hi', hparent'⟩ => ?_⟩
  exact isParent_unique (h.mergesLeastTwo hi' hparent'.1) (h.mergesLeastTwo hi hparent.1) hparent' hparent

/-! ### Rule R112 -/

/-- Settles O32: the trie is the one the merge loop joins, the parents are the merges, and a trie with k leaves is less
than k edges deep. -/
theorem builtTriesHaveRule112 : Obligations.BuiltTriesHaveRule112 := by
  intro s hp hcount
  obtain ⟨h256, htotal⟩ := hcount.counted (by rw [hp]; rfl)
  have hk := usedSymbols_length s
  have hsentinel : 256 ∈ s.usedSymbols := mem_usedSymbols.mpr ⟨le_refl _, by rw [h256]; decide⟩
  obtain ⟨u, hrun, hframe, harena⟩ := tbBuildBody_arena (List.ne_nil_of_mem hsentinel)
  obtain ⟨-, -, trie, hholds, hperm, hweighs, -⟩ := tbBuildBody_builds h256 htotal hrun
  have hnodup : trie.symbols.Nodup := hperm.nodup_iff.mpr (usedSymbols_nodup s)
  have hdepth : trie.depth < s.usedSymbols.length := hperm.length_eq ▸ trie.depth_lt_leaves
  have hn : u.nodeCount.toNat = 2 * s.usedSymbols.length - 1 := by rw [hframe, BitVec.toNat_ofNat]; omega
  have hroot : u.root.toNat = 2 * s.usedSymbols.length - 2 := by rw [hframe, BitVec.toNat_ofNat]; omega
  refine ⟨_, exec_job_runs (i := .tbBuild) rfl (decide_eq_true hp) hrun, trie, (holds_congr (by rfl)).mpr hholds,
    (weighs_congr (by rfl) (by rfl)).mpr hweighs, hperm, hnodup,
    List.count_eq_one_of_mem hnodup (hperm.mem_iff.mpr hsentinel), hdepth, by omega, fun i hi hleaf => ?_, fun j hj hne => ?_⟩
  · obtain ⟨hl, hr, hne⟩ := children_of_mergesLeastTwo (harena.mergesLeastTwo (hn ▸ hi) hleaf)
    exact ⟨hl.1, hr.1, hne⟩
  · have := harena.existsUnique_isParent (hn ▸ hj) fun e => hne (BitVec.eq_of_toNat_eq (e.trans hroot.symm))
    rwa [← hn] at this

end Sys2Proof.Machine
end

section
/-! PROOFS. The code-table generator (42_code_table.md rule R120), and the properties of every code table it writes (rule
R121). -/

namespace Sys2Proof.Machine

variable {s t : State} {trie : Trie} {sym : Nat}

/-! ### CT_GEN -/

/-- The code table is that of the trie (rule R120): each leaf's symbol has its path as its code, the bits above the length
0, and no other symbol has a code. -/
structure CodeTableOf (trie : Trie) (t : State) : Prop where
  recorded : ∀ c ∈ trie.codes, t.codeValidAt c.1 = true ∧ (t.codeLenAt c.1).toNat = c.2.length ∧ t.codeOf c.1 = c.2 ∧
    ∀ k, c.2.length ≤ k → (t.codeBitsAt c.1).getLsbD k = false
  unrecorded : ∀ sym, sym ∉ trie.symbols → t.codeValidAt sym = false ∧ t.codeLenAt sym = 0 ∧ t.codeBitsAt sym = 0

/-- The codes of a trie of symbols, at most 256 edges deep, written into an empty table. -/
theorem codeTableOf_setCodes (hn : trie.symbols.Nodup) (hs : ∀ sym ∈ trie.symbols, sym ≤ 256)
    (hd : trie.depth ≤ 256) : CodeTableOf trie ((clearCodes s).setCodes trie.codes) := by
  refine ⟨fun c hc => ?_, fun sym hsym => ?_⟩
  · have hn' : (trie.codes.map Prod.fst).Nodup := by rwa [Trie.codes_fst]
    have hle := hs c.1 (Trie.mem_symbols_of_mem_codes hc)
    have hlen : c.2.length ≤ 256 := (Trie.code_length_le hc).trans hd
    obtain ⟨hvalid, hlength, hbits⟩ := setCodes_read (s := clearCodes s) hn' hc hle
    refine ⟨hvalid, ?_, setCodes_codeOf hn' hc hle hlen, fun k hk => ?_⟩
    · rw [hlength, BitVec.toNat_ofNat]; omega
    · rw [hbits]; exact packCode_above c.2 hk
  · obtain ⟨hvalid, hlength, hbits⟩ := setCodes_read_other (s := clearCodes s) trie.codes (by rwa [Trie.codes_fst])
    exact ⟨hvalid.trans (RegFile.read_fill _ _), hlength.trans (RegFile.read_fill _ _),
      hbits.trans (RegFile.read_fill _ _)⟩

/-- Settles O33: CT_GEN writes the codes of the trie, each symbol's once, into an empty table. -/
theorem ctGenRecordsEveryPath : Obligations.CtGenRecordsEveryPath := by
  refine ⟨plainCommand_job (i := .ctGen) rfl, fun s trie hp hholds hn hs hd => ?_⟩
  obtain ⟨hrecorded, hunrecorded⟩ := codeTableOf_setCodes (s := s) hn hs hd
  refine ⟨_, exec_job_runs (i := .ctGen) rfl (decide_eq_true hp) (ctGenBody_run hholds), ?_, hrecorded, hunrecorded⟩
  exact congrArg (fun u => respond 0 (BitVec.ofNat 64 trie.symbols.length) { u with phase := .coded })
    (setCodes_frame (clearCodes s) trie.codes)

/-! ### Rule R121 -/

/-- A symbol has a code exactly where a leaf has that symbol. -/
theorem CodeTableOf.valid_iff (h : CodeTableOf trie t) : t.codeValidAt sym = true ↔ sym ∈ trie.symbols := by
  refine ⟨fun hv => by_contra fun hsym => ?_, fun hsym => ?_⟩
  · obtain ⟨hnone, -⟩ := h.unrecorded sym hsym
    rw [hnone] at hv
    cases hv
  · obtain ⟨q, hq⟩ := Trie.exists_code hsym
    obtain ⟨hvalid, -⟩ := h.recorded _ hq
    exact hvalid

/-- A code in the table is the path to a leaf of its symbol. -/
theorem CodeTableOf.codeOf_mem (h : CodeTableOf trie t) (hv : t.codeValidAt sym = true) :
    (sym, t.codeOf sym) ∈ trie.codes := by
  obtain ⟨q, hq⟩ := Trie.exists_code (h.valid_iff.mp hv)
  obtain ⟨-, -, hcode, -⟩ := h.recorded _ hq
  exact hcode.symm ▸ hq

/-- No code in the table begins another (rule R121 item 1): two paths of one trie, one the start of the other, lead to one
leaf. -/
theorem CodeTableOf.not_isPrefix (h : CodeTableOf trie t) {a b : Nat} (hab : a ≠ b) (ha : t.codeValidAt a = true)
    (hb : t.codeValidAt b = true) : ¬ t.codeOf a <+: t.codeOf b := fun hpre =>
  hab (congrArg Prod.fst (Trie.code_prefix (h.codeOf_mem ha) (h.codeOf_mem hb) hpre))

/-- The symbols with a code, in ascending order, are the symbols of the leaves in another order. -/
theorem CodeTableOf.validSymbols_perm (h : CodeTableOf trie t) (hn : trie.symbols.Nodup)
    (hs : ∀ sym ∈ trie.symbols, sym ≤ 256) : ((List.range 257).filter t.codeValidAt).Perm trie.symbols := by
  refine (List.perm_ext_iff_of_nodup (List.nodup_range.filter _) hn).mpr fun sym => ?_
  rw [List.mem_filter, List.mem_range, h.valid_iff]
  exact and_iff_right_of_imp fun hsym => Nat.lt_succ_of_le (hs sym hsym)

/-- Kraft's equality for the table, times 2^256 (rule R121 item 2): that of the trie's paths, summed over the symbols. -/
theorem CodeTableOf.kraft (h : CodeTableOf trie t) (hn : trie.symbols.Nodup) (hs : ∀ sym ∈ trie.symbols, sym ≤ 256)
    (hd : trie.depth ≤ 256) :
    (((List.range 257).filter t.codeValidAt).map fun sym => 2 ^ (256 - (t.codeLenAt sym).toNat)).sum = 2 ^ 256 :=
  calc (((List.range 257).filter t.codeValidAt).map fun sym => 2 ^ (256 - (t.codeLenAt sym).toNat)).sum
    _ = (trie.symbols.map fun sym => 2 ^ (256 - (t.codeLenAt sym).toNat)).sum :=
      ((h.validSymbols_perm hn hs).map _).sum_eq
    _ = (trie.codes.map fun c => 2 ^ (256 - (t.codeLenAt c.1).toNat)).sum := by
      rw [← Trie.codes_fst, List.map_map]; rfl
    _ = (trie.codes.map fun c => 2 ^ (256 - c.2.length)).sum := by
      refine congrArg List.sum (List.map_congr_left fun c hc => ?_)
      obtain ⟨-, hlength, -⟩ := h.recorded c hc
      rw [hlength]
    _ = 2 ^ 256 := Trie.kraft hd

/-- Settles O34: the table is that of the trie at ROOT, which CT_GEN leaves, and the paths of a trie have the three
properties. -/
theorem codeTablesHaveRule121 : Obligations.CodeTablesHaveRule121 := by
  intro s trie hp hholds hn hs hd
  obtain ⟨t, hrun, hframe, hrecorded, hunrecorded⟩ := ctGenRecordsEveryPath.2 s trie hp hholds hn hs hd
  have htable : CodeTableOf trie t := ⟨hrecorded, hunrecorded⟩
  have hroot : t.holds trie t.root := by
    rw [hframe]; exact (holds_congr (by rfl)).mpr hholds
  exact ⟨t, hrun, fun a b => htable.not_isPrefix, htable.kraft hn hs hd,
    fun sym hv => follow_code hroot (htable.codeOf_mem hv)⟩

end Sys2Proof.Machine
end

section
/-! PROOFS. The header codec (43_header_codec.md rules R130, R132, R133). -/

namespace Sys2Proof.Machine

variable {s : State} {trie : Trie}

/-! ### HW_HEADER -/

/-- HW_HEADER's pseudocode on a trie held at ROOT: Write appends its header, and VALUE is what OUT has grown by. -/
theorem hwHeaderBody_run (h : s.holds trie s.root) : hwHeaderBody s = .ok (BitVec.ofNat 64 trie.header.length)
    { s with out := s.out ++ trie.header, phase := .headerOut } := by
  rw [hwHeaderBody, getState_bind, bind_ok (writeTrie_run h (holds_depth h)), update_bind, getState_bind, pure_run,
    List.length_append, Nat.add_sub_cancel_left]

/-- Settles O36: HW_HEADER is Write at ROOT, a trie in the arena being less than 513 edges deep. -/
theorem hwHeaderWritesThePreorder : Obligations.HwHeaderWritesThePreorder :=
  ⟨plainCommand_job (i := .hwHeader) rfl, fun _ _ hp hh =>
    exec_job_runs (i := .hwHeader) rfl (decide_eq_true hp) (hwHeaderBody_run hh)⟩

/-! ### HR_HEADER -/

/-- A trie parsed into an empty arena: its nodes in preorder from entry 0 on, as many as NODE_COUNT says. -/
theorem parsed_clearArena (s : State) (trie : Trie) : (clearArena s).parsed trie = { clearArena s with
    node := (RegFile.fill Config.nodeCap Node.zero).writeFrom 0 (trie.preorder 0),
    nodeCount := BitVec.ofNat 10 trie.size, ipos := s.ipos + BitVec.ofNat 48 trie.header.length } := by
  rw [← BitVec.zero_add (BitVec.ofNat 10 trie.size)]
  rfl

/-- The entries of that arena: the trie's nodes, and the cleared entries above them. -/
theorem parsed_clearArena_cells (s : State) (h : trie.size ≤ Config.nodeCap) :
    ((clearArena s).parsed trie).node.cells =
      trie.preorder 0 ++ List.replicate (Config.nodeCap - trie.size) Node.zero := by
  have hlen := trie.preorder_length 0
  rw [parsed_clearArena, RegFile.cells_writeFrom_fill _ _ (hlen.symm ▸ h), hlen]

/-- Settles O43: HR_HEADER is Parse on an empty arena, and the trie it finds is held at entry 0. -/
theorem hrHeaderRebuildsTheTrie : Obligations.HrHeaderRebuildsTheTrie := by
  refine ⟨plainCommand_job (i := .hrHeader) rfl, fun s trie rest hp hl ⟨hsize, hsym, hroot⟩ hq => ?_⟩
  obtain ⟨hholds, hrun⟩ := hrHeaderBody_run hl hsize hsym hroot hq
  refine ⟨_, exec_job_runs (i := .hrHeader) rfl (decide_eq_true hp) hrun, ?_, parsed_clearArena_cells s hsize,
    (holds_congr (by rfl)).mpr hholds⟩
  rw [parsed_clearArena]
  rfl

end Sys2Proof.Machine
end

section
/-! PROOFS. The body encoder (44_body_encoder.md rules R140 to R142), and the stream that a compression job writes (rule
R143). -/

namespace Sys2Proof.Machine

variable {s t : State} {trie : Trie} {bs : List (BitVec 8)} {rest : Bits} {magic : BitVec 32}

/-! ### ENC_START, ENC_STEP and ENC_RUN -/

/-- Settles O38: the pseudocode is the writes of IPOS and PHASE. -/
theorem encStartRewinds : Obligations.EncStartRewinds :=
  ⟨plainCommand_job (i := .encStart) rfl, fun _ hp => exec_job_runs (i := .encStart) rfl (decide_eq_true hp) rfl⟩

/-- Settles O39: the step of the encoding pass at the end of data, at a byte with a code, and at a byte without one. -/
theorem encStepEncodesOneByte : Obligations.EncStepEncodesOneByte := by
  have hl : ∀ {s : State}, s.phase = .encoding → legalIn .encStep s.phase = true := decide_eq_true
  refine ⟨plainCommand_job (i := .encStep) rfl, fun s hp h => ?_, fun s b hp h hv => ?_, fun s b hp h hv => ?_⟩
  · exact exec_job_runs rfl (hl hp) (bind_ok (encStepBody_eod h))
  · rw [← BitVec.ofNat_toNat]
    exact exec_job_runs rfl (hl hp) (bind_ok (encStepBody_byte (drop_of_take_eight h) hv))
  · exact exec_job_raises (i := .encStep) rfl (hl hp) (bind_error (encStepBody_noCode (drop_of_take_eight h) hv))

/-- The bits that the encoding pass writes for the bytes `bs`: their codes, and the sentinel's (rule R142). -/
def State.bodyFor (s : State) (bs : List (BitVec 8)) : Bits := (bs.flatMap fun b => s.codeOf b.toNat) ++ s.codeOf 256

/-- The bound of a pass over IN is more than the whole bytes left (rule R239). -/
theorem bytes_lt_bound (h : s.input.drop s.ipos.toNat = bs.flatMap msbFirst ++ rest) :
    bs.length < s.unread / 8 + 1 := by
  have hlen := congrArg List.length h
  simp only [List.length_drop, List.length_append, flatMap_msbFirst_length] at hlen
  simp only [State.unread]
  omega

/-- ENC_RUN's pseudocode on whole bytes that all have a code, and a rest: VALUE is what OUT has grown by. -/
theorem encRunBody_run (hp : s.phase = .encoding) (hl : s.input.length ≤ Config.inMaxBits)
    (hq : s.input.drop s.ipos.toNat = bs.flatMap msbFirst ++ rest) (hr : rest.length < 8)
    (hv : ∀ b ∈ bs, s.codeValidAt b.toNat = true) :
    encRunBody s = .ok (BitVec.ofNat 64 (s.bodyFor bs).length) { s with
      ipos := BitVec.ofNat 48 s.input.length, out := s.out ++ s.bodyFor bs, phase := .encDone } := by
  have hloop := encRun_loop bs s rest _ 0 hp hl hq hr hv (bytes_lt_bound hq)
  rw [encRunBody, getState_bind, bind_ok hloop, getState_bind, pure_run, List.length_append, Nat.add_sub_cancel_left]
  rfl

/-- Settles O40: the loop of ENC_RUN, whose bound is one more than the whole bytes left. -/
theorem encRunEncodesTheRest : Obligations.EncRunEncodesTheRest :=
  ⟨plainCommand_job (i := .encRun) rfl, fun _ _ _ hp hl hq hr hv =>
    exec_job_runs (i := .encRun) rfl (decide_eq_true hp) (encRunBody_run hp hl hq hr hv)⟩

/-! ### Several commands in a row -/

/-- A command answered with STATUS 0 at the head of a sequence: the rest follows. -/
theorem execAll_cons {run : Instr → State → Host.Outcome State Fault Refusal} {i : Instr} {is : List Instr}
    (h : run i s = .next t) (ht : t.succeeded = true) : execAll run (i :: is) s = execAll run is t := by
  simp only [execAll, h, ht, if_true]

/-- The same for a command that does not look at MAGIC. -/
theorem execAll_execWith_cons {i : Instr} {is : List Instr} (hw : i ≠ .hwMagic) (hr : i ≠ .hrMagic)
    (h : exec i s = .next t) (ht : t.succeeded = true) :
    execAll (execWith magic) (i :: is) s = execAll (execWith magic) is t :=
  execAll_cons ((execWith_other hw hr magic s).trans h) ht

/-! ### The counts of a job -/

/-- The counts are those of the bytes `bs` and of one sentinel (rules R101, R102). -/
structure CountsOf (bs : List (BitVec 8)) (t : State) : Prop where
  byte : ∀ b : BitVec 8, (t.freqAt b.toNat).toNat = bs.count b
  sentinel : (t.freqAt 256).toNat = 1

/-- A sum over the bytes is a sum over the byte values, each as often as it is counted. -/
theorem CountsOf.sum_bytes (h : CountsOf bs t) (f : Nat → Nat) :
    ((List.range 256).map fun b => (t.freqAt b).toNat * f b).sum = (bs.map fun b => f b.toNat).sum := by
  have hcount : ∀ n ∈ Finset.range 256, (bs.map BitVec.toNat).count n = (t.freqAt n).toNat := fun n hn => by
    have hn' : (BitVec.ofNat 8 n).toNat = n := Nat.mod_eq_of_lt (Finset.mem_range.mp hn)
    have hinj : Function.Injective (BitVec.toNat (w := 8)) := fun _ _ => BitVec.eq_of_toNat_eq
    rw [← hn', List.count_map_of_injective _ _ hinj, h.byte]
  have hsub : (bs.map BitVec.toNat).toFinset ⊆ Finset.range 256 := fun n hn => by
    obtain ⟨b, -, rfl⟩ := List.mem_map.mp (List.mem_toFinset.mp hn)
    exact Finset.mem_range.mpr b.isLt
  calc ((List.range 256).map fun b => (t.freqAt b).toNat * f b).sum
    _ = ∑ n ∈ Finset.range 256, (t.freqAt n).toNat * f n := rfl
    _ = ∑ n ∈ Finset.range 256, (bs.map BitVec.toNat).count n • f n :=
      Finset.sum_congr rfl fun n hn => by rw [hcount n hn, smul_eq_mul]
    _ = ∑ n ∈ (bs.map BitVec.toNat).toFinset, (bs.map BitVec.toNat).count n • f n :=
      (Finset.sum_subset hsub fun n _ hn => by
        rw [List.count_eq_zero_of_not_mem (mt List.mem_toFinset.mpr hn), zero_smul]).symm
    _ = ((bs.map BitVec.toNat).map f).sum := (Finset.sum_list_map_count _ f).symm
    _ = (bs.map fun b => f b.toNat).sum := by rw [List.map_map]; rfl

/-- There are as many counted bytes as bytes. -/
theorem CountsOf.byteTotal_eq (h : CountsOf bs t) : t.byteTotal = bs.length := by
  simpa [State.byteTotal] using h.sum_bytes fun _ => 1

theorem CountsOf.mem_usedSymbols_byte (h : CountsOf bs t) {b : BitVec 8} (hb : b ∈ bs) :
    b.toNat ∈ t.usedSymbols := by
  have hlt := b.isLt
  exact mem_usedSymbols.mpr ⟨by simp only [Config.sentinel]; omega, by rw [h.byte]; exact List.count_pos_iff.mpr hb⟩

theorem CountsOf.mem_usedSymbols_sentinel (h : CountsOf bs t) : 256 ∈ t.usedSymbols :=
  mem_usedSymbols.mpr ⟨le_refl _, by rw [h.sentinel]; decide⟩

/-- A count from 0 on that stays below 2^32. -/
theorem zero_add_count_toNat {n : Nat} (h : n ≤ 2 ^ 32 - 1) : ((0 : Count) + BitVec.ofNat 32 n).toNat = n := by
  rw [zero_add, BitVec.toNat_ofNat]
  omega

/-- The most bytes a job takes, and a rest of fewer than 8 bits, are within IN_MAX_BITS (rule R8). -/
theorem input_le_of_bytes (hin : s.input = bs.flatMap msbFirst ++ rest) (hr : rest.length < 8)
    (hlen : bs.length ≤ 2 ^ 32 - 1) : s.input.length ≤ Config.inMaxBits := by
  rw [hin, List.length_append, flatMap_msbFirst_length]
  simp only [Config.inMaxBits]
  omega

/-- FC_START and FC_RUN count the bytes of IN. -/
theorem counting_run (hp : s.phase ∈ [.idle, .encDone, .decDone]) (hin : s.input = bs.flatMap msbFirst ++ rest)
    (hr : rest.length < 8) (hlen : bs.length ≤ 2 ^ 32 - 1) (is : List Instr) :
    ∃ t, execAll (execWith magic) (.fcStart :: .fcRun :: is) s = execAll (execWith magic) is t ∧
      t.phase = .counted ∧ t.input = s.input ∧ t.out = [] ∧ t.len.toNat = bs.length ∧ CountsOf bs t := by
  have hstart := fcStartOpensAJob.2 s hp
  have hmax := input_le_of_bytes hin hr hlen
  obtain ⟨t, hrun, hframe, hbyte, hsentinel⟩ := fcRunCountsTheRest.2 { State.reset with
    phase := .counting, input := s.input, pending := s.pending, reply := .response 0 0 } bs rest rfl hmax hin hr
    ((Nat.zero_add _).trans_le hlen)
  refine ⟨t, ?_, by rw [hframe], by rw [hframe], by rw [hframe]; rfl, ?_, fun b => ?_, by rw [hsentinel]; rfl⟩
  · rw [execAll_execWith_cons (i := .fcStart) nofun nofun hstart rfl,
      execAll_execWith_cons (i := .fcRun) nofun nofun hrun (by rw [hframe]; rfl)]
  · rw [hframe]
    exact zero_add_count_toNat hlen
  · have hzero : State.reset.freqAt b.toNat = 0 := RegFile.read_fill 0 b.toNat
    rw [hbyte b]
    change (State.reset.freqAt b.toNat + _).toNat = _
    rw [hzero]
    exact zero_add_count_toNat (List.count_le_length.trans hlen)

/-! ### The trie and the code table of a job -/

/-- What the first half of a compression job on the bytes `bs` leaves for the second (rules R101, R110, R120): their
counts, a trie of the counted symbols at ROOT, and the code table of that trie. -/
structure TablesFor (bs : List (BitVec 8)) (trie : Trie) (t : State) : Prop where
  counts : CountsOf bs t
  holds : t.holds trie t.root
  symbols : trie.symbols.Perm t.usedSymbols
  table : CodeTableOf trie t

theorem TablesFor.byte_valid (h : TablesFor bs trie t) {b : BitVec 8} (hb : b ∈ bs) : t.codeValidAt b.toNat = true :=
  h.table.valid_iff.mpr (h.symbols.mem_iff.mpr (h.counts.mem_usedSymbols_byte hb))

theorem TablesFor.sentinel_valid (h : TablesFor bs trie t) : t.codeValidAt 256 = true :=
  h.table.valid_iff.mpr (h.symbols.mem_iff.mpr h.counts.mem_usedSymbols_sentinel)

@[simp] theorem codeOf_length (s : State) (sym : Nat) : (s.codeOf sym).length = (s.codeLenAt sym).toNat := by
  simp [State.codeOf]

/-- The length of the body is the sum of each symbol's count times the length of its code (rule R143). -/
theorem CountsOf.bodyFor_length (h : CountsOf bs t) : (t.bodyFor bs).length =
    ((List.range 257).map fun sym => (t.freqAt sym).toNat * (t.codeLenAt sym).toNat).sum := by
  rw [List.range_succ, List.map_append, List.sum_append, h.sum_bytes fun sym => (t.codeLenAt sym).toNat]
  simp [State.bodyFor, List.length_flatMap, h.sentinel]

/-- TB_BUILD and CT_GEN, on the counts of the bytes `bs`. -/
theorem tables_run (hp : s.phase = .counted) (hlen : s.len.toNat = bs.length) (hc : CountsOf bs s)
    (is : List Instr) :
    ∃ t trie, execAll (execWith magic) (.tbBuild :: .ctGen :: is) s = execAll (execWith magic) is t ∧
      t.phase = .coded ∧ t.input = s.input ∧ t.out = s.out ∧ TablesFor bs trie t := by
  have hinv : s.CountInv :=
    ⟨fun h => absurd (hp.symm.trans h) nofun, fun _ => ⟨hc.sentinel, hc.byteTotal_eq.trans hlen.symm⟩⟩
  obtain ⟨u, hbuild, hbuilt, -⟩ :=
    tbBuildMergesTheLeastTwo.2 s hp (List.ne_nil_of_mem hc.mem_usedSymbols_sentinel)
  obtain ⟨u', hbuild', trie, hholds, -, hperm, hnodup, -, -, hdepth, -⟩ := builtTriesHaveRule112 s hp hinv
  cases hbuild.symm.trans hbuild'
  have hsym : ∀ sym ∈ trie.symbols, sym ≤ 256 := fun sym h => (mem_usedSymbols.mp (hperm.mem_iff.mp h)).1
  obtain ⟨t, hgen, hcoded, hrecorded, hunrecorded⟩ :=
    ctGenRecordsEveryPath.2 u trie (by rw [hbuilt]) hholds hnodup hsym hdepth
  have hfreq : t.freq = s.freq := by rw [hcoded, hbuilt]
  have hfreqAt : t.freqAt = s.freqAt := funext fun sym => congrArg (RegFile.read · 0 sym) hfreq
  refine ⟨t, trie, ?_, by rw [hcoded], by rw [hcoded, hbuilt], by rw [hcoded, hbuilt], ?_, ?_, ?_,
    ⟨hrecorded, hunrecorded⟩⟩
  · rw [execAll_execWith_cons (i := .tbBuild) nofun nofun hbuild (by rw [hbuilt]; rfl),
      execAll_execWith_cons (i := .ctGen) nofun nofun hgen (by rw [hcoded]; rfl)]
  · exact ⟨fun b => by rw [hfreqAt]; exact hc.byte b, by rw [hfreqAt]; exact hc.sentinel⟩
  · rw [hcoded]; exact (holds_congr (by rfl)).mpr hholds
  · rwa [State.usedSymbols, hfreqAt]

/-! ### The stream of a job -/

/-- HW_MAGIC's pseudocode, for any MAGIC. -/
theorem hwMagicBody_run (magic : BitVec 32) (s : State) : hwMagicBody magic s =
    .ok (magic.setWidth 64) { s with out := s.out ++ msbFirst magic, phase := .magicOut } := by
  rw [hwMagicBody, writeBits_bind, bitsOfNat_toNat]; rfl

/-- The stream that a compression job writes behind what stands in OUT: the magic field, the header and the body. -/
def State.streamFor (s : State) (magic : BitVec 32) (trie : Trie) (bs : List (BitVec 8)) : Bits :=
  msbFirst magic ++ (trie.header ++ s.bodyFor bs)

/-- The four commands that write the stream, where the tables of a job on the bytes of IN are ready. -/
theorem stream_run (hp : s.phase = .coded) (h : TablesFor bs trie s) (hl : s.input.length ≤ Config.inMaxBits)
    (hin : s.input = bs.flatMap msbFirst ++ rest) (hr : rest.length < 8) :
    execAll (execWith magic) [.hwMagic, .hwHeader, .encStart, .encRun] s = .next { s with
      ipos := BitVec.ofNat 48 s.input.length, out := s.out ++ s.streamFor magic trie bs, phase := .encDone,
      reply := .response 0 (BitVec.ofNat 64 (s.bodyFor bs).length) } := by
  have hmagic := execWith_runs (magic := magic) (i := .hwMagic) (hwMagicBody_run magic s) rfl (by simp [hp])
    (by rw [hp]; rfl)
  have hout : s.out ++ s.streamFor magic trie bs = s.out ++ msbFirst magic ++ trie.header ++ s.bodyFor bs := by
    simp only [State.streamFor, List.append_assoc]
  rw [hout]
  refine Eq.trans (execAll_cons hmagic rfl) ?_
  refine Eq.trans (execAll_execWith_cons (i := .hwHeader) nofun nofun
    (hwHeaderWritesThePreorder.2 _ trie rfl ((holds_congr (by rfl)).mpr h.holds)) rfl) ?_
  refine Eq.trans (execAll_execWith_cons (i := .encStart) nofun nofun (encStartRewinds.2 _ rfl) rfl) ?_
  exact execAll_execWith_cons (i := .encRun) nofun nofun
    (encRunEncodesTheRest.2 _ bs rest rfl hl hin hr fun b hb => h.byte_valid hb) rfl

/-- The tables of a job stand in FREQ, NODE, ROOT and the code table: what the stream writers write leaves them. -/
theorem TablesFor.with_stream (h : TablesFor bs trie s) (p : Position) (q : Bits) (ph : Phase) (r : HostReply) :
    TablesFor bs trie { s with ipos := p, out := q, phase := ph, reply := r } where
  counts := ⟨h.counts.byte, h.counts.sentinel⟩
  holds := (holds_congr (by rfl)).mpr h.holds
  symbols := h.symbols
  table := ⟨h.table.recorded, h.table.unrecorded⟩

/-- COMPRESS on whole bytes and a rest of fewer than 8 bits: every command is answered with STATUS 0, and OUT is the
stream of the tables that the job leaves. -/
theorem compress_run (magic : BitVec 32) (hp : s.phase ∈ [.idle, .encDone, .decDone])
    (hin : s.input = bs.flatMap msbFirst ++ rest) (hr : rest.length < 8) (hlen : bs.length ≤ 2 ^ 32 - 1) :
    ∃ t trie, execAll (execWith magic) compressCommands s = .next t ∧ t.succeeded = true ∧ t.phase = .encDone ∧
      t.out = t.streamFor magic trie bs ∧ TablesFor bs trie t := by
  obtain ⟨u, hcount, hpu, hiu, hou, hlu, hcu⟩ :=
    counting_run (magic := magic) hp hin hr hlen [.tbBuild, .ctGen, .hwMagic, .hwHeader, .encStart, .encRun]
  obtain ⟨w, trie, htables, hpw, hiw, how, hw⟩ :=
    tables_run (magic := magic) hpu hlu hcu [.hwMagic, .hwHeader, .encStart, .encRun]
  have hinw : w.input = bs.flatMap msbFirst ++ rest := hiw.trans (hiu.trans hin)
  have hstream := stream_run (magic := magic) hpw hw (input_le_of_bytes hinw hr hlen) hinw hr
  refine ⟨_, trie, hcount.trans (htables.trans hstream), rfl, rfl, ?_, hw.with_stream _ _ _ _⟩
  rw [how, hou]
  rfl

/-- Settles O48: the stream of COMPRESS, the codes in it being the trie's, and its length part by part. -/
theorem compressWritesTheStream : Obligations.CompressWritesTheStream := by
  intro magic s bs rest hp hin hr hlen
  obtain ⟨t, trie, hrun, hok, hphase, hout, h⟩ := compress_run magic hp hin hr hlen
  refine ⟨t, trie, hrun, hok, hphase, h.holds, hout, fun b hb => h.table.codeOf_mem (h.byte_valid hb),
    h.table.codeOf_mem h.sentinel_valid, ?_⟩
  rw [hout, State.streamFor, List.length_append, List.length_append, msbFirst_length, headerLength,
    h.counts.bodyFor_length, Nat.add_assoc]

end Sys2Proof.Machine
end

section
/-! PROOFS. The body decoder (45_body_decoder.md rules R150, R151), and the round trip of a stream (rule R152). -/

namespace Sys2Proof.Machine

variable {s t : State} {trie : Trie} {bs : List (BitVec 8)} {cs : List (Nat × Bits)} {q rest : Bits}
  {magic : BitVec 32}

/-! ### DEC_STEP -/

/-- Settles O45: the step of the decoding pass along a symbol's code, along the sentinel's, and where IN ends inside a
code. -/
theorem decStepRecoversOneSymbol : Obligations.DecStepRecoversOneSymbol := by
  refine ⟨plainCommand_job (i := .decStep) rfl, fun s trie sym q rest hp hl hh hc hq hs => ?_,
    fun s trie q rest hp hl hh hc hq => decPass.step_runs hp (decStepBody_sentinel hl hh hc hq),
    fun s trie sym q more hp hl hh hc hm hq => decPass.step_raises hp (decStepBody_truncated hl hh hc hm hq)⟩
  rw [← bitsOfNat_eight]
  exact decPass.step_runs hp (decStepBody_symbol hl hh hc hq hs)

/-! ### DEC_RUN -/

/-- A trie with a leaf of the sentinel is one that rule R133 accepts at the root. -/
theorem rootIsSentinelOrInternal_of_mem (h : Config.sentinel ∈ trie.symbols) :
    trie.rootIsSentinelOrInternal = true := by
  cases trie with
  | leaf sym => exact decide_eq_true (List.mem_singleton.mp h).symm
  | node l r => rfl

/-- Where the sentinel has a code, each other symbol takes one bit or more of a body. -/
theorem length_le_codes_length (hr : (256, q) ∈ trie.codes) (hcs : ∀ c ∈ cs, c ∈ trie.codes ∧ c.1 ≠ 256) :
    cs.length ≤ (cs.flatMap fun c => c.2).length := by
  have hroot := rootIsSentinelOrInternal_of_mem (Trie.mem_symbols_of_mem_codes hr)
  have hpos : ∀ n ∈ cs.map fun c => c.2.length, 1 ≤ n := fun n hn => by
    obtain ⟨c, hc, rfl⟩ := List.mem_map.mp hn
    exact code_length_pos hroot (hcs c hc).1 (hcs c hc).2
  simpa [List.length_flatMap] using List.length_le_sum_of_one_le _ hpos

/-- DEC_RUN's pseudocode on the codes of symbols and the sentinel's: its bound is more than the symbols in the bits
left. -/
theorem decRunBody_run (hp : s.phase = .decoding) (hl : s.input.length ≤ Config.inMaxBits) (hcur : s.cursor = s.root)
    (hh : s.holds trie s.root) (hcs : ∀ c ∈ cs, c ∈ trie.codes ∧ c.1 ≠ 256) (hr : (256, q) ∈ trie.codes)
    (hq : s.input.drop s.ipos.toNat = (cs.flatMap fun c => c.2) ++ (q ++ rest)) :
    decRunBody s = .ok (BitVec.ofNat 64 cs.length) { s with
      ipos := s.ipos + BitVec.ofNat 48 ((cs.flatMap fun c => c.2) ++ q).length,
      out := s.out ++ cs.flatMap fun c => msbFirst (BitVec.ofNat 8 c.1), cursor := s.follow s.root q,
      phase := .decDone } := by
  have hfuel : cs.length < s.unread + 2 := by
    have hbits := congrArg List.length hq
    have hcodes := length_le_codes_length hr hcs
    simp only [List.length_drop, List.length_append] at hbits
    simp only [State.unread]
    omega
  rw [decRunBody, getState_bind, bind_ok (decRun_loop trie q hr rest cs hcs s _ 0 hp hl hcur hh hq hfuel), Nat.zero_add,
    pure_run]

/-- Settles O46: the loop of DEC_RUN, whose bound suffices. -/
theorem decRunRecoversTheBody : Obligations.DecRunRecoversTheBody :=
  ⟨plainCommand_job (i := .decRun) rfl, fun _ _ _ _ _ hp hl hcur hh hcs hr hq =>
    exec_job_runs (i := .decRun) rfl (decide_eq_true hp) (decRunBody_run hp hl hcur hh hcs hr hq)⟩

/-! ### Decompression of a stream -/

/-- HR_MAGIC's pseudocode on the magic field, for any MAGIC. -/
theorem hrMagicBody_run (h : s.input.drop s.ipos.toNat = msbFirst magic ++ rest) :
    hrMagicBody magic s = .ok (magic.setWidth 64) { s with ipos := s.ipos + 32, phase := .dmMagicOk } := by
  rw [hrMagicBody, bind_ok (readBits_prefix (msbFirst_length magic) (by decide) h), natOfBits_msbFirst]
  simp

/-- DM_START and HR_MAGIC on a stream that begins with the magic field: HR_HEADER goes on behind it. -/
theorem magic_run (hp : s.phase ∈ [.idle, .encDone, .decDone]) (hl : s.input.length ≤ Config.inMaxBits)
    (hin : s.input = msbFirst magic ++ rest) (is : List Instr) :
    ∃ t, execAll (execWith magic) (.dmStart :: .hrMagic :: is) s = execAll (execWith magic) is t ∧
      t.phase = .dmMagicOk ∧ t.input = s.input ∧ t.out = [] ∧ t.input.drop t.ipos.toNat = rest := by
  have hstart : exec .dmStart s = .next (respond 0 0 { resetState s with phase := .dmReady }) :=
    exec_job_runs (i := .dmStart) rfl ((legalIn_iff_mem .dmStart s.phase).mpr hp) rfl
  have hmagic := execWith_runs (i := .hrMagic)
    (hrMagicBody_run (s := respond 0 0 { resetState s with phase := .dmReady }) hin) rfl nofun rfl
  exact ⟨_, (execAll_execWith_cons (i := .dmStart) nofun nofun hstart rfl).trans (execAll_cons hmagic rfl),
    rfl, rfl, rfl, (drop_after (s := resetState s) (msbFirst_length magic) hl hin (by decide)).2⟩

/-- DECOMPRESS on a magic field, the header of an accepted trie, the codes of symbols in it and the sentinel's code:
every command is answered with STATUS 0, and OUT is the symbols' bytes. -/
theorem decompress_run (hp : s.phase ∈ [.idle, .encDone, .decDone]) (hl : s.input.length ≤ Config.inMaxBits)
    (ha : acceptedTrie trie) (hcs : ∀ c ∈ cs, c ∈ trie.codes ∧ c.1 ≠ 256) (hr : (256, q) ∈ trie.codes)
    (hin : s.input = msbFirst magic ++ (trie.header ++ ((cs.flatMap fun c => c.2) ++ (q ++ rest)))) :
    ∃ u, execAll (execWith magic) decompressCommands s = .next u ∧ u.succeeded = true ∧ u.phase = .decDone ∧
      u.out = cs.flatMap fun c => msbFirst (BitVec.ofNat 8 c.1) := by
  obtain ⟨t, hmagic, hpt, hit, hot, hqt⟩ := magic_run hp hl hin [.hrHeader, .decRun]
  have hlt : t.input.length ≤ Config.inMaxBits := hit ▸ hl
  obtain ⟨u, hheader, hu, -, hholds⟩ := hrHeaderRebuildsTheTrie.2 t trie _ hpt hlt ha hqt
  have hqu : u.input.drop u.ipos.toNat = (cs.flatMap fun c => c.2) ++ (q ++ rest) := by
    rw [hu]
    exact (drop_after rfl hlt hqt trie.header_length_pos).2
  have hrun := decRunRecoversTheBody.2 u trie cs q rest (by rw [hu]) (by rw [hu]; exact hlt) (by rw [hu]) hholds hcs hr
    hqu
  refine ⟨_, hmagic.trans ((execAll_execWith_cons (i := .hrHeader) nofun nofun hheader (by rw [hu]; rfl)).trans
    (execAll_execWith_cons (i := .decRun) nofun nofun hrun rfl)), rfl, rfl, ?_⟩
  rw [hu, hot]
  rfl

/-! ### The round trip -/

/-- The trie of a compression job fits the arena, its symbols are 0..256, and if it is one leaf that leaf is the
sentinel's. -/
theorem TablesFor.accepted (h : TablesFor bs trie t) : acceptedTrie trie := by
  have hsize := trie.size_eq
  have hleaves := usedSymbols_length t
  rw [h.symbols.length_eq] at hsize
  exact ⟨by omega, fun sym hs => (mem_usedSymbols.mp (h.symbols.mem_iff.mp hs)).1,
    rootIsSentinelOrInternal_of_mem (h.symbols.mem_iff.mpr h.counts.mem_usedSymbols_sentinel)⟩

/-- The bytes `bs` as symbols, each with its code. -/
def State.codesFor (s : State) (bs : List (BitVec 8)) : List (Nat × Bits) :=
  bs.map fun b => (b.toNat, s.codeOf b.toNat)

theorem bodyFor_eq_codesFor (s : State) (bs : List (BitVec 8)) :
    s.bodyFor bs = ((s.codesFor bs).flatMap fun c => c.2) ++ s.codeOf 256 := by
  rw [State.codesFor, List.flatMap_map]
  rfl

/-- The bytes of those symbols are the bytes themselves. -/
theorem codesFor_bytes (s : State) (bs : List (BitVec 8)) :
    ((s.codesFor bs).flatMap fun c => msbFirst (BitVec.ofNat 8 c.1)) = bs.flatMap msbFirst := by
  simp [State.codesFor, List.flatMap_map]

theorem TablesFor.mem_codesFor (h : TablesFor bs trie t) : ∀ c ∈ t.codesFor bs, c ∈ trie.codes ∧ c.1 ≠ 256 := by
  intro c hc
  obtain ⟨b, hb, rfl⟩ := List.mem_map.mp hc
  exact ⟨h.table.codeOf_mem (h.byte_valid hb), b.isLt.ne⟩

/-- Settles O49: COMPRESS writes a stream of the form that DECOMPRESS reads, whose symbols are the bytes of IN. -/
theorem decompressUndoesCompress : Obligations.DecompressUndoesCompress := by
  intro magic s bs hp hin hlen
  obtain ⟨t, trie, hrun, hok, hphase, hout, h⟩ :=
    compress_run (rest := []) magic hp (by rw [hin, List.append_nil]) (by decide) hlen
  refine ⟨t, hrun, hok, hphase, fun padding hpad => ?_⟩
  have hin' : t.out ++ padding =
      msbFirst magic ++ (trie.header ++ (((t.codesFor bs).flatMap fun c => c.2) ++ (t.codeOf 256 ++ padding))) := by
    simp only [hout, State.streamFor, bodyFor_eq_codesFor, List.append_assoc]
  obtain ⟨u, hu, hsucceeded, hdone, hbytes⟩ := decompress_run (s := { t with input := t.out ++ padding })
    (by simp [hphase]) hpad h.accepted h.mem_codesFor (h.table.codeOf_mem h.sentinel_valid) hin'
  exact ⟨u, hu, hsucceeded, hdone, hbytes.trans (codesFor_bytes t bs)⟩

end Sys2Proof.Machine
end

section
/-! PROOFS. The magic field and the opening of a decompression job (46_orchestration.md rules R160 to R162). -/

namespace Sys2Proof.Machine

variable {s u : State} {magic v : BitVec 32}

/-- A command of a job, for the parameter MAGIC, in one of its phases, its pseudocode run to its end. -/
theorem execWith_job_runs {i : Instr} {x : Value} (h : runsInError i = false) (hl : legalIn i s.phase = true)
    (hb : bodyWith magic i s = .ok x u) : execWith magic i s = .next (respond 0 x u) :=
  execWith_runs hb (operandsLegal_of_job h s) (ne_error_of_legal_job h hl) hl

/-- A command of a job, for the parameter MAGIC, in one of its phases, its pseudocode ended by `raise e`. -/
theorem execWith_job_raises {i : Instr} {e : Error} (h : runsInError i = false) (hl : legalIn i s.phase = true)
    (hb : bodyWith magic i s = .error (.raised e) u) : execWith magic i s = .next (enterError i.opcode e u) :=
  execWith_raises hb (operandsLegal_of_job h s) (ne_error_of_legal_job h hl) hl

/-! ### HW_MAGIC -/

/-- HW_MAGIC in CODED, for any MAGIC. -/
theorem execWith_hwMagic (magic : BitVec 32) (hp : s.phase = .coded) : execWith magic .hwMagic s = .next { s with
    out := s.out ++ msbFirst magic, phase := .magicOut, reply := .response 0 (magic.setWidth 64) } :=
  execWith_job_runs (i := .hwMagic) rfl (decide_eq_true hp) (hwMagicBody_run magic s)

/-- Settles O35: the pseudocode is the write of the magic field and of PHASE, and `exec` is the machine at the default
of MAGIC. -/
theorem hwMagicWritesTheMagicField : Obligations.HwMagicWritesTheMagicField := by
  refine ⟨plainCommand_job (i := .hwMagic) rfl, hwMagicBody_run, fun magic _ hp => execWith_hwMagic magic hp,
    fun s hp => ?_⟩
  rw [← execWith_default]
  exact execWith_hwMagic Config.magic hp

/-! ### DM_START -/

/-- Settles O41: the pseudocode is ResetState() and the write of PHASE. -/
theorem dmStartOpensAJob : Obligations.DmStartOpensAJob :=
  ⟨plainCommand_job (i := .dmStart) rfl, fun s hp =>
    exec_job_runs (i := .dmStart) rfl ((legalIn_iff_mem .dmStart s.phase).mpr hp) rfl⟩

/-! ### HR_MAGIC -/

/-- The bits of a field that comes next in IN, and what follows them. -/
theorem drop_of_take_field {n : Nat} {x : BitVec n} (h : (s.input.drop s.ipos.toNat).take n = msbFirst x) :
    s.input.drop s.ipos.toNat = msbFirst x ++ (s.input.drop s.ipos.toNat).drop n := by
  rw [← h, List.take_append_drop]

/-- HR_MAGIC's pseudocode on 32 bits that are not MAGIC's: they are read before it raises. -/
theorem hrMagicBody_other (h : (s.input.drop s.ipos.toNat).take 32 = msbFirst v) (hv : v ≠ magic) :
    hrMagicBody magic s = .error (.raised .invalidFormat) { s with ipos := s.ipos + 32 } := by
  have hn : v.toNat ≠ magic.toNat := fun heq => hv (BitVec.eq_of_toNat_eq heq)
  rw [hrMagicBody, bind_ok (readBits_prefix (msbFirst_length v) (by decide) (drop_of_take_field h)),
    natOfBits_msbFirst]
  exact congrFun (if_pos hn) _

/-- HR_MAGIC's pseudocode on fewer than 32 bits: ReadBits answers EOD. -/
theorem hrMagicBody_short (magic : BitVec 32) (h : s.input.length < s.ipos.toNat + 32) :
    hrMagicBody magic s =
      .error (.raised .invalidFormat) { s with ipos := BitVec.ofNat 48 s.input.length } := by
  rw [hrMagicBody, bind_ok (readBits_eod h)]; rfl

/-- HR_MAGIC is legal in DM_READY. -/
theorem legalIn_hrMagic (hp : s.phase = .dmReady) : legalIn .hrMagic s.phase = true := decide_eq_true hp

/-- HR_MAGIC in DM_READY on the 32 bits of MAGIC. -/
theorem execWith_hrMagic_match (hp : s.phase = .dmReady)
    (h : (s.input.drop s.ipos.toNat).take 32 = msbFirst magic) : execWith magic .hrMagic s = .next { s with
      ipos := s.ipos + 32, phase := .dmMagicOk, reply := .response 0 (magic.setWidth 64) } :=
  execWith_job_runs rfl (legalIn_hrMagic hp) (hrMagicBody_run (drop_of_take_field h))

/-- HR_MAGIC in DM_READY on 32 other bits. -/
theorem execWith_hrMagic_other (hp : s.phase = .dmReady)
    (h : (s.input.drop s.ipos.toNat).take 32 = msbFirst v) (hv : v ≠ magic) :
    execWith magic .hrMagic s = .next { s with
      ipos := s.ipos + 32, phase := .error, errcode := 1, errcmd := 0x61, out := [], reply := .response 1 0 } :=
  execWith_job_raises (i := .hrMagic) rfl (legalIn_hrMagic hp) (hrMagicBody_other h hv)

/-- HR_MAGIC in DM_READY on fewer than 32 bits. -/
theorem execWith_hrMagic_short (magic : BitVec 32) (hp : s.phase = .dmReady)
    (h : s.input.length < s.ipos.toNat + 32) : execWith magic .hrMagic s = .next { s with
      ipos := BitVec.ofNat 48 s.input.length, phase := .error, errcode := 1, errcmd := 0x61, out := [],
      reply := .response 1 0 } :=
  execWith_job_raises (i := .hrMagic) rfl (legalIn_hrMagic hp) (hrMagicBody_short magic h)

/-- Settles O42: the pseudocode on the 32 bits of MAGIC, on 32 other bits and on fewer; `exec` is the machine at the
default of MAGIC. -/
theorem hrMagicChecksTheMagicField : Obligations.HrMagicChecksTheMagicField := by
  refine ⟨plainCommand_job (i := .hrMagic) rfl, fun _ _ h => hrMagicBody_run (drop_of_take_field h),
    fun magic _ hp => ⟨execWith_hrMagic_match hp, fun _ => execWith_hrMagic_other hp,
      execWith_hrMagic_short magic hp⟩, ?_⟩
  simp only [← execWith_default]
  exact ⟨fun _ => execWith_hrMagic_match, fun _ _ => execWith_hrMagic_other,
    fun _ => execWith_hrMagic_short Config.magic⟩

end Sys2Proof.Machine
end

section
/-! PROOFS. Control and readback (47_control_readback.md rules R170 to R185): the commands that every phase admits. -/

namespace Sys2Proof.Machine

variable {i : Instr} {s u : State} {v : Value}

/-! ### The commands that every phase admits -/

/-- NOP, RESET and the RD_* commands are legal in every phase (rule R23). -/
theorem legalIn_of_runsInError (h : runsInError i = true) (p : Phase) : legalIn i p = true := by
  cases i with
  | nop | reset | rdStatus | rdFreq | rdLen | rdRoot | rdNcount | rdNode | rdCodelen | rdCodebit | rdIpos | rdOutlen
  | rdCursor => rfl
  | _ => cases h

/-- A command that every phase admits, with legal operands, its pseudocode run to its end. -/
theorem exec_always_runs (h : runsInError i = true) (ho : operandsLegal i s = true) (hb : bodyOf i s = .ok v u) :
    exec i s = .next (respond 0 v u) := by
  rw [exec_eq_command, command_runs_always ho h (legalIn_of_runsInError h), hb]; rfl

/-- A readback with legal operands answers a register as a number and changes nothing (rule R172). -/
theorem exec_reads {n : Nat} (h : runsInError i = true) (ho : operandsLegal i s = true) (hb : bodyOf i s = .ok v s)
    (hv : v.toNat = n) : ∃ v : Value, exec i s = .next { s with reply := .response 0 v } ∧ v.toNat = n :=
  ⟨v, exec_always_runs h ho hb, hv⟩

/-- A command whose operands the state makes illegal (rules R77, R172). -/
theorem answersIllegal_of (ho : operandsLegal i s = false) : answersIllegal i s := by
  have hx : exec i s = .next (illegalWord i.opcode s) := (exec_eq_command i s).trans (command_illegal ho)
  refine ⟨fun he => ?_, fun he => ?_⟩
  · rw [hx, illegalWord, if_neg he]; rfl
  · rw [hx, illegalWord, if_pos he]; rfl

/-! ### The illegal words of an opcode -/

/-- An opcode's illegal words, from what rule R77 finds illegal. -/
theorem illegalWhen_of_rule77 {op : Nat} {bad : State → Nat → Prop}
    (h : ∀ (w : Word) (s : State), w.toNat % 2 ^ 8 = op → legalWordOfRule77 w s → ¬ bad s (w.toNat / 2 ^ 8)) :
    illegalWhen op bad := by
  intro s w rest hp hop hbad
  obtain ⟨hout, hin, -⟩ := illegalWordsAreRefused s w rest hp
  have hill : ¬ legalWordOfRule77 w s := fun hl => h w s hop hl hbad
  rw [← hop]
  exact ⟨hout hill, hin hill⟩

/-- A row whose columns A and B are "0". -/
theorem illegalWhen_plain {op : Nat} (h : op ∉ [0x81, 0x85, 0x86, 0x87]) :
    illegalWhen op fun _ fields => fields ≠ 0 := by
  refine illegalWhen_of_rule77 fun w s hop ⟨_, hr, hab⟩ => ?_
  simp only [List.mem_cons, List.not_mem_nil, or_false, not_or] at h
  obtain ⟨h81, h85, h86, h87⟩ := h
  rw [hop, if_neg (not_or.mpr ⟨h81, h86⟩), if_neg h85, if_neg h87] at hab
  omega

/-- A row whose column A is a symbol and column B is "0". -/
theorem illegalWhen_symbol {op : Nat} (h : op = 0x81 ∨ op = 0x86) :
    illegalWhen op fun _ fields => 256 < fields % 2 ^ 10 ∨ fields / 2 ^ 10 ≠ 0 := by
  refine illegalWhen_of_rule77 fun w s hop ⟨_, hr, hab⟩ => ?_
  rw [hop, if_pos h] at hab
  omega

/-! ### NOP and RESET -/

/-- Settles O13: NOP's pseudocode writes nothing, and every phase admits it. -/
theorem nopChangesNothing : Obligations.NopChangesNothing :=
  ⟨rfl, illegalWhen_plain (by decide), fun _ => exec_always_runs (i := .nop) rfl rfl rfl⟩

/-- Settles O14: RESET's pseudocode is ResetState(), and every phase admits it. -/
theorem resetKeepsOnlyInput : Obligations.ResetKeepsOnlyInput :=
  ⟨rfl, illegalWhen_plain (by decide), fun _ => exec_always_runs (i := .reset) rfl rfl rfl⟩

/-! ### Readback of registers -/

/-- A bit as a number. -/
theorem ofBool_toNat_mul (b : Bool) (k : Nat) : (BitVec.ofBool b).toNat * k = if b then k else 0 := by
  cases b <;> simp

/-- The status word as the sum of rule R173. -/
theorem statusWord_toNat (s : State) : (statusWord s).toNat =
    s.phase.code.toNat + s.errcode.toNat * 2 ^ 4 + s.errcmd.toNat * 2 ^ 8 + (if s.rootValid then 2 ^ 16 else 0) := by
  simp only [statusWord, toNat_append_add, BitVec.toNat_zero, ← ofBool_toNat_mul s.rootValid]
  omega

/-- The word of RD_NODE as the sum of rule R180. -/
theorem nodeWord_toNat (n : Node) : (nodeWord n).toNat = (if n.leaf then 1 else 0) + n.sym.toNat * 2 ^ 1 +
    n.left.toNat * 2 ^ 10 + n.right.toNat * 2 ^ 20 + n.weight.toNat * 2 ^ 30 := by
  simp only [nodeWord, toNat_append_add, BitVec.toNat_zero, ← ofBool_toNat_mul n.leaf]
  omega

/-- The word of RD_CODELEN as the sum of rule R181. -/
theorem codeLenWord_toNat (len : CodeLength) (valid : Bool) :
    (codeLenWord len valid).toNat = len.toNat + (if valid then 2 ^ 9 else 0) := by
  simp only [codeLenWord, toNat_append_add, BitVec.toNat_zero, ← ofBool_toNat_mul valid]
  omega

/-- Settles O16: the status word is its fields side by side. -/
theorem rdStatusReadsTheStatusWord : Obligations.RdStatusReadsTheStatusWord :=
  ⟨rfl, illegalWhen_plain (by decide), fun s => exec_reads (i := .rdStatus) rfl rfl rfl (statusWord_toNat s)⟩

/-- Settles O17: a register is not longer than VALUE, and neither is the length of an OUT that HCORE can hold. -/
theorem registerReadbacks : Obligations.RegisterReadbacks := by
  have hplain : ∀ op ∈ [0x82, 0x83, 0x84, 0x88, 0x89, 0x8A], op ∉ [0x81, 0x85, 0x86, 0x87] := by decide
  refine ⟨rfl, rfl, rfl, rfl, rfl, rfl, fun op hop => illegalWhen_plain (hplain op hop), fun s => ?_⟩
  have hout : s.out.length ≤ Config.outMaxBits → (BitVec.ofNat 64 s.out.length).toNat = s.out.length := fun h =>
    by
    rw [BitVec.toNat_ofNat]
    exact Nat.mod_eq_of_lt (lt_of_le_of_lt h (by decide))
  refine ⟨exec_reads (i := .rdLen) rfl rfl rfl ?_, exec_reads (i := .rdRoot) rfl rfl rfl ?_,
    exec_reads (i := .rdNcount) rfl rfl rfl ?_, exec_reads (i := .rdIpos) rfl rfl rfl ?_,
    exec_reads (i := .rdCursor) rfl rfl rfl ?_, fun h => exec_reads (i := .rdOutlen) rfl rfl rfl (hout h)⟩
  all_goals exact BitVec.toNat_setWidth_of_le (by decide)

/-! ### Readback of a register file's entry -/

/-- Settles O18: the operand of RD_FREQ names a symbol, or is illegal. -/
theorem rdFreqReadsOneSlot : Obligations.RdFreqReadsOneSlot := by
  obtain ⟨-, hword, -⟩ := wordsAreAssembledByRule72
  refine ⟨hword, illegalWhen_symbol (.inl rfl), fun s a => ⟨fun ha => ?_, fun ha => ?_⟩⟩
  · exact exec_reads (i := .rdFreq a) rfl (decide_eq_true ha) rfl (BitVec.toNat_setWidth_of_le (by decide))
  · exact answersIllegal_of (decide_eq_false (Nat.not_le.mpr ha))

/-- The illegal words of RD_NODE: the state bounds its operand by NODE_COUNT. -/
theorem illegalWhen_rdNode :
    illegalWhen 0x85 fun s fields => s.nodeCount.toNat ≤ fields % 2 ^ 10 ∨ fields / 2 ^ 10 ≠ 0 := by
  refine illegalWhen_of_rule77 fun w s hop ⟨_, hr, hab⟩ => ?_
  rw [hop, if_neg (by decide), if_pos rfl] at hab
  omega

/-- Settles O19: the operand of RD_NODE names an allocated entry, or is illegal. -/
theorem rdNodeReadsAllocatedEntries : Obligations.RdNodeReadsAllocatedEntries := by
  obtain ⟨-, -, hword, -⟩ := wordsAreAssembledByRule72
  refine ⟨hword, illegalWhen_rdNode, fun s a => ⟨fun ha => ?_, fun ha => ?_⟩⟩
  · exact exec_reads (i := .rdNode a) rfl (decide_eq_true ha) rfl (nodeWord_toNat _)
  · exact answersIllegal_of (decide_eq_false (Nat.not_lt.mpr ha))

/-- Settles O20: the operand of RD_CODELEN names a symbol, or is illegal. -/
theorem rdCodelenReadsLengthAndValidity : Obligations.RdCodelenReadsLengthAndValidity := by
  obtain ⟨-, -, -, hword, -⟩ := wordsAreAssembledByRule72
  refine ⟨hword, illegalWhen_symbol (.inr rfl), fun s a => ⟨fun ha => ?_, fun ha => ?_⟩⟩
  · exact exec_reads (i := .rdCodelen a) rfl (decide_eq_true ha) rfl (codeLenWord_toNat _ _)
  · exact answersIllegal_of (decide_eq_false (Nat.not_le.mpr ha))

/-- The operands of RD_CODEBIT: a symbol with a code, and the index of a bit of it (rule R182). -/
theorem operandsLegal_rdCodebit {a : OperandA} {b : OperandB} : operandsLegal (.rdCodebit a b) s = true ↔
    a.toNat ≤ 256 ∧ s.codeValidAt a.toNat = true ∧ b.toNat < (s.codeLenAt a.toNat).toNat := by
  simp only [operandsLegal, isSymbol, Bool.and_eq_true, decide_eq_true_eq, and_assoc]

/-- The word of RD_CODEBIT: one bit (rule R182). -/
theorem ofNat_toNat_bool (b : Bool) : BitVec.ofNat 64 b.toNat = if b then 1 else 0 := by cases b <;> rfl

/-- The illegal words of RD_CODEBIT: the code table bounds its operands. -/
theorem illegalWhen_rdCodebit :
    illegalWhen 0x87 fun s fields => 256 < fields % 2 ^ 10 ∨ s.codeValidAt (fields % 2 ^ 10) = false ∨
      (s.codeLenAt (fields % 2 ^ 10)).toNat ≤ fields / 2 ^ 10 % 2 ^ 8 ∨ fields / 2 ^ 18 ≠ 0 := by
  refine illegalWhen_of_rule77 fun w s hop ⟨_, hr, hab⟩ => ?_
  rw [hop, if_neg (by decide), if_neg (by decide), if_pos rfl] at hab
  obtain ⟨ha, hvalid, hb⟩ := hab
  rintro (h | h | h | h)
  · omega
  · exact Bool.false_ne_true (h.symm.trans hvalid)
  · rw [Nat.div_div_eq_div_mul] at h
    exact absurd hb (Nat.not_lt.mpr h)
  · rw [Nat.div_div_eq_div_mul] at h
    exact h hr

/-- Settles O21: the operands of RD_CODEBIT name a bit of a code, or are illegal. -/
theorem rdCodebitReadsOneBit : Obligations.RdCodebitReadsOneBit := by
  obtain ⟨hword, -⟩ := wordsAreAssembledByRule72
  refine ⟨hword, illegalWhen_rdCodebit, fun s a b => ⟨fun h => ?_, fun h => answersIllegal_of ?_⟩⟩
  · rw [← ofNat_toNat_bool]
    exact exec_always_runs (i := .rdCodebit a b) rfl (operandsLegal_rdCodebit.mpr h) rfl
  · refine Bool.eq_false_iff.mpr fun ho => ?_
    obtain ⟨ha, hvalid, hb⟩ := operandsLegal_rdCodebit.mp ho
    rcases h with h | h | h
    · exact absurd ha (Nat.not_le.mpr h)
    · exact Bool.false_ne_true (h.symm.trans hvalid)
    · exact absurd hb (Nat.not_lt.mpr h)

end Sys2Proof.Machine
end

section
/-! PROOFS. Phase ERROR (60_exceptions.md rules R200 to R204), and the machine that is idle or powered on
(70_reset_and_hazards.md rules R213, R230, R231). -/

namespace Sys2Proof.Machine

variable {i : Instr} {s t : State} {w : Word} {rest : List HostMove}

/-! ### In phase ERROR -/

/-- What is legal of a command's operands does not depend on the moves the host has yet to make. -/
theorem operandsLegal_pending : operandsLegal i { s with pending := rest } = operandsLegal i s := by cases i <;> rfl

/-- The opcodes of the commands that phase ERROR admits (rules R76, R203). -/
theorem runsInError_iff_opcode : runsInError i = true ↔ i.opcode.toNat ≤ 1 ∨ 0x80 ≤ i.opcode.toNat := by
  cases i <;> simp [runsInError, Instr.opcode]

/-- A command of a job in phase ERROR. -/
theorem exec_job_halted (hr : runsInError i = false) (he : s.phase = .error) :
    exec i s = .next { s with reply := .response 8 0 } :=
  (exec_eq_command i s).trans (command_halted (operandsLegal_of_job hr s) he hr)

/-- The step of a word that rule R77 finds legal is the step of a command with legal operands. -/
theorem step_legalWord (hp : s.pending = .issue w :: rest) (hl : legalWordOfRule77 w s) :
    ∃ i : Instr, i.opcode.toNat = w.toNat % 2 ^ 8 ∧ operandsLegal i { s with pending := rest } = true ∧
      step s = exec i { s with pending := rest } := by
  obtain ⟨i, hd, ho⟩ := legalWord_iff.mp hl
  exact ⟨i, (decode_toNat hd).1.symm, operandsLegal_pending.trans ho, stepExecutesIssuedCommand s w rest i hp hd⟩

/-- Settles O8: rule R77 sorts the words, and the opcode tells the commands of a job from those that phase ERROR
admits. -/
theorem errorPhaseHaltsJobCommands : Obligations.ErrorPhaseHaltsJobCommands := by
  refine ⟨fun i s he hi => exec_job_halted (by revert i; decide) he, fun s w rest hp he => ?_⟩
  obtain ⟨-, hill, -⟩ := illegalWordsAreRefused s w rest hp
  refine ⟨fun hn => hill hn he, fun hl hop => ?_, fun hl hop => ?_⟩
  · obtain ⟨i, hi, -, hs⟩ := step_legalWord hp hl
    rw [← hi, ← runsInError_iff_opcode, Bool.not_eq_true] at hop
    exact hs.trans (exec_job_halted hop he)
  · obtain ⟨i, hi, ho, hs⟩ := step_legalWord hp hl
    rw [← hi, ← runsInError_iff_opcode] at hop
    obtain ⟨v, u, hb⟩ := bodyOf_runsInError hop { s with pending := rest }
    exact ⟨_, v, hs.trans (exec_always_runs hop ho hb), rfl⟩

/-! ### Into phase ERROR -/

/-- What the error entry leaves of a command with the opcode `op` (rule R201). -/
def recordsError (op : Opcode) (t : State) : Prop :=
  1 ≤ t.errcode.toNat ∧ t.errcode.toNat ≤ 7 ∧ t.errcmd = op ∧ t.out = [] ∧ t.reply = .response t.errcode 0

theorem recordsError_enterError (op : Opcode) (e : Error) (s : State) : recordsError op (enterError op e s) := by
  have he : 1 ≤ e.code.toNat ∧ e.code.toNat ≤ 7 := by cases e <;> decide
  exact ⟨he.1, he.2, rfl, rfl, rfl⟩

/-- Settles O9: outside phase ERROR a command goes into it by the error entry alone. -/
theorem errorEntryRecordsTheError : Obligations.ErrorEntryRecordsTheError := by
  intro i s t h hs ht
  show recordsError i.opcode t
  rcases exec_next h with ⟨-, rfl⟩ | ⟨-, he, -, rfl⟩ | ⟨-, -, -, rfl⟩ | ⟨-, -, -, ⟨v, u, -, hq, rfl⟩ | ⟨e, u, -, -, rfl⟩⟩
  · rw [illegalWord, if_neg hs]
    exact recordsError_enterError _ _ s
  · exact absurd he hs
  · exact recordsError_enterError _ _ s
  · exact absurd (hq.noError ht) hs
  · exact recordsError_enterError _ e u

/-! ### Out of phase ERROR -/

theorem illegalWord_phase_of_error (op : Opcode) (he : s.phase = .error) : (illegalWord op s).phase = .error := by
  rw [illegalWord, if_pos he]
  exact he

/-- In phase ERROR every command but RESET stays in it: the RD_* commands and NOP write no register. -/
theorem exec_keeps_error (hi : i ≠ .reset) (he : s.phase = .error) (h : exec i s = .next t) : t.phase = .error := by
  rcases exec_next_legal h with rfl | rfl | rfl | ⟨hl, ⟨v, u, hb, rfl⟩ | ⟨e, u, -, rfl⟩⟩
  · exact illegalWord_phase_of_error _ he
  · exact he
  · rfl
  · have hr : runsInError i = true := by rw [← legalIn_error, ← he]; exact hl
    cases i with
    | reset => exact absurd rfl hi
    | nop | rdStatus | rdFreq | rdLen | rdRoot | rdNcount | rdNode | rdCodelen | rdCodebit | rdIpos | rdOutlen
    | rdCursor => cases hb; exact he
    | _ => cases hr
  · rfl

/-- The only word that leads out of phase ERROR is that of RESET. -/
theorem issue_leaves_error (he : s.phase = .error) (h : executeWord exec w s = .next t) (ht : t.phase ≠ .error) :
    w = 1 ∧ t = respond 0 0 (resetState s) := by
  unfold executeWord at h
  cases hd : decode w with
  | error e =>
    simp only [hd] at h
    cases h
    exact absurd (illegalWord_phase_of_error _ he) ht
  | ok i =>
    simp only [hd] at h
    obtain rfl : i = .reset := by_contra fun hi => ht (exec_keeps_error hi he h)
    rw [exec_always_runs (i := .reset) rfl rfl rfl] at h
    cases h
    exact ⟨(encode_of_decode hd).symm, rfl⟩

/-- While the host has no move to make, HCORE is idle. -/
theorem step_idle (hp : s.pending = []) : step s = .next s := by
  simp only [step, stepBy, takeMove, hp]

/-- Settles O11: of the host's moves, a load of IN and a read of OUT keep PHASE. -/
theorem onlyResetOrPowerOnLeavesError : Obligations.OnlyResetOrPowerOnLeavesError := by
  intro s t he hs ht
  cases hp : s.pending with
  | nil =>
    rw [step_idle hp] at hs
    cases hs
    exact absurd he ht
  | cons m rest =>
    rw [step_of_pending hp] at hs
    cases m with
    | issue w =>
      obtain ⟨rfl, rfl⟩ := issue_leaves_error (s := { s with pending := rest }) he hs ht
      exact ⟨rfl, rfl, rest, .inl rfl⟩
    | loadIn q =>
      obtain ⟨-, -, rfl⟩ := loadIn_next hs
      exact absurd he ht
    | readOut =>
      rw [readOut_next hs] at ht
      exact absurd he ht
    | powerOn =>
      cases hs
      exact ⟨rfl, rfl, rest, .inr rfl⟩

/-! ### Idle, and after power-on -/

/-- Settles O27: with no move there is nothing to make. -/
theorem idleKeepsEverything : Obligations.IdleKeepsEverything := fun _ => step_idle

/-- The fields of the status word are 0 after power-on. -/
theorem statusWord_powerOn (s : State) : statusWord (powerOn s) = 0 := by
  show 0#47 ++ BitVec.ofBool false ++ 0#8 ++ 0#4 ++ 0#4 = 0#64
  decide

/-- Settles O15: power-on is ResetState() with IN emptied, and every entry of a filled register file reads alike. -/
theorem powerOnValues : Obligations.PowerOnValues := fun _ _ hp =>
  ⟨_, step_of_pending hp, rfl, rfl, rfl, RegFile.read_fill 0, rfl, fun i => RegFile.read_fill Node.zero i.toNat, rfl,
    rfl, rfl, fun sym => ⟨RegFile.read_fill false sym, RegFile.read_fill 0 sym, RegFile.read_fill 0 sym⟩, rfl, rfl, rfl,
    rfl, rfl, rfl, statusWord_powerOn _⟩

end Sys2Proof.Machine
end
